-- ==== Sys2Proof/Word.lean ====
section
/-! DEFINITION. The word types of the C3 CORE engine (00_scope.md section 5): every value is an unsigned bit vector of a stated
width (R2). -/

namespace Sys2Proof

/-- A 64-bit value `u64`: operand, result, address, CA, ICV entry. -/
abbrev Word := BitVec 64

/-- One byte of DBUF or of a key. -/
abbrev Byte := BitVec 8

/-- The 24-bit block of the TweakCipher (43_tweak_cipher.md). -/
abbrev Block := BitVec 24

/-- The 53-bit internal word of the tweak schedule (TWK_STATE_BITS, 00_scope.md section 4). -/
abbrev TweakWord := BitVec 53

/-- The 40 bits of a tweak operand that the cipher uses (TWEAK_BITS, 43_tweak_cipher.md R142). -/
abbrev Tweak := BitVec 40

/-- A 16-byte data key (10_state.md R37). Byte i is the byte the host supplied at offset i. -/
abbrev DataKey := Vector Byte 16

/-- The 32-byte pointer/address key (10_state.md R37). -/
abbrev AddrKey := Vector Byte 32

end Sys2Proof
end

