-- ==== Sys2Proof/Syntax.lean ====
section
/-! DEFINITION. The syntax of the engine: the 39 commands of spec/opcode_table.json (30_encoding.md R85), the two fields a command
word may carry (R80), and the host transactions a program is a list of (R96). -/

namespace Sys2Proof

/-- KSEL, the key slot a command names (10_state.md R37): 0 K_SHARED, 1 K_PRIVATE, 2 K_CODE, 3 K_ADDR. -/
inductive KeySlot where
  | sharedKey
  | privateKey
  | codeKey
  | addrKey
deriving DecidableEq, Repr

/-- AK, the access kind (30_encoding.md R80): 0 read, 1 write. -/
inductive AccessKind where
  | read
  | write
deriving DecidableEq, Repr

/-- Which of the two optional fields a command uses, column "Uses" of 30_encoding.md R85. -/
inductive FieldUse where
  | plain
  | ksel
  | ak
deriving DecidableEq, Repr

/-- Why the decoder refuses a command word (30_encoding.md R81 steps 1 to 3). -/
inductive Reject where
  /-- Step 1: `w[7:0]` is no opcode; the command is refused with ERR_OPCODE. -/
  | opcode
  /-- Steps 2 and 3: a reserved bit, or a KSEL or AK field the command does not use, is not zero; ERR_RESERVED. -/
  | reserved
deriving DecidableEq, Repr

/-- The commands, one constructor per row of spec/opcode_table.json. Operands other than KSEL and AK stand in A0 to A2 and DBUF
(30_encoding.md R84). -/
inductive Instr where
  /-- NOP, rule R86. -/
  | nop
  /-- CA_GET_PLAINTEXT, rule R100. -/
  | caGetPlaintext
  /-- CA_GET_CIPHERTEXT, rule R101. -/
  | caGetCiphertext
  /-- CA_GET_ENCSIZE, rule R102. -/
  | caGetEncsize
  /-- CA_GET_ADJUST, rule R103. -/
  | caGetAdjust
  /-- CA_GET_SPRIME, rule R104. -/
  | caGetSprime
  /-- CA_GET_SBIT, rule R105. -/
  | caGetSbit
  /-- CA_GET_VERSION, rule R106. -/
  | caGetVersion
  /-- CA_IS_CANONICAL, rule R107. -/
  | caIsCanonical
  /-- CA_IS_CA, rule R108. -/
  | caIsCa
  /-- DECODE_SIZE, rule R109. -/
  | decodeSize
  /-- CA_SET_PLAINTEXT, rule R110. -/
  | caSetPlaintext
  /-- CA_SET_CIPHERTEXT, rule R111. -/
  | caSetCiphertext
  /-- CA_SET_ENCSIZE, rule R112. -/
  | caSetEncsize
  /-- CA_SET_VERSION, rule R113. -/
  | caSetVersion
  /-- CLASSIFY, rule R134. -/
  | classify
  /-- TBC_ENC, rule R160. -/
  | tbcEnc
  /-- TBC_DEC, rule R161. -/
  | tbcDec
  /-- PRF_STREAM, rule R180. -/
  | prfStream (k : KeySlot)
  /-- PTR_DECORATE, rule R200. -/
  | ptrDecorate
  /-- PTR_ENCRYPT, rule R201. -/
  | ptrEncrypt
  /-- PTR_DECRYPT, rule R202. -/
  | ptrDecrypt
  /-- PTR_UNDECORATE, rule R203. -/
  | ptrUndecorate
  /-- PTR_ENCODE, rule R204. -/
  | ptrEncode
  /-- PTR_DECODE, rule R205. -/
  | ptrDecode
  /-- PTR_DECODE_IF, rule R206. -/
  | ptrDecodeIf
  /-- DATA_MASK, rule R212. -/
  | dataMask (k : KeySlot)
  /-- ICV_SET, rule R230. -/
  | icvSet
  /-- ICV_GET, rule R231. -/
  | icvGet
  /-- ICV_CHECK_OR_SET, rule R232. -/
  | icvCheckOrSet (kind : AccessKind)
  /-- ICV_INIT, rule R234. -/
  | icvInit
  /-- ICV_PREINIT, rule R235. -/
  | icvPreinit
  /-- ICV_INVALIDATE, rule R233. -/
  | icvInvalidate
  /-- ICV_CORRECT, rule R236. -/
  | icvCorrect
  /-- ICV_ACCESS, rule R242. -/
  | icvAccess (kind : AccessKind)
  /-- KEY_SET, rule R260. -/
  | keySet (k : KeySlot)
  /-- CTX_SAVE, rule R266. -/
  | ctxSave
  /-- CTX_LOAD, rule R267. -/
  | ctxLoad
  /-- RESUME, rule R268. -/
  | resume
deriving DecidableEq, Repr

/-- What reaches the engine from outside: a host transaction on the register window (20_memory.md R60; a program's triples of
30_encoding.md R96), or the reset input (70_reset_and_hazards.md R310). -/
inductive Input where
  /-- `HRead(off)`. -/
  | hread (off : Nat)
  /-- `HWrite(off, v)`. -/
  | hwrite (off : Nat) (v : Word)
  /-- The reset input is asserted and released. -/
  | reset
deriving DecidableEq, Repr

end Sys2Proof
end

