-- ==== Sys2Proof/Decode.lean ====
section
/-! DEFINITION. The decoder of command words, total on all 2^64 words (30_encoding.md R80, R81, R85, R87, R88), and after it the
encoder written from the same table. -/

namespace Sys2Proof

/-- The two bits of KSEL (10_state.md R37). -/
def kselBits (k : KeySlot) : BitVec 2 :=
  match k with
  | .sharedKey => 0
  | .privateKey => 1
  | .codeKey => 2
  | .addrKey => 3

/-- The key slot that two bits of KSEL select (10_state.md R37). -/
def kselOfBits (b : BitVec 2) : KeySlot :=
  match b.toNat with
  | 0 => .sharedKey
  | 1 => .privateKey
  | 2 => .codeKey
  | _ => .addrKey

/-- The bit of AK (30_encoding.md R80). -/
def akBit (kind : AccessKind) : BitVec 1 :=
  match kind with
  | .read => 0
  | .write => 1

/-- The access kind that the bit AK selects (30_encoding.md R80). -/
def akOfBit (b : BitVec 1) : AccessKind :=
  if b = 0 then .read else .write

/-- One row of the opcode map (30_encoding.md R85): the opcode, the field the command uses, and the command with that field. -/
structure OpcodeRow where
  opc : BitVec 8
  uses : FieldUse
  command : KeySlot → AccessKind → Instr

/-- The opcode map, in the order of 30_encoding.md R85. -/
def opcodeRows : List OpcodeRow :=
  [ ⟨0x00, .plain, fun _ _ => .nop⟩,
    ⟨0x10, .plain, fun _ _ => .caGetPlaintext⟩,
    ⟨0x11, .plain, fun _ _ => .caGetCiphertext⟩,
    ⟨0x12, .plain, fun _ _ => .caGetEncsize⟩,
    ⟨0x13, .plain, fun _ _ => .caGetAdjust⟩,
    ⟨0x14, .plain, fun _ _ => .caGetSprime⟩,
    ⟨0x15, .plain, fun _ _ => .caGetSbit⟩,
    ⟨0x16, .plain, fun _ _ => .caGetVersion⟩,
    ⟨0x17, .plain, fun _ _ => .caIsCanonical⟩,
    ⟨0x18, .plain, fun _ _ => .caIsCa⟩,
    ⟨0x19, .plain, fun _ _ => .decodeSize⟩,
    ⟨0x1A, .plain, fun _ _ => .caSetPlaintext⟩,
    ⟨0x1B, .plain, fun _ _ => .caSetCiphertext⟩,
    ⟨0x1C, .plain, fun _ _ => .caSetEncsize⟩,
    ⟨0x1D, .plain, fun _ _ => .caSetVersion⟩,
    ⟨0x20, .plain, fun _ _ => .classify⟩,
    ⟨0x30, .plain, fun _ _ => .tbcEnc⟩,
    ⟨0x31, .plain, fun _ _ => .tbcDec⟩,
    ⟨0x38, .ksel, fun k _ => .prfStream k⟩,
    ⟨0x40, .plain, fun _ _ => .ptrDecorate⟩,
    ⟨0x41, .plain, fun _ _ => .ptrEncrypt⟩,
    ⟨0x42, .plain, fun _ _ => .ptrDecrypt⟩,
    ⟨0x43, .plain, fun _ _ => .ptrUndecorate⟩,
    ⟨0x44, .plain, fun _ _ => .ptrEncode⟩,
    ⟨0x45, .plain, fun _ _ => .ptrDecode⟩,
    ⟨0x46, .plain, fun _ _ => .ptrDecodeIf⟩,
    ⟨0x50, .ksel, fun k _ => .dataMask k⟩,
    ⟨0x60, .plain, fun _ _ => .icvSet⟩,
    ⟨0x61, .plain, fun _ _ => .icvGet⟩,
    ⟨0x62, .ak, fun _ kind => .icvCheckOrSet kind⟩,
    ⟨0x63, .plain, fun _ _ => .icvInit⟩,
    ⟨0x64, .plain, fun _ _ => .icvPreinit⟩,
    ⟨0x65, .plain, fun _ _ => .icvInvalidate⟩,
    ⟨0x66, .plain, fun _ _ => .icvCorrect⟩,
    ⟨0x67, .ak, fun _ kind => .icvAccess kind⟩,
    ⟨0x70, .ksel, fun k _ => .keySet k⟩,
    ⟨0x71, .plain, fun _ _ => .ctxSave⟩,
    ⟨0x72, .plain, fun _ _ => .ctxLoad⟩,
    ⟨0x73, .plain, fun _ _ => .resume⟩ ]

/-- The row whose opcode a word's bits 7:0 name (30_encoding.md R81 step 1). -/
def opcodeRow (opc : BitVec 8) : Option OpcodeRow :=
  opcodeRows.find? fun r => r.opc == opc

/-- The decoder, steps 1 to 3 of 30_encoding.md R81 in their order: the opcode, the reserved bits 63:11, then a KSEL or AK field the
command does not use. The later steps depend on the engine's state and belong to the command (Machine/Ops.lean). -/
def decode (w : Word) : Except Reject Instr :=
  match opcodeRow (w.extractLsb 7 0) with
  | none => .error .opcode
  | some r =>
    if w.extractLsb 63 11 ≠ 0 then .error .reserved
    else if (w.extractLsb 9 8 ≠ 0 ∧ r.uses ≠ .ksel) ∨ (w.extractLsb 10 10 ≠ 0 ∧ r.uses ≠ .ak) then .error .reserved
    else .ok (r.command (kselOfBits (w.extractLsb 9 8)) (akOfBit (w.extractLsb 10 10)))

/-- The opcode of a command (30_encoding.md R85). -/
def opcodeOf (i : Instr) : BitVec 8 :=
  match i with
  | .nop => 0x00
  | .caGetPlaintext => 0x10
  | .caGetCiphertext => 0x11
  | .caGetEncsize => 0x12
  | .caGetAdjust => 0x13
  | .caGetSprime => 0x14
  | .caGetSbit => 0x15
  | .caGetVersion => 0x16
  | .caIsCanonical => 0x17
  | .caIsCa => 0x18
  | .decodeSize => 0x19
  | .caSetPlaintext => 0x1A
  | .caSetCiphertext => 0x1B
  | .caSetEncsize => 0x1C
  | .caSetVersion => 0x1D
  | .classify => 0x20
  | .tbcEnc => 0x30
  | .tbcDec => 0x31
  | .prfStream _ => 0x38
  | .ptrDecorate => 0x40
  | .ptrEncrypt => 0x41
  | .ptrDecrypt => 0x42
  | .ptrUndecorate => 0x43
  | .ptrEncode => 0x44
  | .ptrDecode => 0x45
  | .ptrDecodeIf => 0x46
  | .dataMask _ => 0x50
  | .icvSet => 0x60
  | .icvGet => 0x61
  | .icvCheckOrSet _ => 0x62
  | .icvInit => 0x63
  | .icvPreinit => 0x64
  | .icvInvalidate => 0x65
  | .icvCorrect => 0x66
  | .icvAccess _ => 0x67
  | .keySet _ => 0x70
  | .ctxSave => 0x71
  | .ctxLoad => 0x72
  | .resume => 0x73

/-- The KSEL field of a command: zero where the command does not use it (30_encoding.md R81). -/
def kselOf (i : Instr) : BitVec 2 :=
  match i with
  | .prfStream k | .dataMask k | .keySet k => kselBits k
  | .nop | .caGetPlaintext | .caGetCiphertext | .caGetEncsize | .caGetAdjust | .caGetSprime | .caGetSbit
  | .caGetVersion | .caIsCanonical | .caIsCa | .decodeSize | .caSetPlaintext | .caSetCiphertext | .caSetEncsize
  | .caSetVersion | .classify | .tbcEnc | .tbcDec | .ptrDecorate | .ptrEncrypt | .ptrDecrypt | .ptrUndecorate
  | .ptrEncode | .ptrDecode | .ptrDecodeIf | .icvSet | .icvGet | .icvCheckOrSet _ | .icvInit | .icvPreinit
  | .icvInvalidate | .icvCorrect | .icvAccess _ | .ctxSave | .ctxLoad | .resume => 0

/-- The AK field of a command: zero where the command does not use it (30_encoding.md R81). -/
def akOf (i : Instr) : BitVec 1 :=
  match i with
  | .icvCheckOrSet kind | .icvAccess kind => akBit kind
  | .nop | .caGetPlaintext | .caGetCiphertext | .caGetEncsize | .caGetAdjust | .caGetSprime | .caGetSbit
  | .caGetVersion | .caIsCanonical | .caIsCa | .decodeSize | .caSetPlaintext | .caSetCiphertext | .caSetEncsize
  | .caSetVersion | .classify | .tbcEnc | .tbcDec | .prfStream _ | .ptrDecorate | .ptrEncrypt | .ptrDecrypt
  | .ptrUndecorate | .ptrEncode | .ptrDecode | .ptrDecodeIf | .dataMask _ | .icvSet | .icvGet | .icvInit
  | .icvPreinit | .icvInvalidate | .icvCorrect | .keySet _ | .ctxSave | .ctxLoad | .resume => 0

/-- The command word `OPC | KSEL << 8 | AK << 10` (30_encoding.md R80, R95). -/
def encode (i : Instr) : Word :=
  (opcodeOf i).setWidth 64 ||| (kselOf i).setWidth 64 <<< 8 ||| (akOf i).setWidth 64 <<< 10

/-- The host's reading of one opcode-table row: a row is one 64-bit command word, bit 0 its least significant bit. -/
def decodeTableWord (nbits w : Nat) : Option Instr :=
  match decode (BitVec.ofNat 64 (w % 2 ^ nbits)) with
  | .ok i => some i
  | .error _ => none

end Sys2Proof
end

