-- ==== Sys2Proof/Config.lean ====
section
/-! DEFINITION. The configuration of the engine: every OPEN and DEFAULT parameter of 00_scope.md section 4 as a field, with the
constraint the spec puts on it (93_implementation_defined.md section 1) as a proof field, and nothing more (R8). The machine's own
configuration `Config.hw` is a constant without a body, so no statement can rest on a value of it. -/

namespace Sys2Proof

/-- A bit-permutation table of N entries with its inverse (00_scope.md R6): `inv (fwd i) = i`, a bijection of {0..N-1}. -/
structure BitPerm (n : Nat) where
  fwd : Fin n → Fin n
  inv : Fin n → Fin n
  inv_fwd : ∀ i, inv (fwd i) = i
  fwd_inv : ∀ i, fwd (inv i) = i

/-- The OPEN tables of the TweakCipher (93_implementation_defined.md U2 to U6). -/
structure TbcParams where
  /-- SBOX, a bijection of 0..63 (U2). -/
  sbox : BitVec 6 → BitVec 6
  /-- SBOX_INV, its inverse (U2). -/
  sboxInv : BitVec 6 → BitVec 6
  sboxInv_sbox : ∀ x, sboxInv (sbox x) = x
  sbox_sboxInv : ∀ y, sbox (sboxInv y) = y
  /-- P1, first permutation of the core round (U3, 43 R149). -/
  p1 : BitPerm 24
  /-- P2, second permutation of the core round (U3, 43 R149). -/
  p2 : BitPerm 24
  /-- P3, the permutation of the simple round (U3, 43 R149). -/
  p3 : BitPerm 24
  /-- PT_G (U4). -/
  ptG : BitPerm 53
  /-- PT_GP (U4). -/
  ptGp : BitPerm 53
  /-- MIX_G, GF(2)-linear (U5). -/
  mixG : TweakWord → TweakWord
  mixG_xor : ∀ a b, mixG (a ^^^ b) = mixG a ^^^ mixG b
  /-- MIX_GP, GF(2)-linear (U5). -/
  mixGp : TweakWord → TweakWord
  mixGp_xor : ∀ a b, mixGp (a ^^^ b) = mixGp a ^^^ mixGp b
  /-- TWK_STAGE_ROUNDS[0..5], each 1 or 2 (U6, 43 R146). -/
  stageRounds : Fin 6 → Nat
  stageRounds_ok : ∀ i, stageRounds i = 1 ∨ stageRounds i = 2

/-- The OPEN constants of the StreamPRF (93_implementation_defined.md U7 to U11). -/
structure PrfParams where
  /-- PRF_IV (U7). -/
  iv : Word
  /-- PRF_RC[0..11] (U8). -/
  rc : Fin 12 → Word
  /-- PRF_PREMIX, pairs (destination lane, source lane) (U9, 44 R172). -/
  premix : List (Fin 5 × Fin 5)
  premix_ne : ∀ p ∈ premix, p.1 ≠ p.2
  /-- PRF_POSTMIX (U9, 44 R174). -/
  postmix : List (Fin 5 × Fin 5)
  postmix_ne : ∀ p ∈ postmix, p.1 ≠ p.2
  /-- PRF_ROT[0..4], pairs (c1, c2) (U10, 44 R175). -/
  rot : Fin 5 → Fin 64 × Fin 64
  rot_c2 : ((List.finRange 5).map fun i => (rot i).2.val).Perm [1, 10, 7, 19, 39]
  /-- PRF_PAD, a word with exactly one non-zero byte (U11). -/
  pad : Word
  pad_one_byte : ∃ (k : Fin 8) (b : Byte), b ≠ 0 ∧ pad = b.setWidth 64 <<< (8 * k.val)
  /-- PRF_DSEP, a word with exactly one bit set (U11). -/
  dsep : Word
  dsep_one_bit : ∃ k : Fin 64, dsep = 1#64 <<< k.val

/-- Everything one deployment of the engine fixes (00_scope.md section 4, R8). -/
structure Config where
  tbc : TbcParams
  prf : PrfParams
  /-- MIN_ALLOC_OFFSET (MAO), default 0, legal range 0 to 31 (D20). -/
  mao : Nat
  mao_le : mao ≤ 31
  /-- SPECIAL_SIZE_ENCODING, a 6-bit value or "none" (U1). -/
  specialSize : Option (BitVec 6)
  /-- ICV_BLOCK_BITS, 0 to 61 (D47). -/
  icvBlockBits : Nat
  icvBlockBits_le : icvBlockBits ≤ 61
  /-- ICV_MAX_BLOCKS, a number or (`none`) "unbounded" (D47). -/
  icvMaxBlocks : Option Nat
  /-- N_CTX, the number of independent engine instances, at least 1 (60_exceptions.md R303). -/
  nCtx : Nat
  nCtx_pos : 1 ≤ nCtx

/-- The constraints can be met: identity tables meet them. Used for nothing but to let `Config.ofDeployment` be declared. -/
def Config.satisfiable : Config where
  tbc :=
    { sbox := id, sboxInv := id, sboxInv_sbox := fun _ => rfl, sbox_sboxInv := fun _ => rfl
      p1 := ⟨id, id, fun _ => rfl, fun _ => rfl⟩, p2 := ⟨id, id, fun _ => rfl, fun _ => rfl⟩
      p3 := ⟨id, id, fun _ => rfl, fun _ => rfl⟩, ptG := ⟨id, id, fun _ => rfl, fun _ => rfl⟩
      ptGp := ⟨id, id, fun _ => rfl, fun _ => rfl⟩
      mixG := id, mixG_xor := fun _ _ => rfl, mixGp := id, mixGp_xor := fun _ _ => rfl
      stageRounds := fun _ => 1, stageRounds_ok := fun _ => .inl rfl }
  prf :=
    { iv := 0, rc := fun _ => 0, premix := [], premix_ne := by simp, postmix := [], postmix_ne := by simp
      rot := fun i => (0, #v[1, 10, 7, 19, 39][i]), rot_c2 := by decide
      pad := 1, pad_one_byte := ⟨0, 1, by decide, by decide⟩, dsep := 1, dsep_one_bit := ⟨0, by decide⟩ }
  mao := 0
  mao_le := by decide
  specialSize := none
  icvBlockBits := 0
  icvBlockBits_le := by decide
  icvMaxBlocks := none
  nCtx := 1
  nCtx_pos := by decide

/-- What the deployment at hand fixed. It has no body: nothing in Lean can evaluate it or prove a value of one of its parameters;
all that is known of it is what the proof fields of `Config` say (R8). DESIGN CHOICE, log entry 1. -/
opaque Config.ofDeployment [Inhabited Config] : Config

/-- The configuration of the machine `core`: some legal configuration, unknown. DESIGN CHOICE, log entry 1. -/
def Config.hw : Config := @Config.ofDeployment ⟨Config.satisfiable⟩

end Sys2Proof
end

