-- ==== Sys2Proof/Machine/Bits.lean ====
section
/-! DEFINITION. The bit-field and byte notation of 00_scope.md section 5 and the shift law R4. `x[hi:lo]` is `x.extractLsb hi lo`,
`x[i]` is `x.getLsbD i`, `zext` is `setWidth`, `rotr_N` is `rotateRight`. -/

namespace Sys2Proof.Machine

/-- A truth value as the 64-bit number 1 or 0. -/
def flagWord (b : Bool) : Word :=
  if b then 1 else 0

/-- `setf(x, hi, lo, v)` (41_bitfield_codec.md R118): `(x & ~M) | ((v << lo) & M)` with `M = (2^(hi-lo+1) - 1) << lo`. -/
def setf (x : Word) (hi lo : Nat) (v : Word) : Word :=
  let m : Word := BitVec.ofNat 64 (2 ^ (hi - lo + 1) - 1) <<< lo
  (x &&& ~~~m) ||| ((v <<< lo) &&& m)

/-- `rep(b, 17)` zero-extended: 17 copies of a bit (00_scope.md section 5), the fill of `undecorate`. -/
def rep17 (b : Bool) : Word :=
  if b then 0x1FFFF else 0

/-- `1 << e` for every integer e: 2^e when 0 <= e <= 63, otherwise 0 (00_scope.md R4). -/
def shl1 (e : Int) : Word :=
  if 0 ≤ e ∧ e ≤ 63 then BitVec.ofNat 64 (2 ^ e.toNat) else 0

/-- Leading zero bits among the low n bits of v, counted from bit n - 1 down. -/
def clzBelow (v : Word) : Nat → Nat
  | 0 => 0
  | n + 1 => if v.getLsbD n then 0 else 1 + clzBelow v n

/-- `clz64(v)`, with `clz64(0) = 64` (00_scope.md section 5). -/
def clz64 (v : Word) : Nat :=
  clzBelow v 64

/-- `perm_N(T, v)[i] = v[T[i]]`, the gather form of a bit-permutation table (00_scope.md R6). -/
def permBits {n : Nat} (t : Fin n → Fin n) (v : BitVec n) : BitVec n :=
  .ofFnLE fun i => v.getLsbD (t i)

/-- `byte_k(v) = v[8k+7:8k]` (00_scope.md section 5). -/
def byteOf (k : Nat) (v : Word) : Byte :=
  v.extractLsb' (8 * k) 8

/-- The eight bytes of a word, lowest offset first: little-endian (00_scope.md R7). -/
def leBytes (v : Word) : List Byte :=
  (List.range 8).map fun k => byteOf k v

/-- `LE64(b0..b7) = b0 | b1<<8 | ... | b7<<56` (00_scope.md section 5, R7). -/
def le64 : List Byte → Word
  | [] => 0
  | b :: bs => b.setWidth 64 ||| (le64 bs <<< 8)

end Sys2Proof.Machine
end

