-- ==== Sys2Proof/Machine/State.lean ====
section
/-! DEFINITION. The state of one engine instance (10_state.md R20), the reasons a step can stop, and the state after reset (R45). -/

namespace Sys2Proof.Machine

/-- A sparse array: (index, value) pairs, indices strictly rising, no value 0; an index not listed holds 0. The reset contents of
DBUF and of the ICV map are 0 everywhere (10_state.md R45). -/
abbrev Cells (w : Nat) := List (Nat × BitVec w)

/-- The data buffer's bytes by offset (10_state.md R43), in the form of `Cells`. -/
abbrev Memory := List Host.Cell

/-- The ICV map: entries by granule index (10_state.md R41), in the form of `Cells`. -/
abbrev IcvMap := Cells 64

/-- The key schedule KS: the 24-bit data round key and six 53-bit tweak round keys (10_state.md R39). -/
structure KeySchedule where
  drk : Block
  trk : Vector TweakWord 6
deriving DecidableEq, Repr

/-- One engine instance: exactly the state of 10_state.md R20, and the two fields of the model's own that stand for the host port. -/
structure State where
  /-- A0 (R21). -/
  a0 : Word
  /-- A1 (R21). -/
  a1 : Word
  /-- A2 (R21). -/
  a2 : Word
  /-- A3, a spare that no command uses (R21, 30_encoding.md R84). -/
  a3 : Word
  /-- R0 (R22). -/
  r0 : Word
  /-- R1 (R22). -/
  r1 : Word
  /-- STATUS[62:0]; bit 63 is the live value of `halted` (R28; log entry 8). -/
  status : BitVec 63
  /-- EVENTS (R29). -/
  events : Word
  /-- FAULT_CAUSE (R30). -/
  faultCause : Word
  /-- FAULT_GADDR (R30). -/
  faultGaddr : Word
  /-- FAULT_PTR (R30). -/
  faultPtr : Word
  /-- HALTED (R36). -/
  halted : Bool
  /-- ICV_CTRL (R31). -/
  icvCtrl : Word
  /-- CTX_FLAGS (R32). -/
  ctxFlags : Word
  /-- CTX_SHADOW (R33). -/
  ctxShadow : Word
  /-- CTX_RSVD (R34). -/
  ctxRsvd : Word
  /-- K_SHARED (R37). -/
  kShared : DataKey
  /-- K_PRIVATE (R37). -/
  kPrivate : DataKey
  /-- K_CODE (R37). -/
  kCode : DataKey
  /-- K_ADDR (R37). -/
  kAddr : AddrKey
  /-- KEY_VALID[0] (R38). -/
  validShared : Bool
  /-- KEY_VALID[1] (R38). -/
  validPrivate : Bool
  /-- KEY_VALID[2] (R38). -/
  validCode : Bool
  /-- KEY_VALID[3] (R38). -/
  validAddr : Bool
  /-- KS (R39; log entry 7). -/
  ks : KeySchedule
  /-- TC_VALID (R40). -/
  tcValid : Bool
  /-- TC_TWEAK (R40). -/
  tcTweak : Tweak
  /-- TC_RTK[0..11] (R40). -/
  tcRtk : Vector Block 12
  /-- The ICV map (R41). -/
  icv : IcvMap
  /-- DBUF (R43). -/
  dbuf : Memory
  /-- The model's own: the host's inputs not yet taken, oldest first (30_encoding.md R96). DESIGN CHOICE, log entry 2. -/
  port : List Input
  /-- The model's own: the value the last HRead returned to the host (20_memory.md R60). DESIGN CHOICE, log entry 3. -/
  hostData : Word
deriving DecidableEq, Repr

/-- Faults that stop the machine: none. "Nothing in the spec is treated as `fault` (the engine has no trap)"
(93_implementation_defined.md section 2). No meaning can raise one (safe; log entry 11). -/
inductive Fault where
deriving DecidableEq, Repr

/-- Why the model has no meaning for a command. -/
inductive Refusal where
  /-- The command of that mnemonic has no meaning in the model yet. Raised by an arm of `exec` alone, and by none when every command
  is modelled; safe. (The spec's own refusals are next states with a completion code in STATUS, 60_exceptions.md R281.) -/
  | notModelled (mnemonic : String)
deriving DecidableEq, Repr

/-- What a step or a command answers. -/
abbrev Answer := Host.Outcome State Fault Refusal

/-- The state after reset (10_state.md R45, 70_reset_and_hazards.md R310). TC_TWEAK and TC_RTK are unspecified there: DESIGN CHOICE 0,
log entry 5. `port` and `hostData` are the model's own (log entries 2 and 3). -/
def State.reset : State where
  a0 := 0
  a1 := 0
  a2 := 0
  a3 := 0
  r0 := 0
  r1 := 0
  status := 0
  events := 0
  faultCause := 0
  faultGaddr := 0
  faultPtr := 0
  halted := false
  icvCtrl := 0
  ctxFlags := 0
  ctxShadow := 0
  ctxRsvd := 0
  kShared := .replicate 16 0
  kPrivate := .replicate 16 0
  kCode := .replicate 16 0
  kAddr := .replicate 32 0
  validShared := false
  validPrivate := false
  validCode := false
  validAddr := false
  ks := { drk := 0, trk := .replicate 6 0 }
  tcValid := false
  tcTweak := 0
  tcRtk := .replicate 12 0
  icv := []
  dbuf := []
  port := []
  hostData := 0

end Sys2Proof.Machine
end

