-- ==== Sys2Proof/Machine/Flags.lean ====
section
/-! DEFINITION. The status, event and control words: completion codes and flags of STATUS (10_state.md R28, 60_exceptions.md R280),
EVENTS (R29), the fields of ICV_CTRL (R31), the flag bits of an ICV entry (R27), and the outputs (60_exceptions.md R288). -/

namespace Sys2Proof.Machine

/-- The completion codes (60_exceptions.md R280). -/
inductive Code where
  | ok
  | errOpcode
  | errReserved
  | errOperand
  | errNokey
  | errHalted
  | errIcvFull
deriving DecidableEq, Repr

/-- STATUS[7:0] (60_exceptions.md R280). -/
def codeBits (c : Code) : BitVec 8 :=
  match c with
  | .ok => 0
  | .errOpcode => 1
  | .errReserved => 2
  | .errOperand => 3
  | .errNokey => 4
  | .errHalted => 5
  | .errIcvFull => 6

/-- STATUS bits 12:8 (10_state.md R28). A command that does not set a flag leaves it out, and it is zero. -/
structure StatusFlags where
  notBoxable : Bool := false
  mismatch : Bool := false
  uninitRead : Bool := false
  mixed : Bool := false
  corrected : Bool := false
deriving DecidableEq, Repr

/-- STATUS[62:0] of a finished command (10_state.md R28): CODE in 7:0, the flags in 12:8, zero above. -/
def statusWord (c : Code) (f : StatusFlags) : BitVec 63 :=
  (BitVec.ofBool f.corrected ++ BitVec.ofBool f.mixed ++ BitVec.ofBool f.uninitRead ++ BitVec.ofBool f.mismatch
    ++ BitVec.ofBool f.notBoxable ++ codeBits c).setWidth 63

/-- STATUS as the host reads it: bit 63 is the live HALTED (10_state.md R28). -/
def statusReg (s : State) : Word :=
  BitVec.ofBool s.halted ++ s.status

/-- The two violation classes (60_exceptions.md R294). -/
inductive Violation where
  /-- IntegrityMismatch, class 1. -/
  | mismatch
  /-- UninitializedRead, class 2. -/
  | uninit
deriving DecidableEq, Repr

/-- The class number, which is also the cause code (60_exceptions.md R294). -/
def violationClass (v : Violation) : Nat :=
  match v with
  | .mismatch => 1
  | .uninit => 2

/-- The four policies (10_state.md R31); `brk` is Break. -/
inductive Policy where
  | ignore
  | warn
  | fault
  | brk
deriving DecidableEq, Repr

/-- A policy from its two bits: 0 Ignore, 1 Warn, 2 Fault, 3 Break (10_state.md R31). -/
def policyOfBits (b : BitVec 2) : Policy :=
  match b.toNat with
  | 0 => .ignore
  | 1 => .warn
  | 2 => .fault
  | _ => .brk

/-- ICV_CTRL.LOCK (10_state.md R31). -/
def lockEnabled (s : State) : Bool :=
  s.icvCtrl.getLsbD 0

/-- ICV_CTRL.CORRECT_ON_FAIL (10_state.md R31). -/
def correctOnFail (s : State) : Bool :=
  s.icvCtrl.getLsbD 1

/-- The policy field of a violation class: MISMATCH_POLICY in bits 3:2, UNINIT_POLICY in bits 5:4 (10_state.md R31). -/
def policyFor (s : State) (v : Violation) : Policy :=
  match v with
  | .mismatch => policyOfBits (s.icvCtrl.extractLsb 3 2)
  | .uninit => policyOfBits (s.icvCtrl.extractLsb 5 4)

/-- INIT_N of an ICV entry: 1 means the granule is uninitialized (10_state.md R27). -/
def entryUninit (e : Word) : Bool :=
  e.getLsbD 1

/-- PREINIT of an ICV entry (10_state.md R27). -/
def entryPreinit (e : Word) : Bool :=
  e.getLsbD 2

/-- EVENTS[k] <- 1 (10_state.md R29). -/
def setEvent (s : State) (k : Nat) : State :=
  { s with events := s.events ||| (1#64 <<< k) }

/-- The output `fault_o` = EVENTS[3] (60_exceptions.md R288). -/
def faultOut (s : State) : Bool :=
  s.events.getLsbD 3

/-- The output `halted_o` = HALTED (60_exceptions.md R288). -/
def haltedOut (s : State) : Bool :=
  s.halted

end Sys2Proof.Machine
end

