-- ==== Sys2Proof/Machine/Ops.lean ====
section
/-! DEFINITION. The named operations over the engine's memories and registers: sparse arrays, DBUF (MemRead, MemWrite), the ICV map
with its capacity, keys, completing and refusing a command, reporting a violation and leaving a fault or a halt. -/

namespace Sys2Proof.Machine

/-! ### Sparse arrays -/

/-- The value at an index: 0 where no cell is listed (10_state.md R41, R45). -/
def cellsRead {w : Nat} (m : Cells w) (a : Nat) : BitVec w :=
  match m with
  | [] => 0
  | c :: rest => if c.1 = a then c.2 else cellsRead rest a

/-- Store a value at an index, keeping the canonical form: a zero removes the cell (47_integrity_map.md R223). -/
def cellsWrite {w : Nat} (m : Cells w) (a : Nat) (v : BitVec w) : Cells w :=
  match m with
  | [] => if v = 0 then [] else [(a, v)]
  | c :: rest =>
    if a < c.1 then (if v = 0 then c :: rest else (a, v) :: c :: rest)
    else if a = c.1 then (if v = 0 then rest else (a, v) :: rest)
    else c :: cellsWrite rest a v

/-- The canonical form above a lower bound: indices at least `lo`, strictly rising and below `n`, no value 0. -/
def cellsWfFrom {w : Nat} (n lo : Nat) : Cells w → Bool
  | [] => true
  | c :: rest => decide (lo ≤ c.1) && decide (c.1 < n) && c.2 != 0 && cellsWfFrom n (c.1 + 1) rest

/-- The canonical form of a sparse array of n cells. -/
def cellsWf {w : Nat} (n : Nat) (m : Cells w) : Bool :=
  cellsWfFrom n 0 m

/-- DBUF is in canonical form: 128 bytes (10_state.md R43). -/
def Memory.wf (m : Memory) : Bool :=
  cellsWf 128 m

/-- The ICV map is in canonical form: 2^61 entries, none of them zero (10_state.md R41). -/
def icvWf (m : IcvMap) : Bool :=
  cellsWf (2 ^ 61) m

/-! ### DBUF -/

/-- `MemRead(off, n)`: n bytes of DBUF, lowest offset first (00_scope.md section 6). -/
def memRead (s : State) (off n : Nat) : List Byte :=
  (List.range n).map fun i => cellsRead s.dbuf (off + i)

/-- Bytes stored from an offset on, lowest offset first. -/
def writeBytes (m : Memory) (off : Nat) : List Byte → Memory
  | [] => m
  | b :: bs => writeBytes (cellsWrite m off b) (off + 1) bs

/-- `MemWrite(off, n, v)`: n bytes of DBUF (00_scope.md section 6). -/
def memWrite (s : State) (off : Nat) (bs : List Byte) : State :=
  { s with dbuf := writeBytes s.dbuf off bs }

/-! ### The ICV map -/

/-- `ICV[i]` (47_integrity_map.md R222). -/
def icvRead (s : State) (i : Nat) : Word :=
  cellsRead s.icv i

/-- `ICV[i] <- v` (47_integrity_map.md R223), without the capacity check. -/
def icvWrite (s : State) (i : Nat) (v : Word) : State :=
  { s with icv := cellsWrite s.icv i v }

/-- ICV_COUNT: the number of non-zero entries (10_state.md R35). -/
def icvCount (s : State) : Word :=
  BitVec.ofNat 64 s.icv.length

/-- The blocks in existence: the distinct `i >> ICV_BLOCK_BITS` of the stored entries (10_state.md R42). -/
def icvBlocks (c : Config) (m : IcvMap) : Nat :=
  ((m.map fun e => e.1 >>> c.icvBlockBits).dedup).length

/-- The occupancy of block b: how many indices of the block have an entry. A block exists exactly when it is above zero
(10_state.md R42). -/
def blockOccupancy (c : Config) (m : IcvMap) (b : Nat) : Nat :=
  m.countP fun e => e.1 >>> c.icvBlockBits == b

/-- The map needs more than ICV_MAX_BLOCKS blocks; never, when unbounded (47_integrity_map.md R223). -/
def icvOverfull (c : Config) (m : IcvMap) : Bool :=
  match c.icvMaxBlocks with
  | none => false
  | some limit => decide (limit < icvBlocks c m)

/-! ### Completing and refusing a command -/

/-- A command completes with CODE OK: R0, R1 and STATUS[62:0] are written (10_state.md R22, R28). -/
def complete (s : State) (r0 r1 : Word) (f : StatusFlags := {}) : State :=
  { s with r0 := r0, r1 := r1, status := statusWord .ok f }

/-- A refused command: STATUS[62:0] is its code and nothing else changes (60_exceptions.md R281). -/
def refuse (s : State) (c : Code) : State :=
  { s with status := statusWord c {} }

/-- The code of a decoder's rejection (30_encoding.md R81 steps 1 to 3). -/
def rejectCode (r : Reject) : Code :=
  match r with
  | .opcode => .errOpcode
  | .reserved => .errReserved

/-- Step 4 of the command order: while HALTED = 1 the command is refused with ERR_HALTED (30_encoding.md R81). -/
def unlessHalted (s : State) (run : State) : State :=
  if s.halted then refuse s .errHalted else run

/-- KEY_VALID[k] (10_state.md R38). -/
def keyValid (s : State) (k : KeySlot) : Bool :=
  match k with
  | .sharedKey => s.validShared
  | .privateKey => s.validPrivate
  | .codeKey => s.validCode
  | .addrKey => s.validAddr

/-- Step 6 of the command order: a command that needs key k is refused with ERR_NOKEY while KEY_VALID[k] = 0 (30_encoding.md R81,
10_state.md R38). -/
def needKey (s : State) (k : KeySlot) (run : State) : State :=
  if keyValid s k then run else refuse s .errNokey

/-- Step 7 of the command order: `t` is what the command would leave behind; if its map has too many blocks the command is refused
with ERR_ICV_FULL before it changes anything (30_encoding.md R81, 47_integrity_map.md R223). -/
def ifIcvFits (c : Config) (s : State) (t : State) : State :=
  if icvOverfull c t.icv then refuse s .errIcvFull else t

/-! ### Keys -/

/-- The data key of slot 0, 1 or 2; slot 3 is no data key (10_state.md R37). -/
def dataKey (s : State) (k : KeySlot) : Option DataKey :=
  match k with
  | .sharedKey => some s.kShared
  | .privateKey => some s.kPrivate
  | .codeKey => some s.kCode
  | .addrKey => none

/-- Sixteen bytes of DBUF from an offset on, as a key. -/
def dataKeyAt (s : State) (off : Nat) : DataKey :=
  .ofFn fun i => cellsRead s.dbuf (off + i)

/-- Thirty-two bytes of DBUF from an offset on, as a key. -/
def addrKeyAt (s : State) (off : Nat) : AddrKey :=
  .ofFn fun i => cellsRead s.dbuf (off + i)

/-! ### Reporting a violation: the engine's exception entry, and leaving it -/

/-- The FAULT registers take a violation only while FAULT_CAUSE = 0 (60_exceptions.md R283, R284). -/
def latchFault (s : State) (v : Violation) (g x : Word) : State :=
  if s.faultCause = 0 then
    { s with faultCause := BitVec.ofNat 64 (violationClass v), faultGaddr := g, faultPtr := x }
  else s

/-- `report(c, g, x)` of 60_exceptions.md R283: violation class, granule byte address, pointer value. The Bool is `break_pending`,
local to the command (R285). -/
def report (s : State) (v : Violation) (g x : Word) : State × Bool :=
  match policyFor s v with
  | .ignore => (s, false)
  | .warn => (setEvent s (violationClass v - 1), false)
  | .fault => (latchFault (setEvent (setEvent s (violationClass v - 1)) 3) v g x, false)
  | .brk => (setEvent (latchFault (setEvent (setEvent s (violationClass v - 1)) 3) v g x) 4, true)

/-- The last act of a command: HALTED <- 1 if `break_pending` was set during it (60_exceptions.md R285). -/
def haltIf (brk : Bool) (s : State) : State :=
  if brk then { s with halted := true } else s

/-- Leaving the halted state (48_context_keys.md R268): HALTED <- 0; EVENTS and the FAULT registers stay. -/
def leaveHalt (s : State) : State :=
  { s with halted := false }

/-- Acknowledging events: a host write of `v` to EVENTS clears every bit written as 1, and with bit 3 also the three FAULT registers
(20_memory.md R61, 60_exceptions.md R287). -/
def ackEvents (s : State) (v : Word) : State :=
  let t := { s with events := s.events &&& ~~~v }
  if v.getLsbD 3 then { t with faultCause := 0, faultGaddr := 0, faultPtr := 0 } else t

end Sys2Proof.Machine
end

