-- ==== Sys2Proof/Machine/Operands.lean ====
section
/-! DEFINITION. The operand forms of the commands (30_encoding.md R84): which bits of which operand register each takes; bits above
the field are ignored (10_state.md R21). -/

namespace Sys2Proof.Machine

/-- `md = A1[15:0]` (30_encoding.md R84, 10_state.md R26). -/
def mdOperand (s : State) : BitVec 16 :=
  s.a1.extractLsb 15 0

/-- `md[5:0]`, size_ (10_state.md R26). -/
def mdSize (md : BitVec 16) : BitVec 6 :=
  md.extractLsb 5 0

/-- `md[14:6]`, version_ (10_state.md R26). -/
def mdVersion (md : BitVec 16) : BitVec 9 :=
  md.extractLsb 14 6

/-- The metadata word `{adjust_, version_, size_}` (10_state.md R26). -/
def packMd (adjust : Bool) (version : BitVec 9) (size : BitVec 6) : BitVec 16 :=
  BitVec.ofBool adjust ++ version ++ size

/-- The 24-bit block or ciphertext `A0[23:0]` (30_encoding.md R84). -/
def blockOperand (s : State) : Block :=
  s.a0.extractLsb 23 0

/-- `tweak[39:0]`, the bits the cipher uses (43_tweak_cipher.md R142). -/
def usedTweak (t : Word) : Tweak :=
  t.extractLsb 39 0

/-- `enc_size = A0[5:0]` of DECODE_SIZE (30_encoding.md R84). -/
def sizeOperand (s : State) : BitVec 6 :=
  s.a0.extractLsb 5 0

/-- The granule index `A0[60:0]` of ICV_SET and ICV_GET (30_encoding.md R84). -/
def indexOperand (s : State) : Nat :=
  (s.a0.extractLsb 60 0).toNat

/-- The granule index of a byte address, `a >> 3` (47_integrity_map.md R220). -/
def granuleIndex (a : Word) : Nat :=
  (a >>> 3).toNat

/-- The byte address of a granule, `i << 3` (47_integrity_map.md R228). -/
def granuleAddress (i : Nat) : Word :=
  BitVec.ofNat 64 i <<< 3

end Sys2Proof.Machine
end

