-- ==== Sys2Proof/Machine/BitFieldCodec.lean ====
section
/-! DEFINITION. The BitFieldCodec (41_bitfield_codec.md): field functions R115 to R117 and the commands R100 to R113. -/

namespace Sys2Proof.Machine

/-- `is_ca(x)`: enc_size is neither 0 nor 63 (10_state.md R25). -/
def isCa (x : Word) : Bool :=
  x.extractLsb 61 56 != 0 && x.extractLsb 61 56 != 63

/-- `decode_size(s) = 1 << (s + MIN_ALLOC_OFFSET - 1)` (41_bitfield_codec.md R115). -/
def sizeBytes (mao : Nat) (s : BitVec 6) : Word :=
  shl1 ((s.toNat : Int) + (mao : Int) - 1)

/-- `adjust(s)`: 1 when s is SPECIAL_SIZE_ENCODING (41_bitfield_codec.md R116). -/
def adjustOf (special : Option (BitVec 6)) (s : BitVec 6) : Bool :=
  special == some s

/-- `is_canonical(x)`: bits 63:48 are all equal; bit 47 is not looked at (41_bitfield_codec.md R117). -/
def isCanonical (x : Word) : Bool :=
  x.extractLsb 63 48 == 0 || x.extractLsb 63 48 == 0xFFFF

/-- What every command of the codec does with its result: R0 <- r, R1 <- 0, CODE OK, no flag (41_bitfield_codec.md R114). -/
def codecResult (s : State) (r : Word) : State :=
  unlessHalted s (complete s r 0)

/-- CA_GET_PLAINTEXT: `R0 <- zext_64(x[31:0])` (41_bitfield_codec.md R100). -/
def execCaGetPlaintext (s : State) : Answer :=
  .next (codecResult s ((s.a0.extractLsb 31 0).setWidth 64))

/-- CA_GET_CIPHERTEXT: `R0 <- zext_64(x[46:32] | (x[55:47] << 15))` (41_bitfield_codec.md R101). -/
def execCaGetCiphertext (s : State) : Answer :=
  .next (codecResult s ((s.a0.extractLsb 46 32).setWidth 64 ||| (s.a0.extractLsb 55 47).setWidth 64 <<< 15))

/-- CA_GET_ENCSIZE: `R0 <- zext_64(x[61:56])` (41_bitfield_codec.md R102). -/
def execCaGetEncsize (s : State) : Answer :=
  .next (codecResult s ((s.a0.extractLsb 61 56).setWidth 64))

/-- CA_GET_ADJUST under a configuration: `R0 <- adjust(x[61:56])` (41_bitfield_codec.md R103). -/
def caGetAdjustUnder (c : Config) (s : State) : State :=
  codecResult s (flagWord (adjustOf c.specialSize (s.a0.extractLsb 61 56)))

/-- CA_GET_ADJUST (41_bitfield_codec.md R103). -/
def execCaGetAdjust (s : State) : Answer :=
  .next (caGetAdjustUnder Config.hw s)

/-- CA_GET_SPRIME: `R0 <- zext_64(x[46])` (41_bitfield_codec.md R104). -/
def execCaGetSprime (s : State) : Answer :=
  .next (codecResult s (flagWord (s.a0.getLsbD 46)))

/-- CA_GET_SBIT: `R0 <- zext_64(x[62])` (41_bitfield_codec.md R105). -/
def execCaGetSbit (s : State) : Answer :=
  .next (codecResult s (flagWord (s.a0.getLsbD 62)))

/-- CA_GET_VERSION: `R0 <- zext_64(x[55:47])` (41_bitfield_codec.md R106). -/
def execCaGetVersion (s : State) : Answer :=
  .next (codecResult s ((s.a0.extractLsb 55 47).setWidth 64))

/-- CA_IS_CANONICAL: `R0 <- is_canonical(x) ? 1 : 0` (41_bitfield_codec.md R107). -/
def execCaIsCanonical (s : State) : Answer :=
  .next (codecResult s (flagWord (isCanonical s.a0)))

/-- CA_IS_CA: `R0 <- is_ca(x) ? 1 : 0` (41_bitfield_codec.md R108). -/
def execCaIsCa (s : State) : Answer :=
  .next (codecResult s (flagWord (isCa s.a0)))

/-- DECODE_SIZE under a configuration: `R0 <- decode_size(A0[5:0])` (41_bitfield_codec.md R109). -/
def decodeSizeUnder (c : Config) (s : State) : State :=
  codecResult s (sizeBytes c.mao (sizeOperand s))

/-- DECODE_SIZE (41_bitfield_codec.md R109). -/
def execDecodeSize (s : State) : Answer :=
  .next (decodeSizeUnder Config.hw s)

/-- CA_SET_PLAINTEXT: `R0 <- setf(x, 31, 0, v)` with v = A1[31:0] (41_bitfield_codec.md R110). -/
def execCaSetPlaintext (s : State) : Answer :=
  .next (codecResult s (setf s.a0 31 0 s.a1))

/-- CA_SET_CIPHERTEXT: `R0 <- setf(x, 55, 32, v)` with v = A1[23:0] (41_bitfield_codec.md R111). -/
def execCaSetCiphertext (s : State) : Answer :=
  .next (codecResult s (setf s.a0 55 32 s.a1))

/-- CA_SET_ENCSIZE: `R0 <- setf(x, 61, 56, v)` with v = A1[5:0] (41_bitfield_codec.md R112). -/
def execCaSetEncsize (s : State) : Answer :=
  .next (codecResult s (setf s.a0 61 56 s.a1))

/-- CA_SET_VERSION: `R0 <- setf(x, 55, 47, v)` with v = A1[8:0] (41_bitfield_codec.md R113). -/
def execCaSetVersion (s : State) : Answer :=
  .next (codecResult s (setf s.a0 55 47 s.a1))

end Sys2Proof.Machine
end

