-- ==== Sys2Proof/Machine/TweakCipher.lean ====
section
/-! DEFINITION. The TweakCipher (43_tweak_cipher.md): key schedule, tweak schedule, round functions, Enc and Dec over the OPEN tables,
the tweak-schedule cache, and the commands TBC_ENC and TBC_DEC. -/

namespace Sys2Proof.Machine

/-! ### Key schedule -/

/-- `KBIT(K, p) = K[p div 8][p mod 8]` for p in 0..255 (43_tweak_cipher.md R140). -/
def keyBit (key : AddrKey) (p : Nat) : Bool :=
  (key.get (Fin.ofNat 32 (p / 8))).getLsbD (p % 8)

/-- The position of selection n: it starts at KS_POS0 = 1 and goes on by `(p * 3) mod 256` (43_tweak_cipher.md R141). -/
def ksPos : Nat → Nat
  | 0 => 1
  | n + 1 => ksPos n * 3 % 256

/-- `sel[n]`, the key bit at position n (43_tweak_cipher.md R141). -/
def ksSel (key : AddrKey) (n : Nat) : Bool :=
  keyBit key (ksPos n)

/-- `KeySched(K)`: selections 0 to 23 give DRK, the next 6 x 53 give TRK[0] to TRK[5] (43_tweak_cipher.md R141). -/
def keySched (key : AddrKey) : KeySchedule where
  drk := .ofFnLE fun j => ksSel key j.val
  trk := .ofFn fun i => .ofFnLE fun j => ksSel key (24 + 53 * i.val + j.val)

/-! ### Tweak schedule -/

/-- `PT53(tweak) = zext_53({tweak[39:0], 0b1})` (43_tweak_cipher.md R142). -/
def pt53 (t : Tweak) : TweakWord :=
  (t ++ 1#1).setWidth 53

/-- `CHI53(x) = x ^ (~rotr_53(x, 1) & rotr_53(x, 2))` (43_tweak_cipher.md R143). -/
def chi53 (x : TweakWord) : TweakWord :=
  x ^^^ (~~~(x.rotateRight 1) &&& x.rotateRight 2)

/-- `G(x) = MIX_G(perm_53(PT_G, x))` (43_tweak_cipher.md R144). -/
def gRound (c : TbcParams) (x : TweakWord) : TweakWord :=
  c.mixG (permBits c.ptG.fwd x)

/-- `Gp(x) = MIX_GP(perm_53(PT_GP, x))` (43_tweak_cipher.md R144). -/
def gpRound (c : TbcParams) (x : TweakWord) : TweakWord :=
  c.mixGp (permBits c.ptGp.fwd x)

/-- `EVEN24(s)[j] = s[2j]` (43_tweak_cipher.md R145). -/
def even24 (s : TweakWord) : Block :=
  .ofFnLE fun j => s.getLsbD (2 * j.val)

/-- `ODD24(s)[j] = s[2j + 1]` (43_tweak_cipher.md R145). -/
def odd24 (s : TweakWord) : Block :=
  .ofFnLE fun j => s.getLsbD (2 * j.val + 1)

/-- Stage i of the tweak schedule: XOR the tweak round key, CHI, G, and G' where the stage has two rounds (43_tweak_cipher.md R146,
R147). -/
def twkStage (c : TbcParams) (i : Fin 6) (k s : TweakWord) : TweakWord :=
  let g := gRound c (chi53 (s ^^^ k))
  if c.stageRounds i = 2 then gpRound c g else g

/-- The state `s` of the tweak schedule before stage n (43_tweak_cipher.md R147). -/
def twkState (c : TbcParams) (trk : Vector TweakWord 6) (t : Tweak) : Nat → TweakWord
  | 0 => pt53 t
  | n + 1 => twkStage c (Fin.ofNat 6 n) (trk.get (Fin.ofNat 6 n)) (twkState c trk t n)

/-- `TwkSched(KS, tweak)`: `RTK[2i]` and `RTK[2i + 1]` are the even and odd halves of the state after stage i
(43_tweak_cipher.md R147). -/
def twkSched (c : TbcParams) (trk : Vector TweakWord 6) (t : Tweak) : Vector Block 12 :=
  .ofFn fun r =>
    let s := twkState c trk t (r.val / 2 + 1)
    if r.val % 2 = 0 then even24 s else odd24 s

/-! ### The data path -/

/-- A 64-entry table on each of the four 6-bit nibbles of a block; nibble k is bits 6k+5:6k (43_tweak_cipher.md R148). -/
def nibbles (f : BitVec 6 → BitVec 6) (x : Block) : Block :=
  f (x.extractLsb 23 18) ++ f (x.extractLsb 17 12) ++ f (x.extractLsb 11 6) ++ f (x.extractLsb 5 0)

/-- `LML(x) = x ^ rotr_24(x, 2) ^ rotr_24(x, 12)` (43_tweak_cipher.md R150). -/
def lml (x : Block) : Block :=
  x ^^^ x.rotateRight 2 ^^^ x.rotateRight 12

/-- `LMLinv(y) = rotr_24(y, 8) ^ rotr_24(y, 20) ^ rotr_24(y, 22)` (43_tweak_cipher.md R150). -/
def lmlInv (y : Block) : Block :=
  y.rotateRight 8 ^^^ y.rotateRight 20 ^^^ y.rotateRight 22

/-- Rounds 0, 1, 2 and 9, 10, 11 are simple, 3 to 8 are core rounds (43_tweak_cipher.md R151). -/
def simpleRound (r : Fin 12) : Bool :=
  decide (r.val < 3) || decide (9 ≤ r.val)

/-- `RND_r`, the forward round functions of decryption (43_tweak_cipher.md R152). -/
def rnd (c : TbcParams) (r : Fin 12) (x : Block) : Block :=
  if simpleRound r then permBits c.p3.fwd (nibbles c.sbox x)
  else permBits c.p2.fwd (lml (permBits c.p1.fwd (nibbles c.sbox x)))

/-- `RNDinv_r`, the inverse round functions of encryption (43_tweak_cipher.md R153). -/
def rndInv (c : TbcParams) (r : Fin 12) (y : Block) : Block :=
  if simpleRound r then nibbles c.sboxInv (permBits c.p3.inv y)
  else nibbles c.sboxInv (permBits c.p1.inv (lmlInv (permBits c.p2.inv y)))

/-- The rounds of Dec with given sub-tweaks: `x = c ^ DRK`, then rounds 0 to 11 (43_tweak_cipher.md R154). -/
def decWith (c : TbcParams) (drk : Block) (rtk : Vector Block 12) (ct : Block) : Block :=
  (List.finRange 12).foldl (fun x r => rnd c r (x ^^^ rtk.get r)) (ct ^^^ drk)

/-- The rounds of Enc with given sub-tweaks: rounds 11 to 0 by inverse round functions, then `^ DRK` (43_tweak_cipher.md R155). -/
def encWith (c : TbcParams) (drk : Block) (rtk : Vector Block 12) (b : Block) : Block :=
  (List.finRange 12).reverse.foldl (fun x r => rndInv c r x ^^^ rtk.get r) b ^^^ drk

/-- `Dec(KS, c, tweak)` (43_tweak_cipher.md R154). -/
def tbcDec (c : TbcParams) (ks : KeySchedule) (ct : Block) (t : Word) : Block :=
  decWith c ks.drk (twkSched c ks.trk (usedTweak t)) ct

/-- `Enc(KS, b, tweak)` (43_tweak_cipher.md R155). -/
def tbcEnc (c : TbcParams) (ks : KeySchedule) (b : Block) (t : Word) : Block :=
  encWith c ks.drk (twkSched c ks.trk (usedTweak t)) b

/-! ### The tweak-schedule cache -/

/-- The cache after the sub-tweaks of T were asked for: kept if it holds T, else refilled (43_tweak_cipher.md R157). -/
def fillCache (c : TbcParams) (s : State) (t : Tweak) : State :=
  if s.tcValid = true ∧ s.tcTweak = t then s
  else { s with tcValid := true, tcTweak := t, tcRtk := twkSched c s.ks.trk t }

/-- Enc as a command evaluates it, with the sub-tweaks of the cache (43_tweak_cipher.md R155, R157). -/
def encCached (c : TbcParams) (s : State) (b : Block) (t : Word) : State × Block :=
  let s' := fillCache c s (usedTweak t)
  (s', encWith c s'.ks.drk s'.tcRtk b)

/-- Dec as a command evaluates it, with the sub-tweaks of the cache (43_tweak_cipher.md R154, R157). -/
def decCached (c : TbcParams) (s : State) (ct : Block) (t : Word) : State × Block :=
  let s' := fillCache c s (usedTweak t)
  (s', decWith c s'.ks.drk s'.tcRtk ct)

/-! ### Commands -/

/-- TBC_ENC under a configuration (43_tweak_cipher.md R160). -/
def tbcEncUnder (c : Config) (s : State) : State :=
  unlessHalted s <| needKey s .addrKey <|
    let (s', b) := encCached c.tbc s (blockOperand s) s.a1
    complete s' (b.setWidth 64) 0

/-- TBC_ENC (43_tweak_cipher.md R160). -/
def execTbcEnc (s : State) : Answer :=
  .next (tbcEncUnder Config.hw s)

/-- TBC_DEC under a configuration (43_tweak_cipher.md R161). -/
def tbcDecUnder (c : Config) (s : State) : State :=
  unlessHalted s <| needKey s .addrKey <|
    let (s', b) := decCached c.tbc s (blockOperand s) s.a1
    complete s' (b.setWidth 64) 0

/-- TBC_DEC (43_tweak_cipher.md R161). -/
def execTbcDec (s : State) : Answer :=
  .next (tbcDecUnder Config.hw s)

end Sys2Proof.Machine
end

