-- ==== Sys2Proof/Machine/Context.lean ====
section
/-! DEFINITION. Keys, the context record and the system commands: NOP (30_encoding.md R86), KEY_SET, CTX_SAVE, CTX_LOAD and RESUME
(48_context_keys.md). -/

namespace Sys2Proof.Machine

/-- NOP: R0 <- 0, R1 <- 0, CODE OK, nothing else (30_encoding.md R86). -/
def execNop (s : State) : Answer :=
  .next (unlessHalted s (complete s 0 0))

/-- K_ADDR is written: KS is re-derived and the tweak cache invalidated in the same step (48_context_keys.md R261). -/
def loadAddrKey (s : State) (key : AddrKey) : State :=
  { s with kAddr := key, validAddr := true, ks := keySched key, tcValid := false }

/-- A key slot takes its bytes from DBUF[0..15], slot 3 from DBUF[0..31], and becomes valid (48_context_keys.md R260). -/
def loadKeySlot (s : State) (k : KeySlot) : State :=
  match k with
  | .sharedKey => { s with kShared := dataKeyAt s 0, validShared := true }
  | .privateKey => { s with kPrivate := dataKeyAt s 0, validPrivate := true }
  | .codeKey => { s with kCode := dataKeyAt s 0, validCode := true }
  | .addrKey => loadAddrKey s (addrKeyAt s 0)

/-- KEY_SET (48_context_keys.md R260). -/
def execKeySet (k : KeySlot) (s : State) : Answer :=
  .next (unlessHalted s (complete (loadKeySlot s k) 0 0))

/-- The 104-byte context record, lowest offset first (48_context_keys.md R264). -/
def contextRecord (s : State) : List Byte :=
  leBytes s.ctxFlags ++ leBytes s.ctxShadow ++ leBytes s.ctxRsvd
    ++ s.kShared.toList ++ s.kPrivate.toList ++ s.kCode.toList ++ s.kAddr.toList

/-- CTX_SAVE: DBUF[0..103] <- the record (48_context_keys.md R266). -/
def execCtxSave (s : State) : Answer :=
  .next (unlessHalted s (complete (memWrite s 0 (contextRecord s)) 0 0))

/-- The context words and all four keys from the record in DBUF[0..103]; all four keys become valid (48_context_keys.md R264, R267). -/
def loadRecord (s : State) : State :=
  loadAddrKey
    { s with
      ctxFlags := le64 (memRead s 0 8), ctxShadow := le64 (memRead s 8 8), ctxRsvd := le64 (memRead s 16 8)
      kShared := dataKeyAt s 24, kPrivate := dataKeyAt s 40, kCode := dataKeyAt s 56
      validShared := true, validPrivate := true, validCode := true }
    (addrKeyAt s 72)

/-- CTX_LOAD (48_context_keys.md R267). -/
def execCtxLoad (s : State) : Answer :=
  .next (unlessHalted s (complete (loadRecord s) 0 0))

/-- RESUME: HALTED <- 0; the only command accepted while HALTED = 1 (48_context_keys.md R268). -/
def execResume (s : State) : Answer :=
  .next (complete (leaveHalt s) 0 0)

end Sys2Proof.Machine
end

