-- ==== Sys2Proof/Machine/StreamPrf.lean ====
section
/-! DEFINITION. The StreamPRF (44_stream_prf.md): one round R170 to R175, the 12-round permutation R177, the function `stream` R178
over the OPEN constants, and the command PRF_STREAM (R180). -/

namespace Sys2Proof.Machine

/-- The five 64-bit lanes x0 to x4 of the permutation. They exist only inside one evaluation (44_stream_prf.md). -/
abbrev Lanes := Vector Word 5

/-- `x_i <- x_i ^ v`. -/
def xorLane (x : Lanes) (i : Fin 5) (v : Word) : Lanes :=
  x.set i (x.get i ^^^ v)

/-- The mixing list in list order: `x_d <- x_d ^ x_s`, each step seeing the result of the steps before it (44_stream_prf.md R172,
R174). -/
def mixLanes (pairs : List (Fin 5 × Fin 5)) (x : Lanes) : Lanes :=
  pairs.foldl (fun y p => xorLane y p.1 (y.get p.2)) x

/-- The non-linear layer `t_i = x_i ^ (~x_(i+1) & x_(i+2))`, indices modulo 5 (44_stream_prf.md R173). -/
def chiLanes (x : Lanes) : Lanes :=
  .ofFn fun i => x.get i ^^^ (~~~(x.get (i + 1)) &&& x.get (i + 2))

/-- `x_i <- x_i ^ rotr_64(x_i ^ rotr_64(x_i, c1), c2)` with `(c1, c2) = PRF_ROT[i]` (44_stream_prf.md R175). -/
def diffuseLanes (c : PrfParams) (x : Lanes) : Lanes :=
  .ofFn fun i =>
    let v := x.get i
    v ^^^ (v ^^^ v.rotateRight (c.rot i).1.val).rotateRight (c.rot i).2.val

/-- Round r: constant into lane 2, pre-mix, non-linear layer, post-mix, diffusion, complement of lane 2 (44_stream_prf.md R170 to
R175). -/
def prfRound (c : PrfParams) (r : Fin 12) (x : Lanes) : Lanes :=
  let y := diffuseLanes c (mixLanes c.postmix (chiLanes (mixLanes c.premix (xorLane x 2 (c.rc r)))))
  y.set 2 (~~~(y.get 2))

/-- `P12(S)`: rounds 0 to 11 (44_stream_prf.md R177). -/
def p12 (c : PrfParams) (x : Lanes) : Lanes :=
  (List.finRange 12).foldl (fun y r => prfRound c r y) x

/-- `KL = LE64(K[0..7])`, the key half of lane 1 (44_stream_prf.md R176). -/
def keyLow (key : DataKey) : Word :=
  le64 (key.toList.take 8)

/-- `KH = LE64(K[8..15])`, the key half of lane 2 (44_stream_prf.md R176). -/
def keyHigh (key : DataKey) : Word :=
  le64 (key.toList.drop 8)

/-- `stream(input, K)` (44_stream_prf.md R178). -/
def stream (c : PrfParams) (input : Word) (key : DataKey) : Word :=
  let s := p12 c #v[c.iv, keyLow key, keyHigh key, 0, 0]
  (p12 c (xorLane (xorLane (xorLane s 0 input) 1 c.pad) 4 c.dsep)).get 0

/-- PRF_STREAM under a configuration: KSEL = 3 is refused with ERR_OPERAND before the key check (44_stream_prf.md R180). -/
def prfStreamUnder (c : Config) (k : KeySlot) (s : State) : State :=
  unlessHalted s <|
    match dataKey s k with
    | none => refuse s .errOperand
    | some key => needKey s k (complete s (stream c.prf s.a0 key) 0)

/-- PRF_STREAM (44_stream_prf.md R180). -/
def execPrfStream (k : KeySlot) (s : State) : Answer :=
  .next (prfStreamUnder Config.hw k s)

end Sys2Proof.Machine
end

