-- ==== Sys2Proof/Machine/DataCipher.lean ====
section
/-! DEFINITION. The DataCipher (46_data_cipher.md): one byte R211, a byte sequence R210, and the command DATA_MASK (R212). -/

namespace Sys2Proof.Machine

/-- The keystream byte of byte address `ba`: `byte_(ba & 7)` of `stream(ba & ~7, K)` (46_data_cipher.md R211). -/
def keystreamByte (c : PrfParams) (key : DataKey) (ba : Word) : Byte :=
  byteOf (ba &&& 7).toNat (stream c (ba &&& 0xFFFFFFFFFFFFFFF8) key)

/-- `mask(address, K, buf)`: byte i is XORed with the keystream byte of `(address + i) mod 2^64` (46_data_cipher.md R210, R211). -/
def maskBytes (c : PrfParams) (key : DataKey) (address : Word) : List Byte → List Byte
  | [] => []
  | b :: bs => (b ^^^ keystreamByte c key address) :: maskBytes c key (address + 1) bs

/-- DATA_MASK under a configuration: the operand check (KSEL = 3, or len above 128) comes before the key check
(46_data_cipher.md R212). -/
def dataMaskUnder (c : Config) (k : KeySlot) (s : State) : State :=
  unlessHalted s <|
    match dataKey s k with
    | none => refuse s .errOperand
    | some key =>
      if 128 < s.a1.toNat then refuse s .errOperand
      else needKey s k <|
        complete (memWrite s 0 (maskBytes c.prf key s.a0 (memRead s 0 s.a1.toNat))) s.a1 0

/-- DATA_MASK (46_data_cipher.md R212). -/
def execDataMask (k : KeySlot) (s : State) : Answer :=
  .next (dataMaskUnder Config.hw k s)

end Sys2Proof.Machine
end

