-- ==== Sys2Proof/Machine/IntegrityMap.lean ====
section
/-! DEFINITION. The IntegrityMap (47_integrity_map.md): fingerprint, match, refresh and the granule step R224 to R228, the
single-granule commands R230 to R236, and the multi-granule access R240 to R243. -/

namespace Sys2Proof.Machine

/-- `ADDR_MASK` (47_integrity_map.md R225). -/
def addrMask : Word :=
  0xFFFFFFFFFFFFFFF8

/-- The invalidation sentinel (10_state.md R27, 47_integrity_map.md R233). -/
def sentinel : Word :=
  0xFFFFFFFFFFFFFFFF

/-- Granule i is Absent: it has no entry; otherwise it is Set (47_integrity_map.md R221). -/
def granuleAbsent (s : State) (i : Nat) : Bool :=
  icvRead s i == 0

/-- `FP(x) = is_ca(x) ? (x & ADDR_MASK) : 0` (47_integrity_map.md R224). -/
def fingerprint (x : Word) : Word :=
  if isCa x then x &&& addrMask else 0

/-- A pointer matches an entry when `FP(x) = old & ADDR_MASK` (47_integrity_map.md R226). -/
def ptrMatches (x old : Word) : Bool :=
  fingerprint x == old &&& addrMask

/-- `refresh(old, x, kind)`: the fingerprint with the old flag bits, a write under PREINIT clearing INIT_N (47_integrity_map.md R227). -/
def refresh (old x : Word) (kind : AccessKind) : Word :=
  let fl : Word := (old.extractLsb 2 0).setWidth 64
  let fl' := if kind = .write ∧ entryPreinit old = true then fl &&& 0b101 else fl
  fingerprint x ||| fl'

/-- What one granule step leaves: the state, `break_pending`, and the outcome bits. -/
structure GranuleOutcome where
  st : State
  brk : Bool
  mismatch : Bool
  uninit : Bool
deriving DecidableEq, Repr

/-- One granule step (47_integrity_map.md R228): with the lock disabled an unconditional set; with the lock enabled the checks, the
mismatch reported before the uninitialized read, then the refresh of a write access. -/
def granuleStep (s : State) (i : Nat) (x : Word) (kind : AccessKind) : GranuleOutcome :=
  let old := icvRead s i
  if lockEnabled s = false then
    { st := icvWrite s i (refresh old x kind), brk := false, mismatch := false, uninit := false }
  else
    let m := !ptrMatches x old
    let u := decide (kind = .read) && entryUninit old
    let r1 := if m then report s .mismatch (granuleAddress i) x else (s, false)
    let r2 := if u then report r1.1 .uninit (granuleAddress i) x else (r1.1, false)
    let st := if kind = .write then icvWrite r2.1 i (refresh old x kind) else r2.1
    { st := st, brk := r1.2 || r2.2, mismatch := m, uninit := u }

/-! ### Single-granule commands -/

/-- A command that only stores one entry: R0 and R1 are 0; the lock is not consulted (47_integrity_map.md R230, R233 to R235). -/
def storeEntry (c : Config) (s : State) (i : Nat) (v : Word) : State :=
  unlessHalted s (ifIcvFits c s (complete (icvWrite s i v) 0 0))

/-- ICV_SET under a configuration: `ICV[x[0][60:0]] <- x[1]` (47_integrity_map.md R230). -/
def icvSetUnder (c : Config) (s : State) : State :=
  storeEntry c s (indexOperand s) s.a1

/-- ICV_SET (47_integrity_map.md R230). -/
def execIcvSet (s : State) : Answer :=
  .next (icvSetUnder Config.hw s)

/-- ICV_GET: `R0 <- ICV[x[0][60:0]]` (47_integrity_map.md R231). -/
def execIcvGet (s : State) : Answer :=
  .next (unlessHalted s (complete s (icvRead s (indexOperand s)) 0))

/-- ICV_CHECK_OR_SET under a configuration (47_integrity_map.md R232). -/
def icvCheckOrSetUnder (c : Config) (kind : AccessKind) (s : State) : State :=
  unlessHalted s <|
    let i := granuleIndex s.a0
    let g := granuleStep s i s.a1 kind
    let r0 := (BitVec.ofBool g.uninit ++ BitVec.ofBool g.mismatch).setWidth 64
    let done := complete g.st r0 (icvRead s i) { mismatch := g.mismatch, uninitRead := g.uninit }
    ifIcvFits c s (haltIf g.brk done)

/-- ICV_CHECK_OR_SET (47_integrity_map.md R232). -/
def execIcvCheckOrSet (kind : AccessKind) (s : State) : Answer :=
  .next (icvCheckOrSetUnder Config.hw kind s)

/-- ICV_INIT under a configuration: `ICV[x[0] >> 3] <- FP(x[1])` (47_integrity_map.md R234). -/
def icvInitUnder (c : Config) (s : State) : State :=
  storeEntry c s (granuleIndex s.a0) (fingerprint s.a1)

/-- ICV_INIT (47_integrity_map.md R234). -/
def execIcvInit (s : State) : Answer :=
  .next (icvInitUnder Config.hw s)

/-- ICV_PREINIT under a configuration: `ICV[x[0] >> 3] <- FP(x[1]) | 0b110` (47_integrity_map.md R235). -/
def icvPreinitUnder (c : Config) (s : State) : State :=
  storeEntry c s (granuleIndex s.a0) (fingerprint s.a1 ||| 0b110)

/-- ICV_PREINIT (47_integrity_map.md R235). -/
def execIcvPreinit (s : State) : Answer :=
  .next (icvPreinitUnder Config.hw s)

/-- ICV_INVALIDATE under a configuration: the granule gets the all-ones sentinel (47_integrity_map.md R233). -/
def icvInvalidateUnder (c : Config) (s : State) : State :=
  storeEntry c s (granuleIndex s.a0) sentinel

/-- ICV_INVALIDATE (47_integrity_map.md R233). -/
def execIcvInvalidate (s : State) : Answer :=
  .next (icvInvalidateUnder Config.hw s)

/-- ICV_CORRECT: on a mismatch with CORRECT_ON_FAIL the entry's address bits replace the pointer's; nothing is reported and the map is
not changed (47_integrity_map.md R236). -/
def execIcvCorrect (s : State) : Answer :=
  .next <| unlessHalted s <|
    let old := icvRead s (granuleIndex s.a1)
    let m := !ptrMatches s.a0 old
    let fix := m && correctOnFail s
    let r0 := if fix then (old &&& addrMask) ||| (s.a0 &&& 0x7) else s.a0
    complete s r0 old { mismatch := m, corrected := fix }

/-! ### Multi-granule access -/

/-- The operand check of ICV_ACCESS: len above 128, or a non-empty range that runs past 2^64 - 1 (47_integrity_map.md R240). -/
def accessRefused (la len : Word) : Bool :=
  decide (128 < len.toNat) || (decide (0 < len.toNat) && decide (2 ^ 64 ≤ la.toNat + (len.toNat - 1)))

/-- The number n of granules of an access; none when len = 0 (47_integrity_map.md R240, R241). -/
def granuleCount (la len : Word) : Nat :=
  if len = 0 then 0 else granuleIndex (la + len - 1) - granuleIndex la + 1

/-- What the granules of an access leave, taken in ascending order: the state, `break_pending`, and the outcome bits
(mismatch, uninit) of each, lowest first. -/
structure AccessOutcome where
  st : State
  brk : Bool
  bits : List (Bool × Bool)
deriving DecidableEq, Repr

/-- Granules i, i + 1, ... (n of them) checked against the pointers p, p + 8, ... (47_integrity_map.md R241, R242). Every granule is
processed, also after a violation (60_exceptions.md R285). -/
def granuleSteps (s : State) (i : Nat) (p : Word) (kind : AccessKind) : Nat → AccessOutcome
  | 0 => { st := s, brk := false, bits := [] }
  | n + 1 =>
    let g := granuleStep s i p kind
    let rest := granuleSteps g.st (i + 1) (p + 8) kind n
    { st := rest.st, brk := g.brk || rest.brk, bits := (g.mismatch, g.uninit) :: rest.bits }

/-- Bit k of the bitmap is element k of the list (47_integrity_map.md R242). -/
def bitmap : List Bool → Word
  | [] => 0
  | b :: bs => flagWord b ||| (bitmap bs <<< 1)

/-- Mixed outcome: the lock is enabled, there are at least two granules, and their mismatch bits are not all equal
(47_integrity_map.md R243). -/
def mixedOutcome (lock : Bool) (ms : List Bool) : Bool :=
  lock && decide (2 ≤ ms.length) && ms.any id && ms.any not

/-- ICV_ACCESS under a configuration (47_integrity_map.md R240 to R243). -/
def icvAccessUnder (c : Config) (kind : AccessKind) (s : State) : State :=
  unlessHalted s <|
    if accessRefused s.a0 s.a2 then refuse s .errOperand
    else
      let a := granuleSteps s (granuleIndex s.a0) s.a1 kind (granuleCount s.a0 s.a2)
      let ms := a.bits.map Prod.fst
      let us := a.bits.map Prod.snd
      let mixed := mixedOutcome (lockEnabled s) ms
      let st := if mixed then setEvent a.st 2 else a.st
      let done := complete st (bitmap ms) (bitmap us)
        { mismatch := ms.any id, uninitRead := us.any id, mixed := mixed }
      ifIcvFits c s (haltIf a.brk done)

/-- ICV_ACCESS (47_integrity_map.md R242). -/
def execIcvAccess (kind : AccessKind) (s : State) : Answer :=
  .next (icvAccessUnder Config.hw kind s)

end Sys2Proof.Machine
end

