-- ==== Sys2Proof/Machine/PointerCodec.lean ====
section
/-! DEFINITION. The PointerCodec (45_pointer_codec.md): the functions R191 to R198 and the commands R200 to R206. Enc and Dec run
through the tweak-schedule cache when a command evaluates them (43_tweak_cipher.md R157). -/

namespace Sys2Proof.Machine

/-- `decorate(address, md)`: enc_size <- size_, version <- version_ (45_pointer_codec.md R191). -/
def decorate (address : Word) (md : BitVec 16) : Word :=
  setf (setf address 61 56 ((mdSize md).setWidth 64)) 55 47 ((mdVersion md).setWidth 64)

/-- `fixed_mask32(s) = ~(decode_size(s) - 1) & 0xFFFF_FFFF` (45_pointer_codec.md R192). -/
def fixedMask32 (mao : Nat) (z : BitVec 6) : Word :=
  ~~~(sizeBytes mao z - 1) &&& 0xFFFFFFFF

/-- `ptr_tweak(x, s) = zext_64(x[31:0] & fixed_mask32(s)) | (zext_64(s) << 32)` (45_pointer_codec.md R192). -/
def ptrTweak (mao : Nat) (x : Word) (z : BitVec 6) : Word :=
  ((x.extractLsb 31 0).setWidth 64 &&& fixedMask32 mao z) ||| (z.setWidth 64 <<< 32)

/-- The 24-bit ciphertext field `x[55:32]` of a pointer value (10_state.md R24). -/
def ctField (x : Word) : Block :=
  x.extractLsb 55 32

/-- A pointer value with its ciphertext field replaced (45_pointer_codec.md R193, R195). -/
def withCtField (x : Word) (b : Block) : Word :=
  setf x 55 32 (b.setWidth 64)

/-- `encrypt_ptr(x, md)`, as a function of the key schedule (45_pointer_codec.md R193). -/
def encryptPtr (c : Config) (ks : KeySchedule) (x : Word) (md : BitVec 16) : Word :=
  withCtField x (tbcEnc c.tbc ks (ctField x) (ptrTweak c.mao x (mdSize md)))

/-- `decrypt_ptr(x)`, as a function of the key schedule; the size is the value's own enc_size (45_pointer_codec.md R195). -/
def decryptPtr (c : Config) (ks : KeySchedule) (x : Word) : Word :=
  withCtField x (tbcDec c.tbc ks (ctField x) (ptrTweak c.mao x (x.extractLsb 61 56)))

/-- `undecorate(x)`: bits 63:47 <- 17 copies of bit 46 (45_pointer_codec.md R194). -/
def undecorate (x : Word) : Word :=
  setf x 63 47 (rep17 (x.getLsbD 46))

/-- `encode_pointer(address, md)` (45_pointer_codec.md R197). -/
def encodePointer (c : Config) (ks : KeySchedule) (address : Word) (md : BitVec 16) : Word :=
  encryptPtr c ks (decorate address md) md

/-- `decode_pointer(ca)` (45_pointer_codec.md R196). -/
def decodePointer (c : Config) (ks : KeySchedule) (ca : Word) : Word :=
  undecorate (decryptPtr c ks ca)

/-- `decode_pointer_if_encoded(x)` (45_pointer_codec.md R198). -/
def decodePointerIfEncoded (c : Config) (ks : KeySchedule) (x : Word) : Word :=
  if isCa x then decodePointer c ks x else x

/-- `encrypt_ptr` as a command evaluates it, through the cache (45_pointer_codec.md R193, 43_tweak_cipher.md R157). -/
def encryptPtrCached (c : Config) (s : State) (x : Word) (md : BitVec 16) : State × Word :=
  let (s', b) := encCached c.tbc s (ctField x) (ptrTweak c.mao x (mdSize md))
  (s', withCtField x b)

/-- `decrypt_ptr` as a command evaluates it, through the cache (45_pointer_codec.md R195, 43_tweak_cipher.md R157). -/
def decryptPtrCached (c : Config) (s : State) (x : Word) : State × Word :=
  let (s', b) := decCached c.tbc s (ctField x) (ptrTweak c.mao x (x.extractLsb 61 56))
  (s', withCtField x b)

/-- PTR_DECORATE: `R0 <- decorate(x[0], x[1][15:0])`; it needs no key (45_pointer_codec.md R200). -/
def execPtrDecorate (s : State) : Answer :=
  .next (unlessHalted s (complete s (decorate s.a0 (mdOperand s)) 0))

/-- PTR_ENCRYPT under a configuration (45_pointer_codec.md R201). -/
def ptrEncryptUnder (c : Config) (s : State) : State :=
  unlessHalted s <| needKey s .addrKey <|
    let (s', x) := encryptPtrCached c s s.a0 (mdOperand s)
    complete s' x 0

/-- PTR_ENCRYPT (45_pointer_codec.md R201). -/
def execPtrEncrypt (s : State) : Answer :=
  .next (ptrEncryptUnder Config.hw s)

/-- PTR_DECRYPT under a configuration (45_pointer_codec.md R202). -/
def ptrDecryptUnder (c : Config) (s : State) : State :=
  unlessHalted s <| needKey s .addrKey <|
    let (s', x) := decryptPtrCached c s s.a0
    complete s' x 0

/-- PTR_DECRYPT (45_pointer_codec.md R202). -/
def execPtrDecrypt (s : State) : Answer :=
  .next (ptrDecryptUnder Config.hw s)

/-- PTR_UNDECORATE: `R0 <- undecorate(x[0])`; it needs no key (45_pointer_codec.md R203). -/
def execPtrUndecorate (s : State) : Answer :=
  .next (unlessHalted s (complete s (undecorate s.a0) 0))

/-- PTR_ENCODE under a configuration (45_pointer_codec.md R204). -/
def ptrEncodeUnder (c : Config) (s : State) : State :=
  unlessHalted s <| needKey s .addrKey <|
    let (s', x) := encryptPtrCached c s (decorate s.a0 (mdOperand s)) (mdOperand s)
    complete s' x 0

/-- PTR_ENCODE (45_pointer_codec.md R204). -/
def execPtrEncode (s : State) : Answer :=
  .next (ptrEncodeUnder Config.hw s)

/-- PTR_DECODE under a configuration (45_pointer_codec.md R205). -/
def ptrDecodeUnder (c : Config) (s : State) : State :=
  unlessHalted s <| needKey s .addrKey <|
    let (s', x) := decryptPtrCached c s s.a0
    complete s' (undecorate x) 0

/-- PTR_DECODE (45_pointer_codec.md R205). -/
def execPtrDecode (s : State) : Answer :=
  .next (ptrDecodeUnder Config.hw s)

/-- PTR_DECODE_IF under a configuration: a plain address needs no key and comes back unchanged, R1 = is_ca(x)
(45_pointer_codec.md R206). -/
def ptrDecodeIfUnder (c : Config) (s : State) : State :=
  unlessHalted s <|
    if isCa s.a0 then
      needKey s .addrKey <|
        let (s', x) := decryptPtrCached c s s.a0
        complete s' (undecorate x) 1
    else complete s s.a0 0

/-- PTR_DECODE_IF (45_pointer_codec.md R206). -/
def execPtrDecodeIf (s : State) : Answer :=
  .next (ptrDecodeIfUnder Config.hw s)

end Sys2Proof.Machine
end

