-- ==== Sys2Proof/Machine/SlotSizer.lean ====
section
/-! DEFINITION. The SlotSizer (42_slot_sizer.md): the algorithm R130 to R133 and the command CLASSIFY (R134). -/

namespace Sys2Proof.Machine

/-- Step 1, clamp: `max(length, 1 << MAO)` (42_slot_sizer.md R130). -/
def clampLength (mao : Nat) (length : Word) : Nat :=
  max length.toNat (2 ^ mao)

/-- Step 2, the end address as a natural number: `address + (L - 1)`, not wrapped (42_slot_sizer.md R131). -/
def endAddress (mao : Nat) (address length : Word) : Nat :=
  address.toNat + (clampLength mao length - 1)

/-- Steps 2 to 4: the size class, or `none` for NotBoxable (42_slot_sizer.md R131 to R133). -/
def sizeClass (mao : Nat) (address length : Word) : Option Nat :=
  let sum := endAddress mao address length
  if 2 ^ 64 ≤ sum then none
  else
    let lz := clz64 (address ^^^ BitVec.ofNat 64 sum)
    if lz < 32 then none else some (64 - lz - mao + 1)

/-- CLASSIFY under a configuration (42_slot_sizer.md R134). -/
def classifyUnder (c : Config) (s : State) : State :=
  unlessHalted s <|
    match sizeClass c.mao s.a0 s.a1 with
    | none => complete s 0 0 { notBoxable := true }
    | some sc =>
      let z : BitVec 6 := BitVec.ofNat 6 sc
      complete s ((packMd (adjustOf c.specialSize z) 0 z).setWidth 64) (sizeBytes c.mao z)

/-- CLASSIFY (42_slot_sizer.md R134). -/
def execClassify (s : State) : Answer :=
  .next (classifyUnder Config.hw s)

end Sys2Proof.Machine
end

