-- ==== Sys2Proof/Machine/Dispatch.lean ====
section
/-! DEFINITION. One arm per command: its meaning. Decoding has happened (30_encoding.md R81 steps 1 to 3); steps 4 to 7 and the
command's effect are in the meaning. -/

namespace Sys2Proof.Machine

def exec (i : Instr) (s : State) : Host.Outcome State Fault Refusal :=
  match i with
  | .nop => Sys2Proof.Machine.execNop s
  | .caGetPlaintext => Sys2Proof.Machine.execCaGetPlaintext s
  | .caGetCiphertext => Sys2Proof.Machine.execCaGetCiphertext s
  | .caGetEncsize => Sys2Proof.Machine.execCaGetEncsize s
  | .caGetAdjust => Sys2Proof.Machine.execCaGetAdjust s
  | .caGetSprime => Sys2Proof.Machine.execCaGetSprime s
  | .caGetSbit => Sys2Proof.Machine.execCaGetSbit s
  | .caGetVersion => Sys2Proof.Machine.execCaGetVersion s
  | .caIsCanonical => Sys2Proof.Machine.execCaIsCanonical s
  | .caIsCa => Sys2Proof.Machine.execCaIsCa s
  | .decodeSize => Sys2Proof.Machine.execDecodeSize s
  | .caSetPlaintext => Sys2Proof.Machine.execCaSetPlaintext s
  | .caSetCiphertext => Sys2Proof.Machine.execCaSetCiphertext s
  | .caSetEncsize => Sys2Proof.Machine.execCaSetEncsize s
  | .caSetVersion => Sys2Proof.Machine.execCaSetVersion s
  | .classify => Sys2Proof.Machine.execClassify s
  | .tbcEnc => Sys2Proof.Machine.execTbcEnc s
  | .tbcDec => Sys2Proof.Machine.execTbcDec s
  | .prfStream k => Sys2Proof.Machine.execPrfStream k s
  | .ptrDecorate => Sys2Proof.Machine.execPtrDecorate s
  | .ptrEncrypt => Sys2Proof.Machine.execPtrEncrypt s
  | .ptrDecrypt => Sys2Proof.Machine.execPtrDecrypt s
  | .ptrUndecorate => Sys2Proof.Machine.execPtrUndecorate s
  | .ptrEncode => Sys2Proof.Machine.execPtrEncode s
  | .ptrDecode => Sys2Proof.Machine.execPtrDecode s
  | .ptrDecodeIf => Sys2Proof.Machine.execPtrDecodeIf s
  | .dataMask k => Sys2Proof.Machine.execDataMask k s
  | .icvSet => Sys2Proof.Machine.execIcvSet s
  | .icvGet => Sys2Proof.Machine.execIcvGet s
  | .icvCheckOrSet kind => Sys2Proof.Machine.execIcvCheckOrSet kind s
  | .icvInit => Sys2Proof.Machine.execIcvInit s
  | .icvPreinit => Sys2Proof.Machine.execIcvPreinit s
  | .icvInvalidate => Sys2Proof.Machine.execIcvInvalidate s
  | .icvCorrect => Sys2Proof.Machine.execIcvCorrect s
  | .icvAccess kind => Sys2Proof.Machine.execIcvAccess kind s
  | .keySet k => Sys2Proof.Machine.execKeySet k s
  | .ctxSave => Sys2Proof.Machine.execCtxSave s
  | .ctxLoad => Sys2Proof.Machine.execCtxLoad s
  | .resume => Sys2Proof.Machine.execResume s

end Sys2Proof.Machine
end

