-- ==== Sys2Proof/Machine/HostPort.lean ====
section
/-! DEFINITION. The host port: the register window, its two transactions, malformed transactions, and the reset input
(20_memory.md R60 to R65, 70_reset_and_hazards.md R310). -/

namespace Sys2Proof.Machine

/-- A malformed transaction: the offset is not a multiple of 8, or is 0x200 or above (20_memory.md R63). -/
def malformedOffset (off : Nat) : Bool :=
  off % 8 != 0 || decide (0x200 ≤ off)

/-- DBUF word k as the host sees it: `LE64(DBUF[8k .. 8k+7])` (20_memory.md R61). -/
def dbufWord (s : State) (k : Nat) : Word :=
  le64 (memRead s (8 * k) 8)

/-- What an HRead of an aligned offset below 0x200 returns (20_memory.md R61): CMD and the reserved offsets read as 0. -/
def windowRead (s : State) (off : Nat) : Word :=
  match off with
  | 0x008 => statusReg s
  | 0x010 => s.a0
  | 0x018 => s.a1
  | 0x020 => s.a2
  | 0x028 => s.a3
  | 0x030 => s.r0
  | 0x038 => s.r1
  | 0x040 => s.ctxFlags
  | 0x048 => s.ctxShadow
  | 0x050 => s.ctxRsvd
  | 0x058 => s.icvCtrl
  | 0x060 => s.events
  | 0x068 => s.faultCause
  | 0x070 => s.faultGaddr
  | 0x078 => s.faultPtr
  | 0x080 => icvCount s
  | _ => if 0x100 ≤ off ∧ off < 0x180 then dbufWord s ((off - 0x100) / 8) else 0

/-- What an HWrite of an aligned offset other than CMD does (20_memory.md R61): writes to read-only and reserved offsets are ignored
without an event. -/
def windowWrite (s : State) (off : Nat) (v : Word) : State :=
  match off with
  | 0x010 => { s with a0 := v }
  | 0x018 => { s with a1 := v }
  | 0x020 => { s with a2 := v }
  | 0x028 => { s with a3 := v }
  | 0x040 => { s with ctxFlags := v }
  | 0x048 => { s with ctxShadow := v }
  | 0x050 => { s with ctxRsvd := v }
  | 0x058 => { s with icvCtrl := (v.extractLsb 5 0).setWidth 64 }
  | 0x060 => ackEvents s v
  | _ => if 0x100 ≤ off ∧ off < 0x180 then memWrite s (8 * ((off - 0x100) / 8)) (leBytes v) else s

/-- A write of `w` to CMD issues the command `w` (20_memory.md R61): decoded, and refused by its code or run
(30_encoding.md R81, R87). -/
def issueCommand (s : State) (w : Word) : Host.Outcome State Fault Refusal :=
  match decode w with
  | .error r => .next (refuse s (rejectCode r))
  | .ok i => exec i s

/-- `HRead(off)`: the value goes to the host; a malformed one returns 0 and sets EV_HOSTERR (20_memory.md R60, R63, R65). -/
def hostRead (s : State) (off : Nat) : State :=
  if malformedOffset off then { setEvent s 5 with hostData := 0 } else { s with hostData := windowRead s off }

/-- `HWrite(off, v)`: a malformed one changes nothing but EV_HOSTERR (20_memory.md R60, R61, R63). -/
def hostWrite (s : State) (off : Nat) (v : Word) : Host.Outcome State Fault Refusal :=
  if malformedOffset off then .next (setEvent s 5)
  else if off = 0 then issueCommand s v
  else .next (windowWrite s off v)

/-- Take one input. The reset input gives every piece of state its reset value (70_reset_and_hazards.md R310); the inputs still
waiting at the port are the host's and stay. -/
def takeInput (s : State) (t : Input) : Host.Outcome State Fault Refusal :=
  match t with
  | .hread off => .next (hostRead s off)
  | .hwrite off v => hostWrite s off v
  | .reset => .next { State.reset with port := s.port }

/-- The engine's step is "take the next host transaction" (20_memory.md R66); with none waiting it is idle and keeps all state
(60_exceptions.md R304). -/
def portStep (s : State) : Host.Outcome State Fault Refusal :=
  match s.port with
  | [] => .next s
  | t :: rest => takeInput { s with port := rest } t

/-- The command word `w` becomes the next host transaction: a write to CMD (20_memory.md R61). -/
def issueNext (s : State) (w : Word) : State :=
  { s with port := .hwrite 0x000 w :: s.port }

end Sys2Proof.Machine
end

