-- ==== Sys2Proof/Machine/Step.lean ====
section
/-! DEFINITION. One step of the engine: take the next host transaction (20_memory.md R66). -/

namespace Sys2Proof.Machine

/-- One step (20_memory.md R64, R66): one host transaction, with the whole command it may issue, is one indivisible step. -/
def step (s : State) : Host.Outcome State Fault Refusal :=
  portStep s

/-- The command word of `nbits` bits is what the engine takes next: the host's next transaction writes it to CMD (log entry 2). -/
def State.withFetchWord (s : State) (nbits w : Nat) : State :=
  issueNext s (BitVec.ofNat 64 (w % 2 ^ nbits))

end Sys2Proof.Machine
end

