-- ==== Sys2Proof/Machine/Contexts.lean ====
section
/-! DEFINITION. Several engine instances (60_exceptions.md R303): N_CTX independent copies of the one-instance model that share no
state; which of them takes its next step is up to the platform. -/

namespace Sys2Proof.Machine

/-- The engine instances of a system, by position (60_exceptions.md R303). -/
structure Contexts where
  engines : List State
deriving DecidableEq, Repr

/-- Every instance at its own reset; there are N_CTX of them (60_exceptions.md R303). -/
def contextsReset (c : Config) : Contexts where
  engines := List.replicate c.nCtx State.reset

/-- Instance k takes its next step and the others keep their state; a number that names no instance changes nothing
(60_exceptions.md R303). -/
def stepContext (x : Contexts) (k : Nat) : Host.Outcome Contexts Fault Refusal :=
  match x.engines[k]? with
  | none => .next x
  | some s =>
    match step s with
    | .next t => .next { engines := x.engines.set k t }
    | .fault f => .fault f
    | .refused r => .refused r

end Sys2Proof.Machine
end

