-- ==== Sys2Proof/Machine/Program.lean ====
section
/-! DEFINITION. Programs for the engine: the textual syntax of commands and transactions (30_encoding.md R95, R96) and the
pseudo-instructions with their expansions (R97). A program is a list of host transactions, taken in list order (R96). -/

namespace Sys2Proof.Machine

/-- A command as it is written (30_encoding.md R95): an operand written as `aN=<value>` stands for a host write before the command, an
operand left out means AN keeps its value. -/
structure CommandLine where
  command : Instr
  a0 : Option Word := none
  a1 : Option Word := none
  a2 : Option Word := none
deriving DecidableEq, Repr

/-- The mnemonic of a command (30_encoding.md R85). -/
def mnemonicOf (i : Instr) : String :=
  match i with
  | .nop => "NOP"
  | .caGetPlaintext => "CA_GET_PLAINTEXT"
  | .caGetCiphertext => "CA_GET_CIPHERTEXT"
  | .caGetEncsize => "CA_GET_ENCSIZE"
  | .caGetAdjust => "CA_GET_ADJUST"
  | .caGetSprime => "CA_GET_SPRIME"
  | .caGetSbit => "CA_GET_SBIT"
  | .caGetVersion => "CA_GET_VERSION"
  | .caIsCanonical => "CA_IS_CANONICAL"
  | .caIsCa => "CA_IS_CA"
  | .decodeSize => "DECODE_SIZE"
  | .caSetPlaintext => "CA_SET_PLAINTEXT"
  | .caSetCiphertext => "CA_SET_CIPHERTEXT"
  | .caSetEncsize => "CA_SET_ENCSIZE"
  | .caSetVersion => "CA_SET_VERSION"
  | .classify => "CLASSIFY"
  | .tbcEnc => "TBC_ENC"
  | .tbcDec => "TBC_DEC"
  | .prfStream _ => "PRF_STREAM"
  | .ptrDecorate => "PTR_DECORATE"
  | .ptrEncrypt => "PTR_ENCRYPT"
  | .ptrDecrypt => "PTR_DECRYPT"
  | .ptrUndecorate => "PTR_UNDECORATE"
  | .ptrEncode => "PTR_ENCODE"
  | .ptrDecode => "PTR_DECODE"
  | .ptrDecodeIf => "PTR_DECODE_IF"
  | .dataMask _ => "DATA_MASK"
  | .icvSet => "ICV_SET"
  | .icvGet => "ICV_GET"
  | .icvCheckOrSet _ => "ICV_CHECK_OR_SET"
  | .icvInit => "ICV_INIT"
  | .icvPreinit => "ICV_PREINIT"
  | .icvInvalidate => "ICV_INVALIDATE"
  | .icvCorrect => "ICV_CORRECT"
  | .icvAccess _ => "ICV_ACCESS"
  | .keySet _ => "KEY_SET"
  | .ctxSave => "CTX_SAVE"
  | .ctxLoad => "CTX_LOAD"
  | .resume => "RESUME"

/-- The key suffix of a command line, which gives KSEL (30_encoding.md R95). -/
def keySuffix (k : KeySlot) : String :=
  match k with
  | .sharedKey => ".shared"
  | .privateKey => ".private"
  | .codeKey => ".code"
  | .addrKey => ".addr"

/-- The kind suffix of a command line, which gives AK (30_encoding.md R95). -/
def kindSuffix (kind : AccessKind) : String :=
  match kind with
  | .read => ".r"
  | .write => ".w"

/-- The suffix of a command: the key suffix only on PRF_STREAM, DATA_MASK and KEY_SET, the kind suffix only on ICV_CHECK_OR_SET and
ICV_ACCESS (30_encoding.md R95). -/
def suffixOf (i : Instr) : String :=
  match i with
  | .prfStream k | .dataMask k | .keySet k => keySuffix k
  | .icvCheckOrSet kind | .icvAccess kind => kindSuffix kind
  | .nop | .caGetPlaintext | .caGetCiphertext | .caGetEncsize | .caGetAdjust | .caGetSprime | .caGetSbit
  | .caGetVersion | .caIsCanonical | .caIsCa | .decodeSize | .caSetPlaintext | .caSetCiphertext | .caSetEncsize
  | .caSetVersion | .classify | .tbcEnc | .tbcDec | .ptrDecorate | .ptrEncrypt | .ptrDecrypt | .ptrUndecorate
  | .ptrEncode | .ptrDecode | .ptrDecodeIf | .icvSet | .icvGet | .icvInit | .icvPreinit | .icvInvalidate
  | .icvCorrect | .ctxSave | .ctxLoad | .resume => ""

/-- A number as it is written: hexadecimal, after 0x (00_scope.md section 5; log entry 16). -/
def hexText (n : Nat) : String :=
  "0x" ++ String.ofList (Nat.toDigits 16 n)

/-- One operand of a command line (30_encoding.md R95). -/
def operandText (name : String) (v : Option Word) : List String :=
  match v with
  | none => []
  | some w => [name ++ "=" ++ hexText w.toNat]

/-- The text of a command line: `MNEMONIC[.key][.kind] [a0=..][, a1=..][, a2=..]` (30_encoding.md R95). Where a0 is left out the model
writes no comma before the first operand that is there: DESIGN CHOICE, log entry 16. -/
def commandText (l : CommandLine) : String :=
  let ops := operandText "a0" l.a0 ++ operandText "a1" l.a1 ++ operandText "a2" l.a2
  mnemonicOf l.command ++ suffixOf l.command ++ (if ops.isEmpty then "" else " " ++ ", ".intercalate ops)

/-- The name of an offset of the register window, `DBUF[k]` for offset 0x100 + 8k, and the bare offset where the window has no name
(30_encoding.md R96, 20_memory.md R61). -/
def offsetText (off : Nat) : String :=
  match off with
  | 0x000 => "CMD"
  | 0x008 => "STATUS"
  | 0x010 => "A0"
  | 0x018 => "A1"
  | 0x020 => "A2"
  | 0x028 => "A3"
  | 0x030 => "R0"
  | 0x038 => "R1"
  | 0x040 => "CTX_FLAGS"
  | 0x048 => "CTX_SHADOW"
  | 0x050 => "CTX_RSVD"
  | 0x058 => "ICV_CTRL"
  | 0x060 => "EVENTS"
  | 0x068 => "FAULT_CAUSE"
  | 0x070 => "FAULT_GADDR"
  | 0x078 => "FAULT_PTR"
  | 0x080 => "ICV_COUNT"
  | _ =>
    if 0x100 ≤ off ∧ off < 0x180 ∧ off % 8 = 0 then "DBUF[" ++ toString ((off - 0x100) / 8) ++ "]" else hexText off

/-- The text of one bare transaction (30_encoding.md R96). The reset input is no transaction and has no text. -/
def transactionText (t : Input) : Option String :=
  match t with
  | .hread off => some ("RD " ++ offsetText off)
  | .hwrite off v => some ("WR " ++ offsetText off ++ ", " ++ hexText v.toNat)
  | .reset => none

/-! The other direction: reading the written forms. A text that is none of them reads as nothing. -/

/-- The value of one digit, at most `base - 1`. -/
def digitValue (base : Nat) (c : Char) : Option Nat :=
  let n := c.toNat
  let v := if 48 ≤ n ∧ n ≤ 57 then n - 48 else if 97 ≤ n ∧ n ≤ 102 then n - 87 else if 65 ≤ n ∧ n ≤ 70 then n - 55 else 16
  if v < base then some v else none

/-- The digits of a number from the most significant on; an underscore is a visual separator (00_scope.md section 5). -/
def readDigits (base acc : Nat) : List Char → Option Nat
  | [] => some acc
  | '_' :: cs => readDigits base acc cs
  | c :: cs =>
    match digitValue base c with
    | none => none
    | some v => readDigits base (acc * base + v) cs

/-- A number: decimal unless prefixed 0x or 0b (00_scope.md section 5). -/
def readNat (cs : List Char) : Option Nat :=
  match cs with
  | '0' :: 'x' :: c :: ds => readDigits 16 0 (c :: ds)
  | '0' :: 'b' :: c :: ds => readDigits 2 0 (c :: ds)
  | c :: ds => readDigits 10 0 (c :: ds)
  | [] => none

/-- A `<u64>`: a number below 2^64 (00_scope.md section 5). -/
def readWord (cs : List Char) : Option Word :=
  match readNat cs with
  | none => none
  | some n => if n < 2 ^ 64 then some (BitVec.ofNat 64 n) else none

/-- Text without the spaces around it. -/
def trimText (cs : List Char) : List Char :=
  ((cs.dropWhile (· == ' ')).reverse.dropWhile (· == ' ')).reverse

/-- The first word of a text and the rest after it. -/
def headWord (cs : List Char) : List Char × List Char :=
  (cs.takeWhile (· != ' '), trimText (cs.dropWhile (· != ' ')))

/-- What a suffix says (30_encoding.md R95). -/
def readKey (cs : List Char) : Option KeySlot :=
  if cs = "shared".toList then some .sharedKey
  else if cs = "private".toList then some .privateKey
  else if cs = "code".toList then some .codeKey
  else if cs = "addr".toList then some .addrKey
  else none

/-- What a kind suffix says (30_encoding.md R95). -/
def readKind (cs : List Char) : Option AccessKind :=
  if cs = "r".toList then some .read else if cs = "w".toList then some .write else none

/-- Every command as it is written without a suffix: KSEL and AK are 0 (30_encoding.md R95). -/
def bareCommands : List Instr :=
  List.flatten [[.nop, .caGetPlaintext, .caGetCiphertext, .caGetEncsize, .caGetAdjust, .caGetSprime, .caGetSbit, .caGetVersion],
    [.caIsCanonical, .caIsCa, .decodeSize, .caSetPlaintext, .caSetCiphertext, .caSetEncsize, .caSetVersion, .classify],
    [.tbcEnc, .tbcDec, .prfStream .sharedKey, .ptrDecorate, .ptrEncrypt, .ptrDecrypt, .ptrUndecorate, .ptrEncode],
    [.ptrDecode, .ptrDecodeIf, .dataMask .sharedKey, .icvSet, .icvGet, .icvCheckOrSet .read, .icvInit, .icvPreinit],
    [.icvInvalidate, .icvCorrect, .icvAccess .read, .keySet .sharedKey, .ctxSave, .ctxLoad, .resume]]

/-- A command with the suffix that is written on it; a suffix is written only where R95 allows it (30_encoding.md R95). -/
def withSuffix (i : Instr) (suffix : List Char) : Option Instr :=
  match i with
  | .prfStream _ => (readKey suffix).map .prfStream
  | .dataMask _ => (readKey suffix).map .dataMask
  | .keySet _ => (readKey suffix).map .keySet
  | .icvCheckOrSet _ => (readKind suffix).map .icvCheckOrSet
  | .icvAccess _ => (readKind suffix).map .icvAccess
  | .nop | .caGetPlaintext | .caGetCiphertext | .caGetEncsize | .caGetAdjust | .caGetSprime | .caGetSbit
  | .caGetVersion | .caIsCanonical | .caIsCa | .decodeSize | .caSetPlaintext | .caSetCiphertext | .caSetEncsize
  | .caSetVersion | .classify | .tbcEnc | .tbcDec | .ptrDecorate | .ptrEncrypt | .ptrDecrypt | .ptrUndecorate
  | .ptrEncode | .ptrDecode | .ptrDecodeIf | .icvSet | .icvGet | .icvInit | .icvPreinit | .icvInvalidate
  | .icvCorrect | .ctxSave | .ctxLoad | .resume => none

/-- `MNEMONIC[.suffix]` (30_encoding.md R95). -/
def readCommand (cs : List Char) : Option Instr :=
  match bareCommands.find? fun i => (mnemonicOf i).toList = cs.takeWhile (· != '.') with
  | none => none
  | some i =>
    match cs.dropWhile (· != '.') with
    | [] => some i
    | _ :: suffix => withSuffix i suffix

/-- One operand at the front of a list of operands: its value where it is written there, and the operands left
(30_encoding.md R95). -/
def readOperand (name : String) (ops : List (List Char)) : Option (Option Word × List (List Char)) :=
  match ops with
  | [] => some (none, [])
  | o :: rest =>
    if name.toList.isPrefixOf o then
      match readWord (o.drop name.length) with
      | none => none
      | some w => some (some w, rest)
    else some (none, o :: rest)

/-- The operands of a command line, in order, each at most once (30_encoding.md R95). Where a0 is left out the comma before the next operand
may stand, as R95's template has it, or be left out: DESIGN CHOICE, log entry 16. -/
def readOperands (i : Instr) (ops : List (List Char)) : Option CommandLine := do
  let (a0, ops) ← match ops with
    | [] :: o :: rest => some (none, o :: rest)
    | _ => readOperand "a0=" ops
  let (a1, ops) ← readOperand "a1=" ops
  let (a2, ops) ← readOperand "a2=" ops
  if ops.isEmpty then some { command := i, a0 := a0, a1 := a1, a2 := a2 } else none

/-- A command line (30_encoding.md R95). -/
def readCommandLine (cs : List Char) : Option CommandLine :=
  let (name, rest) := headWord (trimText cs)
  match readCommand name with
  | none => none
  | some i => readOperands i (if rest.isEmpty then [] else (rest.splitOn ',').map trimText)

/-- A name or offset of the register window (30_encoding.md R96, 20_memory.md R61). -/
def readOffset (cs : List Char) : Option Nat :=
  match ((List.range 64).map (8 * ·)).find? fun off => (offsetText off).toList = cs with
  | some off => some off
  | none => readNat cs

/-- One bare transaction: `WR <name or offset>, <u64>` or `RD <name or offset>` (30_encoding.md R96). -/
def readTransaction (cs : List Char) : Option Input :=
  let (verb, rest) := headWord (trimText cs)
  match verb, (rest.splitOn ',').map trimText with
  | ['R', 'D'], [off] => (readOffset off).map .hread
  | ['W', 'R'], [off, v] => do some (.hwrite (← readOffset off) (← readWord v))
  | _, _ => none

/-- The pseudo-instructions whose expansion is a fixed list of transactions (30_encoding.md R97). -/
inductive Pseudo where
  /-- `CMD <mnemonic with suffixes>`. -/
  | cmd (i : Instr)
  /-- `<mnemonic> a0=.., a1=..`. -/
  | line (l : CommandLine)
  /-- `LDBUF <hex bytes>`. -/
  | ldbuf (bytes : List Byte)
  /-- `LOADKEY.<slot> <hex bytes>`. -/
  | loadkey (k : KeySlot) (bytes : List Byte)
  /-- `CLREV <mask>`. -/
  | clrev (mask : Word)
deriving DecidableEq, Repr

/-- Hex bytes, two digits each, with or without spaces between them (30_encoding.md R97). -/
def readBytes : List Char → Option (List Byte)
  | [] => some []
  | ' ' :: cs => readBytes cs
  | _ :: [] => none
  | c :: d :: cs => do
    let hi ← digitValue 16 c
    let lo ← digitValue 16 d
    let rest ← readBytes cs
    some (BitVec.ofNat 8 (16 * hi + lo) :: rest)

/-- The written form of a pseudo-instruction whose expansion is a fixed list of transactions (30_encoding.md R97). -/
def readPseudo (cs : List Char) : Option Pseudo :=
  let (name, rest) := headWord (trimText cs)
  if name = "CMD".toList then (readCommand rest).map .cmd
  else if name = "LDBUF".toList then (readBytes rest).map .ldbuf
  else if name = "CLREV".toList then (readWord rest).map .clrev
  else if "LOADKEY.".toList.isPrefixOf name then do some (.loadkey (← readKey (name.drop 8)) (← readBytes rest))
  else (readCommandLine cs).map .line

/-- The host write of one operand of a command line; none where the operand is left out (30_encoding.md R95). -/
def operandWrite (off : Nat) (v : Option Word) : List Input :=
  match v with
  | none => []
  | some w => [.hwrite off w]

/-- `CMD`: the write of the command word (30_encoding.md R97). -/
def expandCommand (i : Instr) : List Input :=
  [.hwrite 0x000 (encode i)]

/-- A command line: its operand writes, then the command (30_encoding.md R95, R97). -/
def expandLine (l : CommandLine) : List Input :=
  operandWrite 0x010 l.a0 ++ operandWrite 0x018 l.a1 ++ operandWrite 0x020 l.a2 ++ expandCommand l.command

/-- `LDBUF`: `WR DBUF[k], LE64(b8k..b8k+7)` for each k the bytes reach, a short last word padded with zero bytes
(30_encoding.md R97). -/
def expandLdbuf (bytes : List Byte) : List Input :=
  (List.range ((bytes.length + 7) / 8)).map fun k => .hwrite (0x100 + 8 * k) (le64 ((bytes.drop (8 * k)).take 8))

/-- The expansion of a pseudo-instruction (30_encoding.md R97). -/
def expandPseudo (p : Pseudo) : List Input :=
  match p with
  | .cmd i => expandCommand i
  | .line l => expandLine l
  | .ldbuf bytes => expandLdbuf bytes
  | .loadkey k bytes => expandLdbuf bytes ++ expandCommand (.keySet k)
  | .clrev mask => [.hwrite 0x060 mask]

/-- The engine takes a list of inputs in list order (30_encoding.md R96). -/
def runInputs (s : State) : List Input → Answer
  | [] => .next s
  | t :: ts =>
    match takeInput s t with
    | .next s' => runInputs s' ts
    | .fault f => .fault f
    | .refused r => .refused r

/-- The host's second half of ENCODE: with STATUS.NOT_BOXABLE = 0, PTR_ENCODE with `md | ver << 6` (30_encoding.md R97). -/
def encodeSecond (s : State) (a ver : Word) : List Input :=
  if s.status.getLsbD 8 then [] else expandLine { command := .ptrEncode, a0 := some a, a1 := some (s.r0 ||| (ver <<< 6)) }

/-- The pseudo-instruction `ENCODE a, len, ver` with the host's decision in it (30_encoding.md R97): the state after it and its
result, which is `a` itself where the range is not boxable, and else what R0 holds after the expansion. R97 names no result where CLASSIFY
or PTR_ENCODE is refused (HALTED, no K_ADDR); a refused command leaves NOT_BOXABLE clear and R0 as it was, and that R0 is then the result:
DESIGN CHOICE, log entry 19. -/
def runEncode (s : State) (a len ver : Word) : Host.Outcome (State × Word) Fault Refusal :=
  match runInputs s (expandLine { command := .classify, a0 := some a, a1 := some len } ++ [.hread 0x030]) with
  | .fault f => .fault f
  | .refused r => .refused r
  | .next s1 =>
    match runInputs s1 (encodeSecond s1 a ver) with
    | .fault f => .fault f
    | .refused r => .refused r
    | .next s2 => .next (s2, if s1.status.getLsbD 8 then a else s2.r0)

end Sys2Proof.Machine
end

