-- ==== Sys2Proof/Safety.lean ====
section
/-! DEFINITION. What the claims call a sound state of the engine: the invariants that the rules of spec/ state or imply for every
instant between two host transactions. -/

namespace Sys2Proof.Machine

/-- TC_VALID = 1 implies TC_RTK = TwkSched(KS, TC_TWEAK) (10_state.md R40). -/
def CacheCoherent (s : State) : Prop :=
  s.tcValid = true → s.tcRtk = twkSched Config.hw.tbc s.ks.trk s.tcTweak

/-- The key schedule is that of K_ADDR (10_state.md R39). -/
def ScheduleCoherent (s : State) : Prop :=
  s.ks = keySched s.kAddr

/-- STATUS: CODE is at most 6 and bits 62:13 are zero (10_state.md R28). -/
def StatusSound (s : State) : Prop :=
  s.status.toNat % 256 ≤ 6 ∧ s.status.toNat < 2 ^ 13

/-- The bits 63:6 of EVENTS and of ICV_CTRL read as zero (10_state.md R29, R31). -/
def ReservedBitsZero (s : State) : Prop :=
  s.events.toNat < 64 ∧ s.icvCtrl.toNat < 64

/-- The FAULT registers (10_state.md R30, 60_exceptions.md R284, R288): a cause 0, 1 or 2; a granule address has its low three bits
zero; `fault_o` is high exactly while a cause is recorded; with no cause recorded the address and the pointer are 0. -/
def FaultRegistersSound (s : State) : Prop :=
  s.faultCause.toNat ≤ 2 ∧ s.faultGaddr.toNat % 8 = 0 ∧ (faultOut s = true ↔ s.faultCause ≠ 0) ∧
    (s.faultCause = 0 → s.faultGaddr = 0 ∧ s.faultPtr = 0)

/-- DBUF and the ICV map are in canonical form (10_state.md R41, R43), and the map needs no more blocks than it has
(47_integrity_map.md R223). -/
def StoresSound (s : State) : Prop :=
  Memory.wf s.dbuf = true ∧ icvWf s.icv = true ∧ icvOverfull Config.hw s.icv = false

/-- A sound state of the engine. -/
structure Sound (s : State) : Prop where
  stores : StoresSound s
  schedule : ScheduleCoherent s
  cache : CacheCoherent s
  status : StatusSound s
  reserved : ReservedBitsZero s
  faultRegs : FaultRegistersSound s

/-- What a command that would leave `t` behind answers under the capacity rule: refused with ERR_ICV_FULL (STATUS[62:0] = 6, nothing
else changed) when the map of `t` needs more blocks than ICV_MAX_BLOCKS, else `t` (47_integrity_map.md R223). -/
def underCapacity (s t : State) : State :=
  if icvOverfull Config.hw t.icv = true then { s with status := 6 } else t

/-- `s` with the tweak cache holding the schedule of the tweak operand `tw` under its key schedule (43_tweak_cipher.md R157). -/
def holdingSchedule (s : State) (tw : Word) : State :=
  { s with
    tcValid := true, tcTweak := BitVec.ofNat 40 tw.toNat
    tcRtk := twkSched Config.hw.tbc s.ks.trk (BitVec.ofNat 40 tw.toNat) }

end Sys2Proof.Machine
end

