-- ==== Sys2Proof/Certificates/Slice0/Obligations.lean ====
section
/-! DEFINITION. The statements for the provers. A docstring names the rule of spec/ that a statement formalises. Values are written as
natural-number arithmetic or bit by bit, so that a statement does not repeat the definition it is about. -/

open Sys2Proof Sys2Proof.Machine

/-! ### Encoding -/

/-- Decode and encode agree, in both directions: no bit of an encoding is dropped, and each accepted word is the word of its command
(30_encoding.md R80, R85, R88). -/
def Obligations.DecodeEncodeAgree : Prop :=
  (∀ i : Instr, decode (encode i) = .ok i) ∧ (∀ (w : Word) (i : Instr), decode w = .ok i → encode i = w)

/-- Command words written out from 30_encoding.md R80 and R85, one of each family and each field, decode to their commands. -/
def Obligations.SampleWordsDecode : Prop :=
  decode 0x00 = .ok .nop ∧ decode 0x16 = .ok .caGetVersion ∧ decode 0x1D = .ok .caSetVersion ∧ decode 0x20 = .ok .classify ∧
    decode 0x31 = .ok .tbcDec ∧ decode 0x138 = .ok (.prfStream .privateKey) ∧ decode 0x44 = .ok .ptrEncode ∧
    decode 0x250 = .ok (.dataMask .codeKey) ∧ decode 0x64 = .ok .icvPreinit ∧ decode 0x62 = .ok (.icvCheckOrSet .read) ∧
    decode 0x467 = .ok (.icvAccess .write) ∧ decode 0x370 = .ok (.keySet .addrKey) ∧ decode 0x73 = .ok .resume

/-- Which words the decoder refuses, and as what (30_encoding.md R81 steps 1 to 3, R87). -/
def Obligations.DecoderRefusals : Prop :=
  ∀ w : Word,
    let opc := w.toNat % 256
    let known := opc = 0 ∨ (0x10 ≤ opc ∧ opc ≤ 0x1D) ∨ opc = 0x20 ∨ opc = 0x30 ∨ opc = 0x31 ∨ opc = 0x38 ∨
      (0x40 ≤ opc ∧ opc ≤ 0x46) ∨ opc = 0x50 ∨ (0x60 ≤ opc ∧ opc ≤ 0x67) ∨ (0x70 ≤ opc ∧ opc ≤ 0x73)
    (decode w = .error .opcode ↔ ¬known) ∧
      (decode w = .error .reserved ↔ known ∧
        (w.toNat / 2 ^ 11 ≠ 0 ∨ (w.toNat / 2 ^ 8 % 4 ≠ 0 ∧ opc ≠ 0x38 ∧ opc ≠ 0x50 ∧ opc ≠ 0x70) ∨
          (w.toNat / 2 ^ 10 % 2 ≠ 0 ∧ opc ≠ 0x62 ∧ opc ≠ 0x67)))

/-! ### The machine: transactions, refusals, reset -/

/-- A step that takes a write of a command word runs the decoded command on the state without that transaction (20_memory.md R61, R64).
How a transaction waits at the port is the model's choice, log entry 2. -/
def Obligations.StepRunsDecodedCommand : Prop :=
  (∀ (s : State) (rest : List Input) (w : Word) (i : Instr), decode w = .ok i →
      step { s with port := .hwrite 0 w :: rest } = exec i { s with port := rest }) ∧
    ∀ (s : State) (i : Instr), step (s.withFetchWord 64 (encode i).toNat) = exec i s

/-- The engine never stops: every step, and every command, answers a next state. The spec has no fault, a refused command only writes
STATUS and a violation lets its command complete (93_implementation_defined.md section 2; 60_exceptions.md R281, R285, R290); that both are
next states of the model is its reading of these, log entry 11 (DEDUCED). -/
def Obligations.EngineNeverStops : Prop :=
  (∀ s : State, ∃ t, step s = .next t) ∧ ∀ (i : Instr) (s : State), ∃ t, exec i s = .next t

/-- The refusals that decoding decides, in the order of 60_exceptions.md R282: an unknown opcode and a reserved bit come before HALTED,
and HALTED before anything the command itself would check. -/
def Obligations.RefusalsInDecodeOrder : Prop :=
  (∀ (s : State) (w : Word),
      (decode w = .error .opcode → hostWrite s 0x000 w = .next { s with status := 1 }) ∧
        (decode w = .error .reserved → hostWrite s 0x000 w = .next { s with status := 2 }) ∧
        ∀ i : Instr, decode w = .ok i → i ≠ .resume → s.halted = true → hostWrite s 0x000 w = .next { s with status := 5 }) ∧
    decode 0x801 = .error .opcode ∧ decode 0x800 = .error .reserved ∧ decode 0x00 = .ok .nop

/-- While HALTED = 1 every command but RESUME is refused with ERR_HALTED and changes nothing else (10_state.md R36, 60_exceptions.md
R280, R281). -/
def Obligations.HaltedEngineRefuses : Prop :=
  ∀ (i : Instr) (s : State), i ≠ .resume → s.halted = true → exec i s = .next { s with status := 5 }

/-- The operand refusals of PRF_STREAM, DATA_MASK and ICV_ACCESS, whatever KEY_VALID says (60_exceptions.md R280, R282). -/
def Obligations.OperandRefusals : Prop :=
  ∀ s : State, s.halted = false →
    exec (.prfStream .addrKey) s = .next { s with status := 3 } ∧ exec (.dataMask .addrKey) s = .next { s with status := 3 } ∧
      (∀ k : KeySlot, 128 < s.a1.toNat → exec (.dataMask k) s = .next { s with status := 3 }) ∧
      ∀ kind : AccessKind, (128 < s.a2.toNat ∨ (0 < s.a2.toNat ∧ 2 ^ 64 ≤ s.a0.toNat + (s.a2.toNat - 1))) →
        exec (.icvAccess kind) s = .next { s with status := 3 }

/-- The key refusals (60_exceptions.md R280; 10_state.md R38): a command whose key was never written is refused with ERR_NOKEY. -/
def Obligations.NoKeyRefusals : Prop :=
  ∀ s : State, s.halted = false →
    (s.validAddr = false →
        ∀ i ∈ [Instr.tbcEnc, .tbcDec, .ptrEncrypt, .ptrDecrypt, .ptrEncode, .ptrDecode], exec i s = .next { s with status := 4 }) ∧
      (s.validAddr = false → s.a0.toNat / 2 ^ 56 % 64 ≠ 0 → s.a0.toNat / 2 ^ 56 % 64 ≠ 63 →
        exec .ptrDecodeIf s = .next { s with status := 4 }) ∧
      ∀ k : KeySlot, k ≠ .addrKey → keyValid s k = false →
        exec (.prfStream k) s = .next { s with status := 4 } ∧
          (s.a1.toNat ≤ 128 → exec (.dataMask k) s = .next { s with status := 4 })

/-- A refused command writes its code into STATUS[62:0] and changes nothing else (60_exceptions.md R281): whatever word is written to
CMD, if the code it leaves is not 0 then only STATUS changed, bits 12:8 are zero and the code is at most 6. -/
def Obligations.RefusedCommandChangesOnlyStatus : Prop :=
  ∀ (s t : State) (w : Word), hostWrite s 0x000 w = .next t →
    t.status.toNat % 256 ≠ 0 → t = { s with status := t.status } ∧ t.status.toNat ≤ 6

/-- The state after reset (10_state.md R45): every register zero, keys zero and not valid, KS the schedule of the zero key, an empty
map, a zero DBUF, both outputs low. TC_TWEAK and TC_RTK are unspecified there and not mentioned here. -/
def Obligations.ResetValues : Prop :=
  let s := State.reset
  s.a0 = 0 ∧ s.a1 = 0 ∧ s.a2 = 0 ∧ s.a3 = 0 ∧ s.r0 = 0 ∧ s.r1 = 0 ∧ statusReg s = 0 ∧ s.events = 0 ∧
    s.faultCause = 0 ∧ s.faultGaddr = 0 ∧ s.faultPtr = 0 ∧ s.halted = false ∧ s.icvCtrl = 0 ∧
    s.ctxFlags = 0 ∧ s.ctxShadow = 0 ∧ s.ctxRsvd = 0 ∧
    (∀ j : Fin 16, s.kShared.get j = 0 ∧ s.kPrivate.get j = 0 ∧ s.kCode.get j = 0) ∧ (∀ j : Fin 32, s.kAddr.get j = 0) ∧
    (∀ k : KeySlot, keyValid s k = false) ∧ s.ks.drk = 0 ∧ (∀ i : Fin 6, s.ks.trk.get i = 0) ∧ s.ks = keySched s.kAddr ∧
    s.tcValid = false ∧ (∀ i, icvRead s i = 0) ∧ icvCount s = 0 ∧ (∀ i, cellsRead s.dbuf i = 0) ∧
    faultOut s = false ∧ haltedOut s = false

/-- The inputs as steps: an idle engine keeps all state, a read gives its value to the host and changes nothing else, a write of another
offset than CMD does what the window says, and the reset input gives every field its reset value. The port, the value handed to the
host and the reset as an input are the model's choice (log entries 2, 3 and 4). -/
def Obligations.InputsAreSteps : Prop :=
  (∀ s : State, s.port = [] → step s = .next s) ∧
    (∀ (s : State) (rest : List Input) (off : Nat), off % 8 = 0 → off < 0x200 →
      step { s with port := .hread off :: rest } =
        .next { s with port := rest, hostData := windowRead { s with port := rest } off }) ∧
    (∀ (s : State) (rest : List Input) (off : Nat) (v : Word), off % 8 = 0 → off < 0x200 → off ≠ 0 →
      step { s with port := .hwrite off v :: rest } = .next (windowWrite { s with port := rest } off v)) ∧
    ∀ (s : State) (rest : List Input), step { s with port := .reset :: rest } = .next { State.reset with port := rest }

/-- Malformed transactions (20_memory.md R63): an offset that is no multiple of 8 or not below 0x200 sets EV_HOSTERR; a read returns 0,
a write changes nothing else, and no command is issued. The value a read returns stands in `hostData` (log entry 3). -/
def Obligations.MalformedTransactions : Prop :=
  ∀ (s : State) (rest : List Input) (off : Nat), off % 8 ≠ 0 ∨ 0x200 ≤ off →
    step { s with port := .hread off :: rest } = .next { s with port := rest, events := s.events ||| 32, hostData := 0 } ∧
      ∀ v : Word, step { s with port := .hwrite off v :: rest } = .next { s with port := rest, events := s.events ||| 32 }

/-- The register window (20_memory.md R61), read side: what each aligned offset below 0x200 returns. -/
def Obligations.WindowReads : Prop :=
  ∀ s : State,
    (windowRead s 0x008).toNat = s.status.toNat + (if s.halted = true then 2 ^ 63 else 0) ∧
      windowRead s 0x010 = s.a0 ∧ windowRead s 0x018 = s.a1 ∧ windowRead s 0x020 = s.a2 ∧ windowRead s 0x028 = s.a3 ∧
      windowRead s 0x030 = s.r0 ∧ windowRead s 0x038 = s.r1 ∧ windowRead s 0x040 = s.ctxFlags ∧
      windowRead s 0x048 = s.ctxShadow ∧ windowRead s 0x050 = s.ctxRsvd ∧ windowRead s 0x058 = s.icvCtrl ∧
      windowRead s 0x060 = s.events ∧ windowRead s 0x068 = s.faultCause ∧ windowRead s 0x070 = s.faultGaddr ∧
      windowRead s 0x078 = s.faultPtr ∧ windowRead s 0x080 = icvCount s ∧
      (∀ off, off % 8 = 0 → (off = 0 ∨ (0x088 ≤ off ∧ off ≤ 0x0F8) ∨ (0x180 ≤ off ∧ off ≤ 0x1F8)) → windowRead s off = 0) ∧
      ∀ k j, k < 16 → j < 8 → (windowRead s (0x100 + 8 * k)).extractLsb' (8 * j) 8 = cellsRead s.dbuf (8 * k + j)

/-- The register window (20_memory.md R61), write side: what a write of each aligned offset below 0x200 does; a write of CMD issues the
command, a write of a read-only or reserved offset is ignored without an event. -/
def Obligations.WindowWrites : Prop :=
  ∀ (s : State) (v : Word),
    (∀ i : Instr, decode v = .ok i → hostWrite s 0x000 v = exec i s) ∧
      hostWrite s 0x010 v = .next { s with a0 := v } ∧ hostWrite s 0x018 v = .next { s with a1 := v } ∧
      hostWrite s 0x020 v = .next { s with a2 := v } ∧ hostWrite s 0x028 v = .next { s with a3 := v } ∧
      hostWrite s 0x040 v = .next { s with ctxFlags := v } ∧ hostWrite s 0x048 v = .next { s with ctxShadow := v } ∧
      hostWrite s 0x050 v = .next { s with ctxRsvd := v } ∧
      hostWrite s 0x058 v = .next { s with icvCtrl := BitVec.ofNat 64 (v.toNat % 64) } ∧
      (∃ e : Word, (∀ b, b < 64 → e.getLsbD b = (s.events.getLsbD b && !v.getLsbD b)) ∧
        hostWrite s 0x060 v = .next
          (if v.toNat / 8 % 2 = 1 then { s with events := e, faultCause := 0, faultGaddr := 0, faultPtr := 0 }
            else { s with events := e })) ∧
      (∀ off, off % 8 = 0 → (off = 0x008 ∨ off = 0x030 ∨ off = 0x038 ∨ (0x068 ≤ off ∧ off ≤ 0x0F8) ∨
        (0x180 ≤ off ∧ off ≤ 0x1F8)) → hostWrite s off v = .next s) ∧
      ∀ k, k < 16 → Memory.wf s.dbuf = true →
        ∃ d : Memory, Memory.wf d = true ∧
          (∀ a, cellsRead d a = if 8 * k ≤ a ∧ a < 8 * k + 8 then v.extractLsb' (8 * (a - 8 * k)) 8 else cellsRead s.dbuf a) ∧
          hostWrite s (0x100 + 8 * k) v = .next { s with dbuf := d }

/-! ### Invariants and frames of the whole machine -/

/-- Every step keeps the invariants of Safety.lean: the canonical form of DBUF and of the map and the map's capacity, the key schedule
and the tweak cache, the shapes of STATUS, EVENTS and ICV_CTRL, and the FAULT registers. From every sound state, reachable or not. -/
def Obligations.SoundPreservedByStep : Prop :=
  ∀ s t : State, Sound s → step s = .next t → Sound t

/-- The state after reset is sound. -/
def Obligations.ResetIsSound : Prop :=
  Sound State.reset

/-- What commands leave alone (10_state.md R21, R43, R44; 48_context_keys.md R265; 47_integrity_map.md R244(e)): no command writes an
operand register, ICV_CTRL or the port; the context words change only by CTX_LOAD, a key slot and its valid bit only by CTX_LOAD and
KEY_SET of that slot, KS only with K_ADDR, DBUF only by DATA_MASK and CTX_SAVE, the map only by the ICV commands that store, EVENTS and
the FAULT registers only by the two checking commands, HALTED only by those and RESUME, and the tweak cache only by the cipher
commands and the loads of K_ADDR. Three clauses are the model's: `port` and `hostData` are its own fields (log entries 2 and 3), and which
commands may change the cache is its reading of 43_tweak_cipher.md R157 (log entry 17, DEDUCED). -/
def Obligations.CommandFrames : Prop :=
  ∀ (i : Instr) (s t : State), exec i s = .next t →
    (t.a0 = s.a0 ∧ t.a1 = s.a1 ∧ t.a2 = s.a2 ∧ t.a3 = s.a3 ∧ t.icvCtrl = s.icvCtrl ∧ t.port = s.port ∧ t.hostData = s.hostData) ∧
      (i ≠ .ctxLoad → t.ctxFlags = s.ctxFlags ∧ t.ctxShadow = s.ctxShadow ∧ t.ctxRsvd = s.ctxRsvd) ∧
      (i ≠ .ctxLoad → i ≠ .keySet .sharedKey → t.kShared = s.kShared ∧ t.validShared = s.validShared) ∧
      (i ≠ .ctxLoad → i ≠ .keySet .privateKey → t.kPrivate = s.kPrivate ∧ t.validPrivate = s.validPrivate) ∧
      (i ≠ .ctxLoad → i ≠ .keySet .codeKey → t.kCode = s.kCode ∧ t.validCode = s.validCode) ∧
      (i ≠ .ctxLoad → i ≠ .keySet .addrKey → t.kAddr = s.kAddr ∧ t.validAddr = s.validAddr ∧ t.ks = s.ks) ∧
      ((∀ k, i ≠ .dataMask k) → i ≠ .ctxSave → t.dbuf = s.dbuf) ∧
      ((∀ kind, i ≠ .icvCheckOrSet kind ∧ i ≠ .icvAccess kind) →
        (i ∉ [Instr.icvSet, .icvInit, .icvPreinit, .icvInvalidate] → t.icv = s.icv) ∧
          t.events = s.events ∧ t.faultCause = s.faultCause ∧ t.faultGaddr = s.faultGaddr ∧ t.faultPtr = s.faultPtr ∧
          (i ≠ .resume → t.halted = s.halted)) ∧
      (i ∉ [Instr.tbcEnc, .tbcDec, .ptrEncrypt, .ptrDecrypt, .ptrEncode, .ptrDecode, .ptrDecodeIf, .keySet .addrKey, .ctxLoad] →
        t.tcValid = s.tcValid ∧ t.tcTweak = s.tcTweak ∧ t.tcRtk = s.tcRtk)

/-- What commands cannot undo: a set event stays set (10_state.md R29), a valid key stays valid (R38), recorded FAULT registers stay as
they are (R30, 60_exceptions.md R284), HALTED is set only with EV_BREAK and cleared only by RESUME (10_state.md R36). -/
def Obligations.CommandsOnlyAccumulate : Prop :=
  ∀ (i : Instr) (s t : State), exec i s = .next t →
    (∀ b, s.events.getLsbD b = true → t.events.getLsbD b = true) ∧
      (∀ k : KeySlot, keyValid s k = true → keyValid t k = true) ∧
      (s.faultCause ≠ 0 → t.faultCause = s.faultCause ∧ t.faultGaddr = s.faultGaddr ∧ t.faultPtr = s.faultPtr) ∧
      (s.halted = false → t.halted = true → t.events.getLsbD 4 = true ∧ t.status.toNat % 256 = 0) ∧
      (s.halted = true → t.halted = false → i = .resume)

/-- No command's result depends on the tweak cache (10_state.md R40, 20_memory.md R75): two states that differ in a coherent cache alone
stay alike in everything but the cache. -/
def Obligations.TweakCacheIsTransparent : Prop :=
  ∀ (i : Instr) (s t t' : State) (v : Bool) (tw : Tweak) (rtk : Vector Block 12),
    CacheCoherent s → CacheCoherent { s with tcValid := v, tcTweak := tw, tcRtk := rtk } →
    exec i s = .next t → exec i { s with tcValid := v, tcTweak := tw, tcRtk := rtk } = .next t' →
    { t' with tcValid := t.tcValid, tcTweak := t.tcTweak, tcRtk := t.tcRtk } = t

/-- Engine instances share no state (60_exceptions.md R303): a step of instance k is the one-instance step on it and leaves every other
instance alone, and steps of two instances commute. -/
def Obligations.ContextsAreIndependent : Prop :=
  (∀ (x z : Contexts) (k : Nat), stepContext x k = .next z →
      (∀ j, j ≠ k → z.engines[j]? = x.engines[j]?) ∧
        ∀ s, x.engines[k]? = some s → ∃ t, step s = .next t ∧ z.engines[k]? = some t) ∧
    ∀ (x y z : Contexts) (j k : Nat), j ≠ k → stepContext x j = .next y → stepContext x k = .next z →
      ∃ u, stepContext y k = .next u ∧ stepContext z j = .next u

/-! ### NOP, RESUME and the BitFieldCodec -/

/-- NOP (30_encoding.md R86) and RESUME (48_context_keys.md R268). RESUME runs halted or not and leaves EVENTS and the FAULT registers. -/
def Obligations.NopAndResumeResults : Prop :=
  decode 0x00 = .ok .nop ∧ decode 0x73 = .ok .resume ∧
    (∀ s : State, s.halted = false → exec .nop s = .next { s with r0 := 0, r1 := 0, status := 0 }) ∧
    ∀ s : State, exec .resume s = .next { s with halted := false, r0 := 0, r1 := 0, status := 0 }

/-- The accessors of a CA's fields (41_bitfield_codec.md R100 to R102, R104 to R106): each returns its field of A0 as a number. -/
def Obligations.GetterResults : Prop :=
  decode 0x10 = .ok .caGetPlaintext ∧ decode 0x11 = .ok .caGetCiphertext ∧ decode 0x12 = .ok .caGetEncsize ∧
    decode 0x14 = .ok .caGetSprime ∧ decode 0x15 = .ok .caGetSbit ∧ decode 0x16 = .ok .caGetVersion ∧
    ∀ s : State, s.halted = false →
      exec .caGetPlaintext s = .next { s with r0 := BitVec.ofNat 64 (s.a0.toNat % 2 ^ 32), r1 := 0, status := 0 } ∧
        exec .caGetCiphertext s = .next { s with r0 := BitVec.ofNat 64 (s.a0.toNat / 2 ^ 32 % 2 ^ 24), r1 := 0, status := 0 } ∧
        exec .caGetEncsize s = .next { s with r0 := BitVec.ofNat 64 (s.a0.toNat / 2 ^ 56 % 2 ^ 6), r1 := 0, status := 0 } ∧
        exec .caGetSprime s = .next { s with r0 := BitVec.ofNat 64 (s.a0.toNat / 2 ^ 46 % 2), r1 := 0, status := 0 } ∧
        exec .caGetSbit s = .next { s with r0 := BitVec.ofNat 64 (s.a0.toNat / 2 ^ 62 % 2), r1 := 0, status := 0 } ∧
        exec .caGetVersion s = .next { s with r0 := BitVec.ofNat 64 (s.a0.toNat / 2 ^ 47 % 2 ^ 9), r1 := 0, status := 0 }

/-- The predicates and derived values: CA_GET_ADJUST, CA_IS_CANONICAL, CA_IS_CA and DECODE_SIZE (41_bitfield_codec.md R103, R107, R108,
R109). The size is 2^(e-1) for e = A0[5:0] + MIN_ALLOC_OFFSET in 1 to 64, and 0 otherwise (00_scope.md R4). -/
def Obligations.PredicateResults : Prop :=
  decode 0x13 = .ok .caGetAdjust ∧ decode 0x17 = .ok .caIsCanonical ∧ decode 0x18 = .ok .caIsCa ∧ decode 0x19 = .ok .decodeSize ∧
    ∀ s : State, s.halted = false →
      let size := s.a0.toNat / 2 ^ 56 % 64
      let top := s.a0.toNat / 2 ^ 48
      let e := s.a0.toNat % 64 + Config.hw.mao
      exec .caGetAdjust s = .next { s with
          r0 := if Config.hw.specialSize = some (BitVec.ofNat 6 size) then 1 else 0, r1 := 0, status := 0 } ∧
        exec .caIsCanonical s = .next { s with r0 := if top = 0 ∨ top = 0xFFFF then 1 else 0, r1 := 0, status := 0 } ∧
        exec .caIsCa s = .next { s with r0 := if size = 0 ∨ size = 63 then 0 else 1, r1 := 0, status := 0 } ∧
        exec .decodeSize s = .next { s with
          r0 := if 1 ≤ e ∧ e ≤ 64 then BitVec.ofNat 64 (2 ^ (e - 1)) else 0, r1 := 0, status := 0 }

/-- The mutators (41_bitfield_codec.md R110 to R113): the bits hi:lo of A0 are replaced by the low bits of A1, the others stay. -/
def Obligations.SetterResults : Prop :=
  decode 0x1A = .ok .caSetPlaintext ∧ decode 0x1B = .ok .caSetCiphertext ∧ decode 0x1C = .ok .caSetEncsize ∧
    decode 0x1D = .ok .caSetVersion ∧
    ∀ s : State, s.halted = false → ∀ row ∈ [(Instr.caSetPlaintext, 31, 0), (Instr.caSetCiphertext, 55, 32),
        (Instr.caSetEncsize, 61, 56), (Instr.caSetVersion, 55, 47)],
      ∃ r : Word, exec row.1 s = .next { s with r0 := r, r1 := 0, status := 0 } ∧
        ∀ b, b < 64 → r.getLsbD b = if row.2.2 ≤ b ∧ b ≤ row.2.1 then s.a1.getLsbD (b - row.2.2) else s.a0.getLsbD b

/-- The laws of `setf` (41_bitfield_codec.md R118, R119), for every field hi:lo of a 64-bit word. -/
def Obligations.FieldMutatorLaws : Prop :=
  (∀ (x v : Word) (hi lo : Nat), lo ≤ hi → hi < 64 →
      (∀ b, b < 64 → (setf x hi lo v).getLsbD b = if lo ≤ b ∧ b ≤ hi then v.getLsbD (b - lo) else x.getLsbD b) ∧
        setf x hi lo (x >>> lo) = x) ∧
    (∀ (x u v : Word) (hi lo hi' lo' : Nat), lo ≤ hi → hi < lo' → lo' ≤ hi' → hi' < 64 →
      setf (setf x hi lo u) hi' lo' v = setf (setf x hi' lo' v) hi lo u) ∧
    (∀ (x v : Word), (setf x 55 32 v).toNat / 2 ^ 47 % 2 ^ 9 = v.toNat / 2 ^ 15 % 2 ^ 9 ∧
      (setf x 55 32 v).getLsbD 46 = v.getLsbD 14) ∧
    ∀ (x v : Word), isCa (setf x 61 56 v) = true ↔ 1 ≤ v.toNat % 64 ∧ v.toNat % 64 ≤ 62

/-! ### The SlotSizer -/

/-- CLASSIFY (42_slot_sizer.md R134 over R130 to R133). With the last byte of the clamped range, k is the least number of low bits whose
removal makes first and last byte agree: k at most 32 gives size class k - MAO + 1 and 2^k bytes, otherwise NotBoxable. -/
def Obligations.ClassifyResult : Prop :=
  decode 0x20 = .ok .classify ∧
    ∀ s : State, s.halted = false →
      let mao := Config.hw.mao
      let last := s.a0.toNat + (max s.a1.toNat (2 ^ mao) - 1)
      (∀ k, k ≤ 32 → s.a0.toNat / 2 ^ k = last / 2 ^ k → (∀ j, j < k → s.a0.toNat / 2 ^ j ≠ last / 2 ^ j) →
          exec .classify s = .next { s with
            r0 := BitVec.ofNat 64
              (k + 1 - mao + if Config.hw.specialSize = some (BitVec.ofNat 6 (k + 1 - mao)) then 2 ^ 15 else 0)
            r1 := BitVec.ofNat 64 (2 ^ k), status := 0 }) ∧
        ((∀ k, k ≤ 32 → s.a0.toNat / 2 ^ k ≠ last / 2 ^ k) →
          exec .classify s = .next { s with r0 := 0, r1 := 0, status := 2 ^ 8 })

/-- The laws of the SlotSizer (42_slot_sizer.md R135, R136): the slot contains the range, no smaller aligned power of two does, it is at
least as long as the range, classes grow with the length, and a class lies in 1 to 33 - MAO. -/
def Obligations.SlotSizerLaws : Prop :=
  ∀ (mao : Nat) (a len : Word), mao ≤ 31 →
    let last := a.toNat + (max len.toNat (2 ^ mao) - 1)
    (∀ sc, sizeClass mao a len = some sc →
        let size := 2 ^ (sc + mao - 1)
        sizeBytes mao (BitVec.ofNat 6 sc) = BitVec.ofNat 64 size ∧
          a.toNat / size * size ≤ a.toNat ∧ last ≤ a.toNat / size * size + (size - 1) ∧
          (∀ n, a.toNat / 2 ^ n = last / 2 ^ n → size ≤ 2 ^ n) ∧
          max len.toNat (2 ^ mao) ≤ size ∧
          (∀ len' : Word, len'.toNat ≤ len.toNat → ∃ sc', sizeClass mao a len' = some sc' ∧ sc' ≤ sc) ∧
          1 ≤ sc ∧ sc ≤ 33 - mao) ∧
      (2 ^ 32 < len.toNat → sizeClass mao a len = none) ∧
      (len.toNat = 2 ^ 32 → ((sizeClass mao a len).isSome = true ↔ a.toNat % 2 ^ 32 = 0))

/-! ### The TweakCipher -/

/-- The key schedule (43_tweak_cipher.md R140, R141): selection n is key bit 3^n mod 256, filling DRK and then TRK[0] to TRK[5] from bit
0 upward; only bits 1 and 3 of each key byte matter. -/
def Obligations.KeyScheduleGathersKeyBits : Prop :=
  ∀ key : AddrKey,
    (∀ j, j < 24 → (keySched key).drk.getLsbD j =
        (key.get (Fin.ofNat 32 (3 ^ j % 256 / 8))).getLsbD (3 ^ j % 256 % 8)) ∧
      (∀ (i : Fin 6) (j : Nat), j < 53 → ((keySched key).trk.get i).getLsbD j =
        (key.get (Fin.ofNat 32 (3 ^ (24 + 53 * i.val + j) % 256 / 8))).getLsbD (3 ^ (24 + 53 * i.val + j) % 256 % 8)) ∧
      ∀ key' : AddrKey, (∀ b : Fin 32, (key.get b).getLsbD 1 = (key'.get b).getLsbD 1 ∧
        (key.get b).getLsbD 3 = (key'.get b).getLsbD 3) → keySched key = keySched key'

/-- The tweak schedule (43_tweak_cipher.md R142 to R147): the padded tweak, the CHI layer bit by bit, six stages whose even and odd bits
are the twelve sub-tweaks. -/
def Obligations.TweakScheduleStages : Prop :=
  (∀ t : Word, (pt53 (usedTweak t)).toNat = t.toNat % 2 ^ 40 * 2 + 1) ∧
    (∀ (x : TweakWord) (i : Nat), i < 53 → (chi53 x).getLsbD i =
      (x.getLsbD i != (!x.getLsbD ((i + 1) % 53) && x.getLsbD ((i + 2) % 53)))) ∧
    ∀ (c : TbcParams) (trk : Vector TweakWord 6) (t : Tweak), ∃ st : Nat → TweakWord,
      st 0 = pt53 t ∧
        ∀ i : Fin 6,
          (∃ g : TweakWord,
            (∃ p : TweakWord, (∀ b : Fin 53, p.getLsbD b = (chi53 (st i.val ^^^ trk.get i)).getLsbD (c.ptG.fwd b)) ∧ g = c.mixG p) ∧
            (c.stageRounds i = 1 → st (i.val + 1) = g) ∧
            (c.stageRounds i = 2 → ∃ p : TweakWord, (∀ b : Fin 53, p.getLsbD b = g.getLsbD (c.ptGp.fwd b)) ∧
              st (i.val + 1) = c.mixGp p)) ∧
          ∀ j, j < 24 →
            ((twkSched c trk t).get (Fin.ofNat 12 (2 * i.val))).getLsbD j = (st (i.val + 1)).getLsbD (2 * j) ∧
            ((twkSched c trk t).get (Fin.ofNat 12 (2 * i.val + 1))).getLsbD j = (st (i.val + 1)).getLsbD (2 * j + 1)

/-- The linear layer and the rounds are bijections with the closed inverses of 43_tweak_cipher.md R150 and R153, for every legal choice
of the OPEN tables. -/
def Obligations.RoundsInvert : Prop :=
  (∀ x : Block, lmlInv (lml x) = x ∧ lml (lmlInv x) = x) ∧
    ∀ (c : TbcParams) (r : Fin 12) (x : Block), rndInv c r (rnd c r x) = x ∧ rnd c r (rndInv c r x) = x

/-- The layers of the rounds (43_tweak_cipher.md R148 to R150), bit by bit: the S-box and its inverse on each of the four nibbles, the
three permutations and their inverses in gather form (00_scope.md R6), the linear layer and its inverse. Then the rounds and their order
(R151 to R155): decryption goes 0 to 11 from `c ^ DRK`, each round XORing its sub-tweak first; encryption goes 11 to 0, XORing the sub-tweak
after each inverse round, and ends with `^ DRK`. -/
def Obligations.CipherRoundOrder : Prop :=
  ∀ (c : TbcParams) (ks : KeySchedule) (x : Block) (t : Word),
    (∀ k, k < 4 →
        (nibbles c.sbox x).extractLsb' (6 * k) 6 = c.sbox (x.extractLsb' (6 * k) 6) ∧
          (nibbles c.sboxInv x).extractLsb' (6 * k) 6 = c.sboxInv (x.extractLsb' (6 * k) 6)) ∧
      (∀ v, c.sboxInv (c.sbox v) = v ∧ c.sbox (c.sboxInv v) = v) ∧
      (∀ p ∈ [c.p1, c.p2, c.p3], ∀ b : Fin 24,
        (permBits p.fwd x).getLsbD b = x.getLsbD (p.fwd b) ∧ (permBits p.inv x).getLsbD b = x.getLsbD (p.inv b) ∧
          p.inv (p.fwd b) = b) ∧
      (∀ b, b < 24 →
        (lml x).getLsbD b = ((x.getLsbD b ^^ x.getLsbD ((b + 2) % 24)) ^^ x.getLsbD ((b + 12) % 24)) ∧
          (lmlInv x).getLsbD b =
            ((x.getLsbD ((b + 8) % 24) ^^ x.getLsbD ((b + 20) % 24)) ^^ x.getLsbD ((b + 22) % 24))) ∧
      lmlInv (lml x) = x ∧
      (∃ d : Nat → Block, d 0 = x ^^^ ks.drk ∧
        (∀ r : Fin 12, d (r.val + 1) = rnd c r (d r.val ^^^ (twkSched c ks.trk (usedTweak t)).get r)) ∧
        tbcDec c ks x t = d 12) ∧
      (∃ e : Nat → Block, e 12 = x ∧
        (∀ r : Fin 12, e r.val = rndInv c r (e (r.val + 1)) ^^^ (twkSched c ks.trk (usedTweak t)).get r) ∧
        tbcEnc c ks x t = e 0 ^^^ ks.drk) ∧
      ∀ (r : Fin 12) (y : Block),
        if r.val < 3 ∨ 9 ≤ r.val then
          rnd c r y = permBits c.p3.fwd (nibbles c.sbox y) ∧ rndInv c r y = nibbles c.sboxInv (permBits c.p3.inv y)
        else
          rnd c r y = permBits c.p2.fwd (lml (permBits c.p1.fwd (nibbles c.sbox y))) ∧
            rndInv c r y = nibbles c.sboxInv (permBits c.p1.inv (lmlInv (permBits c.p2.inv y)))

/-- The cipher's involution pairing (43_tweak_cipher.md R156), for every instantiation of the OPEN tables, key schedule, block and tweak;
Enc is a bijection, and only bits 39:0 of a tweak matter. -/
def Obligations.CipherInvolution : Prop :=
  ∀ (c : TbcParams) (ks : KeySchedule) (t : Word),
    (∀ b : Block, tbcDec c ks (tbcEnc c ks b t) t = b ∧ tbcEnc c ks (tbcDec c ks b t) t = b) ∧
      Function.Bijective (fun b => tbcEnc c ks b t) ∧
      ∀ (t' : Word), t.toNat % 2 ^ 40 = t'.toNat % 2 ^ 40 → ∀ b : Block,
        tbcEnc c ks b t = tbcEnc c ks b t' ∧ tbcDec c ks b t = tbcDec c ks b t'

/-- TBC_ENC and TBC_DEC (43_tweak_cipher.md R160, R161, with the cache rule R157): with a valid K_ADDR and a coherent cache the result is
Enc or Dec of A0[23:0] under A1, and the cache then holds that tweak's schedule (R157, as log entry 17 reads it). -/
def Obligations.CipherCommandResults : Prop :=
  decode 0x30 = .ok .tbcEnc ∧ decode 0x31 = .ok .tbcDec ∧
    ∀ s : State, s.halted = false → s.validAddr = true → CacheCoherent s →
      exec .tbcEnc s = .next { holdingSchedule s s.a1 with
        r0 := (tbcEnc Config.hw.tbc s.ks (BitVec.ofNat 24 s.a0.toNat) s.a1).setWidth 64, r1 := 0, status := 0 } ∧
      exec .tbcDec s = .next { holdingSchedule s s.a1 with
        r0 := (tbcDec Config.hw.tbc s.ks (BitVec.ofNat 24 s.a0.toNat) s.a1).setWidth 64, r1 := 0, status := 0 }

/-! ### The StreamPRF and the DataCipher -/

/-- The layers of the permutation (44_stream_prf.md R171 to R177): constant, sequential mixing, the 5-cycle non-linear layer bit by bit,
the diffusion as three rotations, the final complement, and the order of the twelve rounds. -/
def Obligations.PermutationLayers : Prop :=
  ∀ c : PrfParams,
    (∀ (r : Fin 12) (x : Lanes), ∃ y : Lanes,
        y = mixLanes c.postmix (chiLanes (mixLanes c.premix (x.set 2 (x.get 2 ^^^ c.rc r)))) ∧
          ∀ i : Fin 5,
            let d := y.get i ^^^ (y.get i).rotateRight (c.rot i).2.val ^^^ (y.get i).rotateRight ((c.rot i).1.val + (c.rot i).2.val)
            (prfRound c r x).get i = if i = 2 then ~~~d else d) ∧
      (∀ (x : Lanes) (i : Fin 5) (b : Nat), b < 64 → ((chiLanes x).get i).getLsbD b =
        ((x.get i).getLsbD b != (!(x.get (Fin.ofNat 5 (i.val + 1))).getLsbD b && (x.get (Fin.ofNat 5 (i.val + 2))).getLsbD b))) ∧
      (∀ (pairs : List (Fin 5 × Fin 5)) (d e : Fin 5) (x : Lanes), mixLanes [] x = x ∧
        mixLanes ((d, e) :: pairs) x = mixLanes pairs (x.set d (x.get d ^^^ x.get e))) ∧
      ∀ x : Lanes, ∃ y : Nat → Lanes, y 0 = x ∧ (∀ r : Fin 12, y (r.val + 1) = prfRound c r (y r.val)) ∧ p12 c x = y 12

/-- PRF_STREAM with a valid 16-byte key (44_stream_prf.md R180 over R176, R178): the key's first eight bytes in lane 1 and its last eight
in lane 2, little-endian; the input, PRF_PAD and PRF_DSEP XORed into lanes 0, 1 and 4 between the two permutations. -/
def Obligations.PrfStreamResult : Prop :=
  decode 0x038 = .ok (.prfStream .sharedKey) ∧ decode 0x138 = .ok (.prfStream .privateKey) ∧
    decode 0x238 = .ok (.prfStream .codeKey) ∧
    ∀ (s : State) (k : KeySlot) (key : DataKey), s.halted = false → dataKey s k = some key → keyValid s k = true →
      ∃ (kl kh : Word) (m : Lanes),
        (∀ j : Fin 8, kl.extractLsb' (8 * j.val) 8 = key.get (Fin.ofNat 16 j.val) ∧
          kh.extractLsb' (8 * j.val) 8 = key.get (Fin.ofNat 16 (j.val + 8))) ∧
        m = p12 Config.hw.prf #v[Config.hw.prf.iv, kl, kh, 0, 0] ∧
        exec (.prfStream k) s = .next { s with
          r0 := (p12 Config.hw.prf #v[m.get 0 ^^^ s.a0, m.get 1 ^^^ Config.hw.prf.pad, m.get 2, m.get 3,
            m.get 4 ^^^ Config.hw.prf.dsep]).get 0
          r1 := 0, status := 0 }

/-- The laws of the data mask (46_data_cipher.md R210, R211, R213): each byte by its own address, an involution, and splitting. -/
def Obligations.DataMaskLaws : Prop :=
  ∀ (c : PrfParams) (key : DataKey) (a : Word) (d e : List Byte),
    (maskBytes c key a d).length = d.length ∧
      (∀ i, i < d.length →
        let ba := (a.toNat + i) % 2 ^ 64
        (maskBytes c key a d).getD i 0 =
          d.getD i 0 ^^^ (stream c (BitVec.ofNat 64 (ba / 8 * 8)) key).extractLsb' (8 * (ba % 8)) 8) ∧
      maskBytes c key a (maskBytes c key a d) = d ∧
      maskBytes c key a (d ++ e) = maskBytes c key a d ++ maskBytes c key (a + BitVec.ofNat 64 d.length) e

/-- DATA_MASK (46_data_cipher.md R212): bytes 0 to len - 1 of DBUF are XORed with the keystream bytes of the addresses from A0 on, every
other byte of DBUF and all other state stay. -/
def Obligations.DataMaskResult : Prop :=
  decode 0x050 = .ok (.dataMask .sharedKey) ∧ decode 0x150 = .ok (.dataMask .privateKey) ∧
    decode 0x250 = .ok (.dataMask .codeKey) ∧
    ∀ (s : State) (k : KeySlot) (key : DataKey), s.halted = false → Memory.wf s.dbuf = true → s.a1.toNat ≤ 128 →
      dataKey s k = some key → keyValid s k = true →
      ∃ d : Memory, Memory.wf d = true ∧
        (∀ i, cellsRead d i = if i < s.a1.toNat then
            let ba := (s.a0.toNat + i) % 2 ^ 64
            cellsRead s.dbuf i ^^^ (stream Config.hw.prf (BitVec.ofNat 64 (ba / 8 * 8)) key).extractLsb' (8 * (ba % 8)) 8
          else cellsRead s.dbuf i) ∧
        exec (.dataMask k) s = .next { s with dbuf := d, r0 := s.a1, r1 := 0, status := 0 }

/-! ### The PointerCodec -/

/-- The pointer tweak (45_pointer_codec.md R192): the plaintext bits above the slot's own, and the size in bits 37:32. -/
def Obligations.PointerTweakValue : Prop :=
  ∀ (mao : Nat) (x : Word) (z : BitVec 6), mao ≤ 31 →
    let e := z.toNat + mao
    (ptrTweak mao x z).toNat =
      (if 1 ≤ e ∧ e ≤ 32 then x.toNat % 2 ^ 32 / 2 ^ (e - 1) * 2 ^ (e - 1) else 0) + z.toNat * 2 ^ 32

/-- PTR_DECORATE and PTR_UNDECORATE (45_pointer_codec.md R200, R203 over R191, R194), bit by bit; they need no key. -/
def Obligations.DecorateResults : Prop :=
  decode 0x40 = .ok .ptrDecorate ∧ decode 0x43 = .ok .ptrUndecorate ∧
    ∀ s : State, s.halted = false →
      (∃ r : Word, exec .ptrDecorate s = .next { s with r0 := r, r1 := 0, status := 0 } ∧
        ∀ b, b < 64 → r.getLsbD b = if 56 ≤ b ∧ b ≤ 61 then s.a1.getLsbD (b - 56)
          else if 47 ≤ b ∧ b ≤ 55 then s.a1.getLsbD (b - 47 + 6) else s.a0.getLsbD b) ∧
      ∃ r : Word, exec .ptrUndecorate s = .next { s with r0 := r, r1 := 0, status := 0 } ∧
        ∀ b, b < 64 → r.getLsbD b = if 47 ≤ b then s.a0.getLsbD 46 else s.a0.getLsbD b

/-- PTR_ENCRYPT, PTR_DECRYPT, PTR_ENCODE and PTR_DECODE (45_pointer_codec.md R201, R202, R204, R205): the composed function of A0 (and
A1[15:0]). That the cache afterwards holds the tweak of the value rests on 43_tweak_cipher.md R157 and is the model's reading of it, log
entry 17 (DEDUCED). -/
def Obligations.PointerCommandResults : Prop :=
  decode 0x41 = .ok .ptrEncrypt ∧ decode 0x42 = .ok .ptrDecrypt ∧ decode 0x44 = .ok .ptrEncode ∧ decode 0x45 = .ok .ptrDecode ∧
    ∀ s : State, s.halted = false → s.validAddr = true → CacheCoherent s →
      let md := BitVec.ofNat 16 s.a1.toNat
      let size := BitVec.ofNat 6 s.a1.toNat
      let ownSize := BitVec.ofNat 6 (s.a0.toNat / 2 ^ 56)
      exec .ptrEncrypt s = .next { holdingSchedule s (ptrTweak Config.hw.mao s.a0 size) with
          r0 := encryptPtr Config.hw s.ks s.a0 md, r1 := 0, status := 0 } ∧
        exec .ptrDecrypt s = .next { holdingSchedule s (ptrTweak Config.hw.mao s.a0 ownSize) with
          r0 := decryptPtr Config.hw s.ks s.a0, r1 := 0, status := 0 } ∧
        exec .ptrEncode s = .next { holdingSchedule s (ptrTweak Config.hw.mao s.a0 size) with
          r0 := encodePointer Config.hw s.ks s.a0 md, r1 := 0, status := 0 } ∧
        exec .ptrDecode s = .next { holdingSchedule s (ptrTweak Config.hw.mao s.a0 ownSize) with
          r0 := decodePointer Config.hw s.ks s.a0, r1 := 0, status := 0 }

/-- PTR_DECODE_IF (45_pointer_codec.md R206): a plain address needs no key and comes back unchanged with R1 = 0; a CA is decoded, R1 = 1;
running it on its own result changes nothing. That the cache is filled for a CA and not touched for a plain address is the model's reading
of 43_tweak_cipher.md R157, log entry 17 (DEDUCED). -/
def Obligations.DecodeIfResult : Prop :=
  decode 0x46 = .ok .ptrDecodeIf ∧
    (∀ s : State, s.halted = false →
      let size := s.a0.toNat / 2 ^ 56 % 64
      (size = 0 ∨ size = 63 → exec .ptrDecodeIf s = .next { s with r0 := s.a0, r1 := 0, status := 0 }) ∧
        (size ≠ 0 → size ≠ 63 → s.validAddr = true → CacheCoherent s →
          exec .ptrDecodeIf s = .next { holdingSchedule s (ptrTweak Config.hw.mao s.a0 (BitVec.ofNat 6 size)) with
            r0 := decodePointer Config.hw s.ks s.a0, r1 := 1, status := 0 })) ∧
    ∀ s t : State, s.halted = false → exec .ptrDecodeIf s = .next t → t.status.toNat % 256 = 0 →
      exec .ptrDecodeIf { t with a0 := t.r0 } = .next { t with a0 := t.r0, r1 := 0, status := 0 }

/-- The laws of the PointerCodec (45_pointer_codec.md R199): (a) decryption undoes encryption when the size is the value's own; (b) the
round trip holds exactly for addresses sign-extended from bit 46; (c) the decoded address does not depend on the version; (d) pointer
arithmetic inside the slot; (e) an encoded canonical address differs from the address. -/
def Obligations.PointerCodecLaws : Prop :=
  ∀ (c : Config) (ks : KeySchedule) (a : Word) (md : BitVec 16),
    (md.toNat % 64 = a.toNat / 2 ^ 56 % 64 → decryptPtr c ks (encryptPtr c ks a md) = a) ∧
      (decodePointer c ks (encodePointer c ks a md) = a ↔ ∀ b, 47 ≤ b → b < 64 → a.getLsbD b = a.getLsbD 46) ∧
      (∀ md' : BitVec 16, md'.toNat % 64 = md.toNat % 64 →
        decodePointer c ks (encodePointer c ks a md) = decodePointer c ks (encodePointer c ks a md')) ∧
      (∀ k : Nat,
        let e := md.toNat % 64 + c.mao
        let slotBits := if 1 ≤ e ∧ e ≤ 33 then e - 1 else 32
        a.toNat % 2 ^ slotBits + k < 2 ^ slotBits →
          decodePointer c ks (encodePointer c ks a md + BitVec.ofNat 64 k) =
            decodePointer c ks (encodePointer c ks a md) + BitVec.ofNat 64 k) ∧
      (1 ≤ md.toNat % 64 → md.toNat % 64 ≤ 62 → a.toNat / 2 ^ 48 = 0 ∨ a.toNat / 2 ^ 48 = 0xFFFF →
        encodePointer c ks a md ≠ a)

/-- A decoded value is canonical and never a CA, and a classified, encoded address always is one (45_pointer_codec.md R194,
42_slot_sizer.md R136): CLASSIFY's metadata makes a CA of every address. -/
def Obligations.DecodedIsPlainEncodedIsCa : Prop :=
  (∀ x : Word, isCanonical (undecorate x) = true ∧ isCa (undecorate x) = false) ∧
    ∀ (c : Config) (ks : KeySchedule) (a len : Word) (sc : Nat) (v : BitVec 9), sizeClass c.mao a len = some sc →
      isCa (encodePointer c ks a (packMd (adjustOf c.specialSize (BitVec.ofNat 6 sc)) v (BitVec.ofNat 6 sc))) = true

/-! ### The IntegrityMap -/

/-- The match rule (47_integrity_map.md R224, R226) and its consequences: a non-CA matches exactly the entries whose bits 63:3 are zero,
a CA never matches an absent entry, nothing matches the all-ones sentinel. -/
def Obligations.MatchRule : Prop :=
  ∀ x old : Word,
    let size := x.toNat / 2 ^ 56 % 64
    (ptrMatches x old = true ↔ old.toNat / 8 = if size = 0 ∨ size = 63 then 0 else x.toNat / 8) ∧
      (size = 0 ∨ size = 63 → (ptrMatches x old = true ↔ old.toNat < 8)) ∧
      (size ≠ 0 → size ≠ 63 → ptrMatches x 0 = false) ∧ ptrMatches x 0xFFFFFFFFFFFFFFFF = false

/-- The refresh rule (47_integrity_map.md R227): bits 63:3 are the fingerprint's, the flag bits are kept, but a write under PREINIT clears
INIT_N. -/
def Obligations.RefreshRule : Prop :=
  ∀ (old x : Word) (kind : AccessKind) (b : Nat), b < 64 →
    (refresh old x kind).getLsbD b =
      if 3 ≤ b then (x.getLsbD b && decide (x.toNat / 2 ^ 56 % 64 ≠ 0 ∧ x.toNat / 2 ^ 56 % 64 ≠ 63))
      else if b = 1 ∧ kind = .write ∧ old.getLsbD 2 = true then false
      else old.getLsbD b

/-- Reporting a violation (60_exceptions.md R283): the four policies, each with the effects of the weaker ones; the FAULT registers take
the violation only while FAULT_CAUSE is 0. -/
def Obligations.ReportByPolicy : Prop :=
  ∀ (s : State) (v : Violation) (g x : Word),
    let c := if v = .mismatch then 1 else 2
    let pol := if v = .mismatch then s.icvCtrl.toNat / 4 % 4 else s.icvCtrl.toNat / 16 % 4
    (∀ b, b < 64 → (report s v g x).1.events.getLsbD b =
        (s.events.getLsbD b || decide ((1 ≤ pol ∧ b = c - 1) ∨ (2 ≤ pol ∧ b = 3) ∨ (pol = 3 ∧ b = 4)))) ∧
      (report s v g x).2 = decide (pol = 3) ∧
      (report s v g x).1 =
        if 2 ≤ pol ∧ s.faultCause = 0 then
          { s with events := (report s v g x).1.events, faultCause := BitVec.ofNat 64 c, faultGaddr := g, faultPtr := x }
        else { s with events := (report s v g x).1.events }

/-- ICV_SET, ICV_INIT, ICV_PREINIT and ICV_INVALIDATE (47_integrity_map.md R230, R233 to R235 with R223): the entry of the granule takes
the value of its rule and every other entry stays, unless the map would then need too many blocks. -/
def Obligations.EntryStoreResults : Prop :=
  decode 0x60 = .ok .icvSet ∧ decode 0x63 = .ok .icvInit ∧ decode 0x64 = .ok .icvPreinit ∧ decode 0x65 = .ok .icvInvalidate ∧
    ∀ s : State, s.halted = false → icvWf s.icv = true →
      let size := s.a1.toNat / 2 ^ 56 % 64
      let fp := if size = 0 ∨ size = 63 then 0 else s.a1.toNat / 8 * 8
      ∀ row ∈ [(Instr.icvSet, s.a0.toNat % 2 ^ 61, s.a1), (Instr.icvInit, s.a0.toNat / 8, BitVec.ofNat 64 fp),
          (Instr.icvPreinit, s.a0.toNat / 8, BitVec.ofNat 64 (fp + 6)), (Instr.icvInvalidate, s.a0.toNat / 8, 0xFFFFFFFFFFFFFFFF)],
        ∃ m : IcvMap, icvWf m = true ∧ (∀ j, cellsRead m j = if j = row.2.1 then row.2.2 else cellsRead s.icv j) ∧
          exec row.1 s = .next (underCapacity s { s with icv := m, r0 := 0, r1 := 0, status := 0 })

/-- The capacity rule (47_integrity_map.md R223, 10_state.md R42), for every configuration: unbounded, no map needs too many blocks;
with a limit a map does exactly when more blocks than that hold a non-zero entry; a block counts exactly when its occupancy is above
zero. -/
def Obligations.CapacityRule : Prop :=
  ∀ (c : Config) (m : IcvMap), icvWf m = true →
    let blocks := { b : Nat | ∃ i, i / 2 ^ c.icvBlockBits = b ∧ cellsRead m i ≠ 0 }
    (c.icvMaxBlocks = none → icvOverfull c m = false) ∧
      (∀ limit, c.icvMaxBlocks = some limit → (icvOverfull c m = true ↔ limit < blocks.ncard)) ∧
      icvBlocks c m = blocks.ncard ∧ ∀ b, b ∈ blocks ↔ 0 < blockOccupancy c m b

/-- ICV_GET (47_integrity_map.md R231): the entry of index A0[60:0], 0 when absent; the map does not change. -/
def Obligations.EntryGetResult : Prop :=
  decode 0x61 = .ok .icvGet ∧
    ∀ s : State, s.halted = false →
      exec .icvGet s = .next { s with r0 := cellsRead s.icv (s.a0.toNat % 2 ^ 61), r1 := 0, status := 0 }

/-- ICV_CHECK_OR_SET (47_integrity_map.md R232 over R228): with the lock disabled the entry is refreshed and nothing is checked; with the
lock enabled the mismatch and then the uninitialized read are reported, a write refreshes the entry, and HALTED is set at the end if a
report was made under Break. The capacity rule R223 stands around all of it; that it refuses even a read that stores nothing, on a map
already over the limit, is the model's reading, log entry 14 (DEDUCED). -/
def Obligations.CheckOrSetResult : Prop :=
  decode 0x062 = .ok (.icvCheckOrSet .read) ∧ decode 0x462 = .ok (.icvCheckOrSet .write) ∧
    ∀ (s : State) (kind : AccessKind), s.halted = false → icvWf s.icv = true →
      let i := s.a0.toNat / 8
      let old := cellsRead s.icv i
      let lock := s.icvCtrl.getLsbD 0
      let mis := lock && !ptrMatches s.a1 old
      let uni := lock && decide (kind = .read) && old.getLsbD 1
      let afterMis := if mis = true then report s .mismatch (BitVec.ofNat 64 (8 * i)) s.a1 else (s, false)
      let afterUni := if uni = true then report afterMis.1 .uninit (BitVec.ofNat 64 (8 * i)) s.a1 else (afterMis.1, false)
      ∃ m : IcvMap, icvWf m = true ∧
        (∀ j, cellsRead m j = if j = i ∧ (lock = false ∨ kind = .write) then refresh old s.a1 kind else cellsRead s.icv j) ∧
        exec (.icvCheckOrSet kind) s = .next (underCapacity s
          { afterUni.1 with
            icv := m
            r0 := BitVec.ofNat 64 ((if mis = true then 1 else 0) + (if uni = true then 2 else 0))
            r1 := old
            status := BitVec.ofNat 63 ((if mis = true then 2 ^ 9 else 0) + (if uni = true then 2 ^ 10 else 0))
            halted := afterMis.2 || afterUni.2 })

/-- ICV_CORRECT (47_integrity_map.md R236): on a mismatch under CORRECT_ON_FAIL the entry's bits 63:3 replace the pointer's; nothing is
reported and the map does not change. The corrected value matches on a retry when the stored bits are a CA's or zero, and not when the
entry is the sentinel. -/
def Obligations.CorrectResult : Prop :=
  decode 0x66 = .ok .icvCorrect ∧
    (∀ s : State, s.halted = false →
      let old := cellsRead s.icv (s.a1.toNat / 8)
      let mis := ptrMatches s.a0 old = false
      let fixed := mis ∧ s.icvCtrl.getLsbD 1 = true
      exec .icvCorrect s = .next { s with
        r0 := if fixed then BitVec.ofNat 64 (old.toNat / 8 * 8 + s.a0.toNat % 8) else s.a0
        r1 := old
        status := BitVec.ofNat 63 ((if mis then 2 ^ 9 else 0) + (if fixed then 2 ^ 12 else 0)) }) ∧
    ∀ x old : Word,
      let y := BitVec.ofNat 64 (old.toNat / 8 * 8 + x.toNat % 8)
      (isCa old = true ∨ old.toNat / 8 = 0 → ptrMatches y old = true) ∧ (old = 0xFFFFFFFFFFFFFFFF → ptrMatches y old = false)

/-- ICV_ACCESS (47_integrity_map.md R240 to R243; 60_exceptions.md R285, R286): granule k is checked against A1 + 8k; the bitmaps, the
flags, the reports in ascending granule order with the mismatch first, the refresh of every granule, EV_MIXED under every policy, and
HALTED at the end if a report was made under Break. The capacity rule R223 stands around all of it; that it refuses even a read that
stores nothing, on a map already over the limit, is the model's reading, log entry 14 (DEDUCED). -/
def Obligations.AccessResult : Prop :=
  decode 0x067 = .ok (.icvAccess .read) ∧ decode 0x467 = .ok (.icvAccess .write) ∧
    ∀ (s : State) (kind : AccessKind), s.halted = false → icvWf s.icv = true → s.a2.toNat ≤ 128 →
      (0 < s.a2.toNat → s.a0.toNat + (s.a2.toNat - 1) < 2 ^ 64) →
      let first := s.a0.toNat / 8
      let n := if s.a2.toNat = 0 then 0 else (s.a0.toNat + (s.a2.toNat - 1)) / 8 - first + 1
      let ptr := fun k : Nat => s.a1 + BitVec.ofNat 64 (8 * k)
      let old := fun k : Nat => cellsRead s.icv (first + k)
      let lock := s.icvCtrl.getLsbD 0
      let mis := fun k : Nat => lock && !ptrMatches (ptr k) (old k)
      let uni := fun k : Nat => lock && decide (kind = .read) && (old k).getLsbD 1
      let reports := (List.range n).flatMap fun k =>
        (if mis k = true then [(Violation.mismatch, k)] else []) ++ (if uni k = true then [(Violation.uninit, k)] else [])
      let t := reports.foldl (fun u v => (report u v.1 (BitVec.ofNat 64 (8 * (first + v.2))) (ptr v.2)).1) s
      let anyMis := (List.range n).any mis
      let anyUni := (List.range n).any uni
      let mixed := anyMis && (List.range n).any (fun k => !mis k)
      ∃ (m : IcvMap) (r0 r1 : Word), icvWf m = true ∧
        (∀ j, cellsRead m j = if first ≤ j ∧ j < first + n ∧ (lock = false ∨ kind = .write) then
          refresh (old (j - first)) (ptr (j - first)) kind else cellsRead s.icv j) ∧
        (∀ k, k < 64 → r0.getLsbD k = (decide (k < n) && mis k) ∧ r1.getLsbD k = (decide (k < n) && uni k)) ∧
        exec (.icvAccess kind) s = .next (underCapacity s
          { t with
            icv := m, r0 := r0, r1 := r1
            status := BitVec.ofNat 63 ((if anyMis = true then 2 ^ 9 else 0) + (if anyUni = true then 2 ^ 10 else 0) +
              (if mixed = true then 2 ^ 11 else 0))
            events := t.events ||| (if mixed = true then 4 else 0)
            halted := reports.any fun v => decide (policyFor s v.1 = .brk) })

/-- The laws of the map (47_integrity_map.md R244, 10_state.md R35): (a) no command leaves a zero entry behind, and ICV_COUNT is the
number of indices with a non-zero entry; (b) a locked read access leaves the map; (c) after a locked write access the granules match;
(d) who may clear PREINIT and INIT_N; (e) the key and context commands leave the map. -/
def Obligations.IntegrityMapLaws : Prop :=
  ∀ (i : Instr) (s t : State), icvWf s.icv = true → exec i s = .next t →
    (icvWf t.icv = true ∧ (icvCount t).toNat = Set.ncard { j : Nat | j < 2 ^ 61 ∧ cellsRead t.icv j ≠ 0 }) ∧
      (s.icvCtrl.getLsbD 0 = true → i = .icvCheckOrSet .read ∨ i = .icvAccess .read → t.icv = s.icv) ∧
      (s.icvCtrl.getLsbD 0 = true → s.halted = false → t.status.toNat % 256 = 0 →
        (i = .icvCheckOrSet .write → ptrMatches s.a1 (cellsRead t.icv (s.a0.toNat / 8)) = true) ∧
        (i = .icvAccess .write → ∀ k, s.a0.toNat / 8 + k ≤ (s.a0.toNat + (s.a2.toNat - 1)) / 8 → 0 < s.a2.toNat →
          ptrMatches (s.a1 + BitVec.ofNat 64 (8 * k)) (cellsRead t.icv (s.a0.toNat / 8 + k)) = true)) ∧
      (∀ j,
        ((cellsRead s.icv j).getLsbD 2 = true → (cellsRead t.icv j).getLsbD 2 = false → i = .icvInit ∨ i = .icvSet) ∧
        ((cellsRead s.icv j).getLsbD 1 = true → (cellsRead t.icv j).getLsbD 1 = false →
          i = .icvInit ∨ i = .icvSet ∨
            ((i = .icvCheckOrSet .write ∨ i = .icvAccess .write) ∧ (cellsRead s.icv j).getLsbD 2 = true))) ∧
      ((∃ k, i = .keySet k) ∨ i = .ctxSave ∨ i = .ctxLoad → t.icv = s.icv)

/-! ### Keys and the context record -/

/-- KEY_SET (48_context_keys.md R260, R261): the slot takes DBUF[0..15], or DBUF[0..31] for slot 3, and becomes valid; slot 3 re-derives
KS and invalidates the tweak cache; DBUF stays. That TC_TWEAK and TC_RTK keep their values when TC_VALID is cleared is the model's choice,
log entry 6 (DEDUCED); 93_implementation_defined.md U20 allows any value there. -/
def Obligations.KeySetResults : Prop :=
  decode 0x070 = .ok (.keySet .sharedKey) ∧ decode 0x170 = .ok (.keySet .privateKey) ∧ decode 0x270 = .ok (.keySet .codeKey) ∧
    decode 0x370 = .ok (.keySet .addrKey) ∧
    ∀ s : State, s.halted = false →
      let key : DataKey := .ofFn fun j => cellsRead s.dbuf j.val
      let ka : AddrKey := .ofFn fun j => cellsRead s.dbuf j.val
      exec (.keySet .sharedKey) s = .next { s with kShared := key, validShared := true, r0 := 0, r1 := 0, status := 0 } ∧
        exec (.keySet .privateKey) s = .next { s with kPrivate := key, validPrivate := true, r0 := 0, r1 := 0, status := 0 } ∧
        exec (.keySet .codeKey) s = .next { s with kCode := key, validCode := true, r0 := 0, r1 := 0, status := 0 } ∧
        exec (.keySet .addrKey) s = .next { s with
          kAddr := ka, validAddr := true, ks := keySched ka, tcValid := false, r0 := 0, r1 := 0, status := 0 }

/-- CTX_SAVE (48_context_keys.md R266 with the layout R264): the three words little-endian and the four keys go to DBUF[0..103], every
other byte of DBUF and all other state stay. -/
def Obligations.ContextSaveResult : Prop :=
  decode 0x71 = .ok .ctxSave ∧
    ∀ s : State, s.halted = false → Memory.wf s.dbuf = true →
      ∃ d : Memory, Memory.wf d = true ∧
        (∀ j, j < 8 → cellsRead d j = s.ctxFlags.extractLsb' (8 * j) 8 ∧ cellsRead d (8 + j) = s.ctxShadow.extractLsb' (8 * j) 8 ∧
          cellsRead d (16 + j) = s.ctxRsvd.extractLsb' (8 * j) 8) ∧
        (∀ j : Fin 16, cellsRead d (24 + j.val) = s.kShared.get j ∧ cellsRead d (40 + j.val) = s.kPrivate.get j ∧
          cellsRead d (56 + j.val) = s.kCode.get j) ∧
        (∀ j : Fin 32, cellsRead d (72 + j.val) = s.kAddr.get j) ∧
        (∀ a, 104 ≤ a → cellsRead d a = cellsRead s.dbuf a) ∧
        exec .ctxSave s = .next { s with dbuf := d, r0 := 0, r1 := 0, status := 0 }

/-- CTX_LOAD (48_context_keys.md R267 with the layout R264): the context words and the four keys come from DBUF[0..103], all keys become
valid, KS is re-derived and the tweak cache invalidated; DBUF and all other state stay. That TC_TWEAK and TC_RTK keep their values when
TC_VALID is cleared is the model's choice, log entry 6 (DEDUCED); 93_implementation_defined.md U20 allows any value there. -/
def Obligations.ContextLoadResult : Prop :=
  decode 0x72 = .ok .ctxLoad ∧
    ∀ s : State, s.halted = false →
      let ka : AddrKey := .ofFn fun j => cellsRead s.dbuf (72 + j.val)
      ∃ f h r : Word,
        (∀ j, j < 8 → f.extractLsb' (8 * j) 8 = cellsRead s.dbuf j ∧ h.extractLsb' (8 * j) 8 = cellsRead s.dbuf (8 + j) ∧
          r.extractLsb' (8 * j) 8 = cellsRead s.dbuf (16 + j)) ∧
        exec .ctxLoad s = .next { s with
          ctxFlags := f, ctxShadow := h, ctxRsvd := r
          kShared := .ofFn fun j => cellsRead s.dbuf (24 + j.val), kPrivate := .ofFn fun j => cellsRead s.dbuf (40 + j.val)
          kCode := .ofFn fun j => cellsRead s.dbuf (56 + j.val), kAddr := ka
          validShared := true, validPrivate := true, validCode := true, validAddr := true
          ks := keySched ka, tcValid := false, r0 := 0, r1 := 0, status := 0 }

/-- Saving and loading (48_context_keys.md R267, its last law): CTX_SAVE and then CTX_LOAD change nothing but KEY_VALID and TC_VALID (and
the buffer and results each of them writes); CTX_LOAD and then CTX_SAVE leave DBUF as it was. That TC_TWEAK and TC_RTK keep their values is
the model's choice, log entry 6 (DEDUCED). -/
def Obligations.ContextSaveLoadLaws : Prop :=
  ∀ s t u : State, s.halted = false → Memory.wf s.dbuf = true →
    (ScheduleCoherent s → exec .ctxSave s = .next t → exec .ctxLoad t = .next u →
      u = { s with
        dbuf := t.dbuf, validShared := true, validPrivate := true, validCode := true, validAddr := true
        tcValid := false, r0 := 0, r1 := 0, status := 0 }) ∧
    (exec .ctxLoad s = .next t → exec .ctxSave t = .next u → u.dbuf = s.dbuf)

/-! ### Programs -/

/-- The pseudo-instructions that are lists of transactions (30_encoding.md R95, R97): a command line writes its operands and runs its
command, LDBUF puts its bytes (the last word padded with zeros) at the start of DBUF, LOADKEY does that and runs KEY_SET, CLREV
acknowledges events. -/
def Obligations.PseudoInstructionEffects : Prop :=
  (∀ (s : State) (i : Instr), runInputs s (expandPseudo (.cmd i)) = exec i s) ∧
    (∀ (s : State) (l : CommandLine), runInputs s (expandPseudo (.line l)) =
      exec l.command { s with a0 := l.a0.getD s.a0, a1 := l.a1.getD s.a1, a2 := l.a2.getD s.a2 }) ∧
    (∀ (s : State) (mask : Word), runInputs s (expandPseudo (.clrev mask)) = .next (ackEvents s mask)) ∧
    ∀ (s : State) (bytes : List Byte), Memory.wf s.dbuf = true → bytes.length ≤ 128 →
      ∃ d : Memory, Memory.wf d = true ∧
        (∀ a, cellsRead d a = if a < (bytes.length + 7) / 8 * 8 then bytes.getD a 0 else cellsRead s.dbuf a) ∧
        runInputs s (expandPseudo (.ldbuf bytes)) = .next { s with dbuf := d } ∧
        ∀ k : KeySlot, runInputs s (expandPseudo (.loadkey k bytes)) = exec (.keySet k) { s with dbuf := d }

/-- The pseudo-instruction ENCODE (30_encoding.md R97): a range that is not boxable leaves the address unencoded; otherwise the result is
the encoded address under CLASSIFY's metadata with the version OR-ed in at bit 6. -/
def Obligations.EncodePseudoInstruction : Prop :=
  ∀ (s : State) (a len ver : Word), s.halted = false → s.validAddr = true → CacheCoherent s →
    ∃ t, runEncode s a len ver = .next (t,
      match sizeClass Config.hw.mao a len with
      | none => a
      | some sc =>
        let z := BitVec.ofNat 6 sc
        encodePointer Config.hw s.ks a
          (((packMd (adjustOf Config.hw.specialSize z) 0 z).setWidth 64 ||| (ver <<< 6)).setWidth 16))
end

