-- ==== Sys2Proof/Laws/Bits.lean ====
section
/-! SUPPORT. Bit fields, permutations of bits, and bytes of words, each said once bit by bit (41_bitfield_codec.md R118, 00_scope.md
R5 to R7). -/

namespace Sys2Proof.Machine

/-! ### setf -/

/-- `setf` bit by bit: the low bits of the value inside the field, the old bits outside (41_bitfield_codec.md R118). -/
theorem getLsbD_setf {x v : Word} {hi lo b : Nat} (hlo : lo ≤ hi) (hhi : hi < 64) (hb : b < 64) :
    (setf x hi lo v).getLsbD b = if lo ≤ b ∧ b ≤ hi then v.getLsbD (b - lo) else x.getLsbD b := by
  have hm : ∀ k, (BitVec.ofNat 64 (2 ^ (hi - lo + 1) - 1)).getLsbD k = decide (k < hi - lo + 1) := fun k => by
    rw [BitVec.getLsbD_ofNat, Nat.testBit_two_pow_sub_one]
    by_cases h : k < hi - lo + 1
    · simp [h]; omega
    · simp [h]
  unfold setf
  simp only [BitVec.getLsbD_or, BitVec.getLsbD_and, BitVec.getLsbD_not, BitVec.getLsbD_shiftLeft, hm, hb, decide_true,
    Bool.true_and]
  by_cases h1 : b < lo
  · simp [h1, Nat.not_le.mpr h1]
  · by_cases h2 : b ≤ hi
    · simp [h1, h2, Nat.not_lt.mp h1, show b - lo < hi - lo + 1 by omega]
    · simp [h1, h2, show ¬ b - lo < hi - lo + 1 by omega]

/-! ### Permutations of bits and rotations -/

theorem getLsbD_permBits {n : Nat} (t : Fin n → Fin n) (v : BitVec n) {i : Nat} (hi : i < n) :
    (permBits t v).getLsbD i = v.getLsbD (t ⟨i, hi⟩) := by
  simp [permBits, hi]

/-- A bit permutation undone by its inverse table, in both orders (00_scope.md R6). -/
theorem permBits_inv_fwd {n : Nat} (p : BitPerm n) (v : BitVec n) : permBits p.inv (permBits p.fwd v) = v := by
  apply BitVec.eq_of_getLsbD_eq
  intro i hi
  rw [getLsbD_permBits _ _ hi, getLsbD_permBits _ _ (p.inv ⟨i, hi⟩).isLt]
  simp [p.fwd_inv]

theorem permBits_fwd_inv {n : Nat} (p : BitPerm n) (v : BitVec n) : permBits p.fwd (permBits p.inv v) = v := by
  apply BitVec.eq_of_getLsbD_eq
  intro i hi
  rw [getLsbD_permBits _ _ hi, getLsbD_permBits _ _ (p.fwd ⟨i, hi⟩).isLt]
  simp [p.inv_fwd]

/-- A rotation bit by bit: `rotr_N(v, k)[i] = v[(i + k) mod N]` (00_scope.md section 5, R5). -/
theorem getLsbD_rotr {n : Nat} (v : BitVec n) (k : Nat) {i : Nat} (hi : i < n) :
    (v.rotateRight k).getLsbD i = v.getLsbD ((i + k) % n) := by
  have hk : k % n < n := Nat.mod_lt _ (by omega)
  rw [BitVec.getLsbD_rotateRight, ← Nat.add_mod_mod]
  by_cases h : i < n - k % n
  · rw [Nat.mod_eq_of_lt (by omega : i + k % n < n)]
    simp [h, Nat.add_comm]
  · have : (i + k % n) % n = i - (n - k % n) := by
      rw [Nat.mod_eq_sub_mod (by omega), Nat.mod_eq_of_lt (by omega)]
      omega
    simp [h, hi, this]

/-! ### Bytes and words -/

theorem getLsbD_byteOf (k : Nat) (v : Word) {i : Nat} (hi : i < 8) : (byteOf k v).getLsbD i = v.getLsbD (8 * k + i) := by
  simp [byteOf, hi]

theorem leBytes_length (v : Word) : (leBytes v).length = 8 := by
  simp [leBytes]

theorem getD_leBytes (v : Word) {k : Nat} (hk : k < 8) : (leBytes v).getD k 0 = byteOf k v := by
  simp [leBytes, hk]

/-- `LE64` bit by bit (00_scope.md R7). -/
theorem getLsbD_le64 (bs : List Byte) {i : Nat} (hi : i < 64) : (le64 bs).getLsbD i = (bs.getD (i / 8) 0).getLsbD (i % 8) := by
  induction bs generalizing i with
  | nil => simp [le64]
  | cons b bs ih =>
    rw [le64, BitVec.getLsbD_or, BitVec.getLsbD_setWidth, BitVec.getLsbD_shiftLeft]
    by_cases h : i < 8
    · simp [h, hi, Nat.div_eq_of_lt h, Nat.mod_eq_of_lt h]
    · obtain ⟨j, rfl⟩ : ∃ j, i = j + 8 := ⟨i - 8, by omega⟩
      rw [show (j + 8) / 8 = j / 8 + 1 by omega, show (j + 8) % 8 = j % 8 by omega]
      simp [hi, ih (show j < 64 by omega)]

/-- The bytes of `LE64` are the bytes it was made of. -/
theorem byteOf_le64 (bs : List Byte) {k : Nat} (hk : k < 8) : byteOf k (le64 bs) = bs.getD k 0 := by
  apply BitVec.eq_of_getLsbD_eq
  intro i hi
  rw [getLsbD_byteOf _ _ hi, getLsbD_le64 _ (by omega), show (8 * k + i) / 8 = k by omega, show (8 * k + i) % 8 = i by omega]

/-- Two words with the same bytes are equal. -/
theorem word_ext_bytes {x y : Word} (h : ∀ k, k < 8 → byteOf k x = byteOf k y) : x = y := by
  apply BitVec.eq_of_getLsbD_eq
  intro i hi
  have := congrArg (fun b => b.getLsbD (i % 8)) (h (i / 8) (by omega))
  rwa [getLsbD_byteOf _ _ (by omega), getLsbD_byteOf _ _ (by omega), show 8 * (i / 8) + i % 8 = i by omega] at this

/-- `LE64` of a word's bytes is the word. -/
theorem le64_leBytes (v : Word) : le64 (leBytes v) = v :=
  word_ext_bytes fun k hk => by rw [byteOf_le64 _ hk, getD_leBytes _ hk]

end Sys2Proof.Machine
end

