-- ==== Sys2Proof/Laws/Cells.lean ====
section
/-! SUPPORT. Sparse arrays: every operation keeps the canonical form, a read after a write, and two arrays in canonical form that read
alike are one (10_state.md R41, 47_integrity_map.md R222, R223). -/

namespace Sys2Proof.Machine

variable {w : Nat}

/-! ### The canonical form -/

theorem cellsWfFrom_cons {n lo : Nat} {c : Nat × BitVec w} {m : Cells w} :
    cellsWfFrom n lo (c :: m) = true ↔ lo ≤ c.1 ∧ c.1 < n ∧ c.2 ≠ 0 ∧ cellsWfFrom n (c.1 + 1) m = true := by
  simp [cellsWfFrom, and_assoc]

theorem cellsWfFrom_mono {n lo lo' : Nat} {m : Cells w} (h : cellsWfFrom n lo m = true) (hle : lo' ≤ lo) :
    cellsWfFrom n lo' m = true := by
  cases m with
  | nil => rfl
  | cons c m =>
    rw [cellsWfFrom_cons] at h ⊢
    exact ⟨hle.trans h.1, h.2⟩

/-- Below its lower bound an array in canonical form lists nothing. -/
theorem cellsRead_of_lt {n lo a : Nat} {m : Cells w} (h : cellsWfFrom n lo m = true) (ha : a < lo) : cellsRead m a = 0 := by
  induction m generalizing lo with
  | nil => rfl
  | cons c m ih =>
    obtain ⟨h1, _, _, h4⟩ := cellsWfFrom_cons.mp h
    rw [cellsRead, if_neg (by omega)]
    exact ih h4 (by omega)

/-- At and above its size an array in canonical form lists nothing. -/
theorem cellsRead_of_ge {n lo a : Nat} {m : Cells w} (h : cellsWfFrom n lo m = true) (ha : n ≤ a) : cellsRead m a = 0 := by
  induction m generalizing lo with
  | nil => rfl
  | cons c m ih =>
    obtain ⟨_, h2, _, h4⟩ := cellsWfFrom_cons.mp h
    rw [cellsRead, if_neg (by omega)]
    exact ih h4

theorem cellsWfFrom_write {n lo a : Nat} {m : Cells w} (v : BitVec w) (h : cellsWfFrom n lo m = true) (hlo : lo ≤ a) (ha : a < n) :
    cellsWfFrom n lo (cellsWrite m a v) = true := by
  induction m generalizing lo with
  | nil =>
    rw [cellsWrite]
    split
    · rfl
    · exact cellsWfFrom_cons.mpr ⟨hlo, ha, ‹_›, rfl⟩
  | cons c m ih =>
    obtain ⟨h1, h2, h3, h4⟩ := cellsWfFrom_cons.mp h
    rw [cellsWrite]
    split
    · split
      · exact h
      · exact cellsWfFrom_cons.mpr ⟨hlo, ha, ‹_›, cellsWfFrom_cons.mpr ⟨by simp only; omega, h2, h3, h4⟩⟩
    · split
      · split
        · exact cellsWfFrom_mono h4 (by omega)
        · subst_vars
          exact cellsWfFrom_cons.mpr ⟨h1, h2, ‹_›, h4⟩
      · exact cellsWfFrom_cons.mpr ⟨h1, h2, h3, ih h4 (by omega)⟩

/-- A write keeps the canonical form. -/
theorem cellsWf_write {n a : Nat} {m : Cells w} (v : BitVec w) (h : cellsWf n m = true) (ha : a < n) :
    cellsWf n (cellsWrite m a v) = true :=
  cellsWfFrom_write v h (Nat.zero_le a) ha

/-! ### Read after write -/

theorem cellsRead_cons {c : Nat × BitVec w} {m : Cells w} {a : Nat} :
    cellsRead (c :: m) a = if c.1 = a then c.2 else cellsRead m a := rfl

/-- An array in which a cell was put in front, or left out if its value is 0, where nothing was listed. -/
theorem cellsRead_put {m : Cells w} {a b : Nat} (v : BitVec w) (hz : cellsRead m a = 0) :
    cellsRead (if v = 0 then m else (a, v) :: m) b = if b = a then v else cellsRead m b := by
  by_cases hv : v = 0
  · rw [if_pos hv]
    split
    · subst_vars; exact hz
    · rfl
  · rw [if_neg hv, cellsRead_cons]
    exact if_congr ⟨Eq.symm, Eq.symm⟩ rfl rfl

theorem cellsRead_write_from {n lo a b : Nat} {m : Cells w} (v : BitVec w) (h : cellsWfFrom n lo m = true) :
    cellsRead (cellsWrite m a v) b = if b = a then v else cellsRead m b := by
  induction m generalizing lo with
  | nil => exact cellsRead_put v rfl
  | cons c m ih =>
    obtain ⟨h1, h2, h3, h4⟩ := cellsWfFrom_cons.mp h
    rw [cellsWrite]
    split
    · exact cellsRead_put v (cellsRead_of_lt (cellsWfFrom_cons.mpr ⟨le_rfl, h2, h3, h4⟩) ‹_›)
    · split
      · rw [cellsRead_put v (cellsRead_of_lt h4 (by omega)), cellsRead_cons]
        by_cases hb : b = a
        · rw [if_pos hb, if_pos hb]
        · rw [if_neg hb, if_neg hb, if_neg (by omega)]
      · rw [cellsRead_cons, cellsRead_cons, ih h4]
        by_cases hcb : c.1 = b
        · rw [if_pos hcb, if_pos hcb, if_neg (by omega)]
        · rw [if_neg hcb, if_neg hcb]

/-- A read after a write: the value at its index, and what stood elsewhere (47_integrity_map.md R222, R223). -/
theorem cellsRead_write {n a b : Nat} {m : Cells w} (v : BitVec w) (h : cellsWf n m = true) :
    cellsRead (cellsWrite m a v) b = if b = a then v else cellsRead m b :=
  cellsRead_write_from v h

/-! ### Arrays that read alike are equal -/

theorem cells_ext_from {n lo : Nat} {m m' : Cells w} (h : cellsWfFrom n lo m = true) (h' : cellsWfFrom n lo m' = true)
    (hr : ∀ a, cellsRead m a = cellsRead m' a) : m = m' := by
  induction m generalizing lo m' with
  | nil =>
    cases m' with
    | nil => rfl
    | cons c' m' =>
      have := hr c'.1
      obtain ⟨_, _, h3, _⟩ := cellsWfFrom_cons.mp h'
      simp [cellsRead] at this
      exact absurd this.symm h3
  | cons c m ih =>
    obtain ⟨h1, h2, h3, h4⟩ := cellsWfFrom_cons.mp h
    cases m' with
    | nil =>
      have := hr c.1
      simp [cellsRead] at this
      exact absurd this h3
    | cons c' m' =>
      obtain ⟨h1', h2', h3', h4'⟩ := cellsWfFrom_cons.mp h'
      have hc : c.1 = c'.1 := by
        by_contra hne
        rcases Nat.lt_or_gt_of_ne hne with hlt | hlt
        · have := hr c.1
          rw [cellsRead_of_lt (lo := c'.1) (cellsWfFrom_cons.mpr ⟨le_rfl, h2', h3', h4'⟩) hlt] at this
          exact h3 (by simpa [cellsRead] using this)
        · have := hr c'.1
          rw [cellsRead_of_lt (lo := c.1) (cellsWfFrom_cons.mpr ⟨le_rfl, h2, h3, h4⟩) hlt] at this
          exact h3' (by simpa [cellsRead] using this.symm)
      have hv : c.2 = c'.2 := by
        have := hr c.1
        simpa [cellsRead, hc] using this
      have hm : m = m' := by
        refine ih h4 (hc ▸ h4') fun a => ?_
        by_cases ha : c.1 = a
        · rw [cellsRead_of_lt h4 (by omega), cellsRead_of_lt h4' (by omega)]
        · have := hr a
          simpa [cellsRead, ha, hc ▸ ha] using this
      rw [hm, Prod.ext hc hv]

/-- Two arrays in canonical form that read alike are equal: equal maps are equal data (10_state.md R41). -/
theorem cells_ext {n : Nat} {m m' : Cells w} (h : cellsWf n m = true) (h' : cellsWf n m' = true)
    (hr : ∀ a, a < n → cellsRead m a = cellsRead m' a) : m = m' := by
  refine cells_ext_from h h' fun a => ?_
  by_cases ha : a < n
  · exact hr a ha
  · rw [cellsRead_of_ge h (by omega), cellsRead_of_ge h' (by omega)]

/-! ### Several bytes -/

/-- Storing bytes keeps the canonical form. -/
theorem cellsWf_writeBytes {n off : Nat} {m : Memory} (bs : List Byte) (h : cellsWf n m = true) (hn : off + bs.length ≤ n) :
    cellsWf n (writeBytes m off bs) = true := by
  induction bs generalizing m off with
  | nil => exact h
  | cons b bs ih =>
    rw [List.length_cons] at hn
    exact ih (cellsWf_write b h (by omega)) (by omega)

/-- A read after bytes were stored: the stored byte inside them, what stood there outside. -/
theorem cellsRead_writeBytes {n off a : Nat} {m : Memory} (bs : List Byte) (h : cellsWf n m = true) (hn : off + bs.length ≤ n) :
    cellsRead (writeBytes m off bs) a = if off ≤ a ∧ a < off + bs.length then bs.getD (a - off) 0 else cellsRead m a := by
  induction bs generalizing m off with
  | nil =>
    rw [if_neg (by simp only [List.length_nil]; omega)]
    rfl
  | cons b bs ih =>
    rw [List.length_cons] at hn ⊢
    rw [writeBytes, ih (cellsWf_write b h (by omega)) (by omega), cellsRead_write b h]
    by_cases h1 : a = off
    · subst h1
      simp
    · by_cases h2 : off + 1 ≤ a ∧ a < off + 1 + bs.length
      · rw [if_pos h2, if_pos (by omega)]
        obtain ⟨k, rfl⟩ : ∃ k, a = off + 1 + k := ⟨a - (off + 1), by omega⟩
        simp [show off + 1 + k - (off + 1) = k by omega, show off + 1 + k - off = k + 1 by omega]
      · rw [if_neg h2, if_neg h1, if_neg (by omega)]

/-- `MemWrite` keeps DBUF's canonical form. -/
theorem memWrite_wf {s : State} {off : Nat} (bs : List Byte) (h : Memory.wf s.dbuf = true) (hn : off + bs.length ≤ 128) :
    Memory.wf (memWrite s off bs).dbuf = true :=
  cellsWf_writeBytes bs h hn

/-- An entry write keeps the map's canonical form. -/
theorem icvWrite_wf {s : State} {i : Nat} (v : Word) (h : icvWf s.icv = true) (hi : i < 2 ^ 61) :
    icvWf (icvWrite s i v).icv = true :=
  cellsWf_write v h hi

/-- `ICV[i]` after `ICV[i'] <- v` (47_integrity_map.md R223). -/
theorem icvRead_write {s : State} {i j : Nat} (v : Word) (h : icvWf s.icv = true) :
    icvRead (icvWrite s i v) j = if j = i then v else icvRead s j :=
  cellsRead_write v h

/-- The reset state's memories have the canonical form. -/
theorem reset_memories_wf : Memory.wf State.reset.dbuf = true ∧ icvWf State.reset.icv = true :=
  ⟨rfl, rfl⟩

end Sys2Proof.Machine
end

