-- ==== Sys2Proof/Laws/State.lean ====
section
/-! SUPPORT. The state record: one lemma per field per update, so that no later proof unfolds an update. The updates of the
operations that branch are given with the fields they leave alone. -/

namespace Sys2Proof.Machine

/-! ### setEvent -/

@[simp] theorem setEvent_a0 (s : State) (k : Nat) : (setEvent s k).a0 = s.a0 := rfl
@[simp] theorem setEvent_a1 (s : State) (k : Nat) : (setEvent s k).a1 = s.a1 := rfl
@[simp] theorem setEvent_a2 (s : State) (k : Nat) : (setEvent s k).a2 = s.a2 := rfl
@[simp] theorem setEvent_a3 (s : State) (k : Nat) : (setEvent s k).a3 = s.a3 := rfl
@[simp] theorem setEvent_r0 (s : State) (k : Nat) : (setEvent s k).r0 = s.r0 := rfl
@[simp] theorem setEvent_r1 (s : State) (k : Nat) : (setEvent s k).r1 = s.r1 := rfl
@[simp] theorem setEvent_status (s : State) (k : Nat) : (setEvent s k).status = s.status := rfl
@[simp] theorem setEvent_events (s : State) (k : Nat) : (setEvent s k).events = s.events ||| (1#64 <<< k) := rfl
@[simp] theorem setEvent_faultCause (s : State) (k : Nat) : (setEvent s k).faultCause = s.faultCause := rfl
@[simp] theorem setEvent_faultGaddr (s : State) (k : Nat) : (setEvent s k).faultGaddr = s.faultGaddr := rfl
@[simp] theorem setEvent_faultPtr (s : State) (k : Nat) : (setEvent s k).faultPtr = s.faultPtr := rfl
@[simp] theorem setEvent_halted (s : State) (k : Nat) : (setEvent s k).halted = s.halted := rfl
@[simp] theorem setEvent_icvCtrl (s : State) (k : Nat) : (setEvent s k).icvCtrl = s.icvCtrl := rfl
@[simp] theorem setEvent_ctxFlags (s : State) (k : Nat) : (setEvent s k).ctxFlags = s.ctxFlags := rfl
@[simp] theorem setEvent_ctxShadow (s : State) (k : Nat) : (setEvent s k).ctxShadow = s.ctxShadow := rfl
@[simp] theorem setEvent_ctxRsvd (s : State) (k : Nat) : (setEvent s k).ctxRsvd = s.ctxRsvd := rfl
@[simp] theorem setEvent_kShared (s : State) (k : Nat) : (setEvent s k).kShared = s.kShared := rfl
@[simp] theorem setEvent_kPrivate (s : State) (k : Nat) : (setEvent s k).kPrivate = s.kPrivate := rfl
@[simp] theorem setEvent_kCode (s : State) (k : Nat) : (setEvent s k).kCode = s.kCode := rfl
@[simp] theorem setEvent_kAddr (s : State) (k : Nat) : (setEvent s k).kAddr = s.kAddr := rfl
@[simp] theorem setEvent_validShared (s : State) (k : Nat) : (setEvent s k).validShared = s.validShared := rfl
@[simp] theorem setEvent_validPrivate (s : State) (k : Nat) : (setEvent s k).validPrivate = s.validPrivate := rfl
@[simp] theorem setEvent_validCode (s : State) (k : Nat) : (setEvent s k).validCode = s.validCode := rfl
@[simp] theorem setEvent_validAddr (s : State) (k : Nat) : (setEvent s k).validAddr = s.validAddr := rfl
@[simp] theorem setEvent_ks (s : State) (k : Nat) : (setEvent s k).ks = s.ks := rfl
@[simp] theorem setEvent_tcValid (s : State) (k : Nat) : (setEvent s k).tcValid = s.tcValid := rfl
@[simp] theorem setEvent_tcTweak (s : State) (k : Nat) : (setEvent s k).tcTweak = s.tcTweak := rfl
@[simp] theorem setEvent_tcRtk (s : State) (k : Nat) : (setEvent s k).tcRtk = s.tcRtk := rfl
@[simp] theorem setEvent_icv (s : State) (k : Nat) : (setEvent s k).icv = s.icv := rfl
@[simp] theorem setEvent_dbuf (s : State) (k : Nat) : (setEvent s k).dbuf = s.dbuf := rfl
@[simp] theorem setEvent_port (s : State) (k : Nat) : (setEvent s k).port = s.port := rfl
@[simp] theorem setEvent_hostData (s : State) (k : Nat) : (setEvent s k).hostData = s.hostData := rfl

/-! ### complete -/

@[simp] theorem complete_a0 (s : State) (x y : Word) (f : StatusFlags) : (complete s x y f).a0 = s.a0 := rfl
@[simp] theorem complete_a1 (s : State) (x y : Word) (f : StatusFlags) : (complete s x y f).a1 = s.a1 := rfl
@[simp] theorem complete_a2 (s : State) (x y : Word) (f : StatusFlags) : (complete s x y f).a2 = s.a2 := rfl
@[simp] theorem complete_a3 (s : State) (x y : Word) (f : StatusFlags) : (complete s x y f).a3 = s.a3 := rfl
@[simp] theorem complete_r0 (s : State) (x y : Word) (f : StatusFlags) : (complete s x y f).r0 = x := rfl
@[simp] theorem complete_r1 (s : State) (x y : Word) (f : StatusFlags) : (complete s x y f).r1 = y := rfl
@[simp] theorem complete_status (s : State) (x y : Word) (f : StatusFlags) : (complete s x y f).status = statusWord .ok f := rfl
@[simp] theorem complete_events (s : State) (x y : Word) (f : StatusFlags) : (complete s x y f).events = s.events := rfl
@[simp] theorem complete_faultCause (s : State) (x y : Word) (f : StatusFlags) : (complete s x y f).faultCause = s.faultCause := rfl
@[simp] theorem complete_faultGaddr (s : State) (x y : Word) (f : StatusFlags) : (complete s x y f).faultGaddr = s.faultGaddr := rfl
@[simp] theorem complete_faultPtr (s : State) (x y : Word) (f : StatusFlags) : (complete s x y f).faultPtr = s.faultPtr := rfl
@[simp] theorem complete_halted (s : State) (x y : Word) (f : StatusFlags) : (complete s x y f).halted = s.halted := rfl
@[simp] theorem complete_icvCtrl (s : State) (x y : Word) (f : StatusFlags) : (complete s x y f).icvCtrl = s.icvCtrl := rfl
@[simp] theorem complete_ctxFlags (s : State) (x y : Word) (f : StatusFlags) : (complete s x y f).ctxFlags = s.ctxFlags := rfl
@[simp] theorem complete_ctxShadow (s : State) (x y : Word) (f : StatusFlags) : (complete s x y f).ctxShadow = s.ctxShadow := rfl
@[simp] theorem complete_ctxRsvd (s : State) (x y : Word) (f : StatusFlags) : (complete s x y f).ctxRsvd = s.ctxRsvd := rfl
@[simp] theorem complete_kShared (s : State) (x y : Word) (f : StatusFlags) : (complete s x y f).kShared = s.kShared := rfl
@[simp] theorem complete_kPrivate (s : State) (x y : Word) (f : StatusFlags) : (complete s x y f).kPrivate = s.kPrivate := rfl
@[simp] theorem complete_kCode (s : State) (x y : Word) (f : StatusFlags) : (complete s x y f).kCode = s.kCode := rfl
@[simp] theorem complete_kAddr (s : State) (x y : Word) (f : StatusFlags) : (complete s x y f).kAddr = s.kAddr := rfl
@[simp] theorem complete_validShared (s : State) (x y : Word) (f : StatusFlags) : (complete s x y f).validShared = s.validShared := rfl
@[simp] theorem complete_validPrivate (s : State) (x y : Word) (f : StatusFlags) : (complete s x y f).validPrivate = s.validPrivate := rfl
@[simp] theorem complete_validCode (s : State) (x y : Word) (f : StatusFlags) : (complete s x y f).validCode = s.validCode := rfl
@[simp] theorem complete_validAddr (s : State) (x y : Word) (f : StatusFlags) : (complete s x y f).validAddr = s.validAddr := rfl
@[simp] theorem complete_ks (s : State) (x y : Word) (f : StatusFlags) : (complete s x y f).ks = s.ks := rfl
@[simp] theorem complete_tcValid (s : State) (x y : Word) (f : StatusFlags) : (complete s x y f).tcValid = s.tcValid := rfl
@[simp] theorem complete_tcTweak (s : State) (x y : Word) (f : StatusFlags) : (complete s x y f).tcTweak = s.tcTweak := rfl
@[simp] theorem complete_tcRtk (s : State) (x y : Word) (f : StatusFlags) : (complete s x y f).tcRtk = s.tcRtk := rfl
@[simp] theorem complete_icv (s : State) (x y : Word) (f : StatusFlags) : (complete s x y f).icv = s.icv := rfl
@[simp] theorem complete_dbuf (s : State) (x y : Word) (f : StatusFlags) : (complete s x y f).dbuf = s.dbuf := rfl
@[simp] theorem complete_port (s : State) (x y : Word) (f : StatusFlags) : (complete s x y f).port = s.port := rfl
@[simp] theorem complete_hostData (s : State) (x y : Word) (f : StatusFlags) : (complete s x y f).hostData = s.hostData := rfl

/-! ### refuse -/

@[simp] theorem refuse_a0 (s : State) (c : Code) : (refuse s c).a0 = s.a0 := rfl
@[simp] theorem refuse_a1 (s : State) (c : Code) : (refuse s c).a1 = s.a1 := rfl
@[simp] theorem refuse_a2 (s : State) (c : Code) : (refuse s c).a2 = s.a2 := rfl
@[simp] theorem refuse_a3 (s : State) (c : Code) : (refuse s c).a3 = s.a3 := rfl
@[simp] theorem refuse_r0 (s : State) (c : Code) : (refuse s c).r0 = s.r0 := rfl
@[simp] theorem refuse_r1 (s : State) (c : Code) : (refuse s c).r1 = s.r1 := rfl
@[simp] theorem refuse_status (s : State) (c : Code) : (refuse s c).status = statusWord c {} := rfl
@[simp] theorem refuse_events (s : State) (c : Code) : (refuse s c).events = s.events := rfl
@[simp] theorem refuse_faultCause (s : State) (c : Code) : (refuse s c).faultCause = s.faultCause := rfl
@[simp] theorem refuse_faultGaddr (s : State) (c : Code) : (refuse s c).faultGaddr = s.faultGaddr := rfl
@[simp] theorem refuse_faultPtr (s : State) (c : Code) : (refuse s c).faultPtr = s.faultPtr := rfl
@[simp] theorem refuse_halted (s : State) (c : Code) : (refuse s c).halted = s.halted := rfl
@[simp] theorem refuse_icvCtrl (s : State) (c : Code) : (refuse s c).icvCtrl = s.icvCtrl := rfl
@[simp] theorem refuse_ctxFlags (s : State) (c : Code) : (refuse s c).ctxFlags = s.ctxFlags := rfl
@[simp] theorem refuse_ctxShadow (s : State) (c : Code) : (refuse s c).ctxShadow = s.ctxShadow := rfl
@[simp] theorem refuse_ctxRsvd (s : State) (c : Code) : (refuse s c).ctxRsvd = s.ctxRsvd := rfl
@[simp] theorem refuse_kShared (s : State) (c : Code) : (refuse s c).kShared = s.kShared := rfl
@[simp] theorem refuse_kPrivate (s : State) (c : Code) : (refuse s c).kPrivate = s.kPrivate := rfl
@[simp] theorem refuse_kCode (s : State) (c : Code) : (refuse s c).kCode = s.kCode := rfl
@[simp] theorem refuse_kAddr (s : State) (c : Code) : (refuse s c).kAddr = s.kAddr := rfl
@[simp] theorem refuse_validShared (s : State) (c : Code) : (refuse s c).validShared = s.validShared := rfl
@[simp] theorem refuse_validPrivate (s : State) (c : Code) : (refuse s c).validPrivate = s.validPrivate := rfl
@[simp] theorem refuse_validCode (s : State) (c : Code) : (refuse s c).validCode = s.validCode := rfl
@[simp] theorem refuse_validAddr (s : State) (c : Code) : (refuse s c).validAddr = s.validAddr := rfl
@[simp] theorem refuse_ks (s : State) (c : Code) : (refuse s c).ks = s.ks := rfl
@[simp] theorem refuse_tcValid (s : State) (c : Code) : (refuse s c).tcValid = s.tcValid := rfl
@[simp] theorem refuse_tcTweak (s : State) (c : Code) : (refuse s c).tcTweak = s.tcTweak := rfl
@[simp] theorem refuse_tcRtk (s : State) (c : Code) : (refuse s c).tcRtk = s.tcRtk := rfl
@[simp] theorem refuse_icv (s : State) (c : Code) : (refuse s c).icv = s.icv := rfl
@[simp] theorem refuse_dbuf (s : State) (c : Code) : (refuse s c).dbuf = s.dbuf := rfl
@[simp] theorem refuse_port (s : State) (c : Code) : (refuse s c).port = s.port := rfl
@[simp] theorem refuse_hostData (s : State) (c : Code) : (refuse s c).hostData = s.hostData := rfl

/-! ### memWrite -/

@[simp] theorem memWrite_a0 (s : State) (off : Nat) (bs : List Byte) : (memWrite s off bs).a0 = s.a0 := rfl
@[simp] theorem memWrite_a1 (s : State) (off : Nat) (bs : List Byte) : (memWrite s off bs).a1 = s.a1 := rfl
@[simp] theorem memWrite_a2 (s : State) (off : Nat) (bs : List Byte) : (memWrite s off bs).a2 = s.a2 := rfl
@[simp] theorem memWrite_a3 (s : State) (off : Nat) (bs : List Byte) : (memWrite s off bs).a3 = s.a3 := rfl
@[simp] theorem memWrite_r0 (s : State) (off : Nat) (bs : List Byte) : (memWrite s off bs).r0 = s.r0 := rfl
@[simp] theorem memWrite_r1 (s : State) (off : Nat) (bs : List Byte) : (memWrite s off bs).r1 = s.r1 := rfl
@[simp] theorem memWrite_status (s : State) (off : Nat) (bs : List Byte) : (memWrite s off bs).status = s.status := rfl
@[simp] theorem memWrite_events (s : State) (off : Nat) (bs : List Byte) : (memWrite s off bs).events = s.events := rfl
@[simp] theorem memWrite_faultCause (s : State) (off : Nat) (bs : List Byte) : (memWrite s off bs).faultCause = s.faultCause := rfl
@[simp] theorem memWrite_faultGaddr (s : State) (off : Nat) (bs : List Byte) : (memWrite s off bs).faultGaddr = s.faultGaddr := rfl
@[simp] theorem memWrite_faultPtr (s : State) (off : Nat) (bs : List Byte) : (memWrite s off bs).faultPtr = s.faultPtr := rfl
@[simp] theorem memWrite_halted (s : State) (off : Nat) (bs : List Byte) : (memWrite s off bs).halted = s.halted := rfl
@[simp] theorem memWrite_icvCtrl (s : State) (off : Nat) (bs : List Byte) : (memWrite s off bs).icvCtrl = s.icvCtrl := rfl
@[simp] theorem memWrite_ctxFlags (s : State) (off : Nat) (bs : List Byte) : (memWrite s off bs).ctxFlags = s.ctxFlags := rfl
@[simp] theorem memWrite_ctxShadow (s : State) (off : Nat) (bs : List Byte) : (memWrite s off bs).ctxShadow = s.ctxShadow := rfl
@[simp] theorem memWrite_ctxRsvd (s : State) (off : Nat) (bs : List Byte) : (memWrite s off bs).ctxRsvd = s.ctxRsvd := rfl
@[simp] theorem memWrite_kShared (s : State) (off : Nat) (bs : List Byte) : (memWrite s off bs).kShared = s.kShared := rfl
@[simp] theorem memWrite_kPrivate (s : State) (off : Nat) (bs : List Byte) : (memWrite s off bs).kPrivate = s.kPrivate := rfl
@[simp] theorem memWrite_kCode (s : State) (off : Nat) (bs : List Byte) : (memWrite s off bs).kCode = s.kCode := rfl
@[simp] theorem memWrite_kAddr (s : State) (off : Nat) (bs : List Byte) : (memWrite s off bs).kAddr = s.kAddr := rfl
@[simp] theorem memWrite_validShared (s : State) (off : Nat) (bs : List Byte) : (memWrite s off bs).validShared = s.validShared := rfl
@[simp] theorem memWrite_validPrivate (s : State) (off : Nat) (bs : List Byte) : (memWrite s off bs).validPrivate = s.validPrivate := rfl
@[simp] theorem memWrite_validCode (s : State) (off : Nat) (bs : List Byte) : (memWrite s off bs).validCode = s.validCode := rfl
@[simp] theorem memWrite_validAddr (s : State) (off : Nat) (bs : List Byte) : (memWrite s off bs).validAddr = s.validAddr := rfl
@[simp] theorem memWrite_ks (s : State) (off : Nat) (bs : List Byte) : (memWrite s off bs).ks = s.ks := rfl
@[simp] theorem memWrite_tcValid (s : State) (off : Nat) (bs : List Byte) : (memWrite s off bs).tcValid = s.tcValid := rfl
@[simp] theorem memWrite_tcTweak (s : State) (off : Nat) (bs : List Byte) : (memWrite s off bs).tcTweak = s.tcTweak := rfl
@[simp] theorem memWrite_tcRtk (s : State) (off : Nat) (bs : List Byte) : (memWrite s off bs).tcRtk = s.tcRtk := rfl
@[simp] theorem memWrite_icv (s : State) (off : Nat) (bs : List Byte) : (memWrite s off bs).icv = s.icv := rfl
@[simp] theorem memWrite_dbuf (s : State) (off : Nat) (bs : List Byte) : (memWrite s off bs).dbuf = writeBytes s.dbuf off bs := rfl
@[simp] theorem memWrite_port (s : State) (off : Nat) (bs : List Byte) : (memWrite s off bs).port = s.port := rfl
@[simp] theorem memWrite_hostData (s : State) (off : Nat) (bs : List Byte) : (memWrite s off bs).hostData = s.hostData := rfl

/-! ### icvWrite -/

@[simp] theorem icvWrite_a0 (s : State) (i : Nat) (v : Word) : (icvWrite s i v).a0 = s.a0 := rfl
@[simp] theorem icvWrite_a1 (s : State) (i : Nat) (v : Word) : (icvWrite s i v).a1 = s.a1 := rfl
@[simp] theorem icvWrite_a2 (s : State) (i : Nat) (v : Word) : (icvWrite s i v).a2 = s.a2 := rfl
@[simp] theorem icvWrite_a3 (s : State) (i : Nat) (v : Word) : (icvWrite s i v).a3 = s.a3 := rfl
@[simp] theorem icvWrite_r0 (s : State) (i : Nat) (v : Word) : (icvWrite s i v).r0 = s.r0 := rfl
@[simp] theorem icvWrite_r1 (s : State) (i : Nat) (v : Word) : (icvWrite s i v).r1 = s.r1 := rfl
@[simp] theorem icvWrite_status (s : State) (i : Nat) (v : Word) : (icvWrite s i v).status = s.status := rfl
@[simp] theorem icvWrite_events (s : State) (i : Nat) (v : Word) : (icvWrite s i v).events = s.events := rfl
@[simp] theorem icvWrite_faultCause (s : State) (i : Nat) (v : Word) : (icvWrite s i v).faultCause = s.faultCause := rfl
@[simp] theorem icvWrite_faultGaddr (s : State) (i : Nat) (v : Word) : (icvWrite s i v).faultGaddr = s.faultGaddr := rfl
@[simp] theorem icvWrite_faultPtr (s : State) (i : Nat) (v : Word) : (icvWrite s i v).faultPtr = s.faultPtr := rfl
@[simp] theorem icvWrite_halted (s : State) (i : Nat) (v : Word) : (icvWrite s i v).halted = s.halted := rfl
@[simp] theorem icvWrite_icvCtrl (s : State) (i : Nat) (v : Word) : (icvWrite s i v).icvCtrl = s.icvCtrl := rfl
@[simp] theorem icvWrite_ctxFlags (s : State) (i : Nat) (v : Word) : (icvWrite s i v).ctxFlags = s.ctxFlags := rfl
@[simp] theorem icvWrite_ctxShadow (s : State) (i : Nat) (v : Word) : (icvWrite s i v).ctxShadow = s.ctxShadow := rfl
@[simp] theorem icvWrite_ctxRsvd (s : State) (i : Nat) (v : Word) : (icvWrite s i v).ctxRsvd = s.ctxRsvd := rfl
@[simp] theorem icvWrite_kShared (s : State) (i : Nat) (v : Word) : (icvWrite s i v).kShared = s.kShared := rfl
@[simp] theorem icvWrite_kPrivate (s : State) (i : Nat) (v : Word) : (icvWrite s i v).kPrivate = s.kPrivate := rfl
@[simp] theorem icvWrite_kCode (s : State) (i : Nat) (v : Word) : (icvWrite s i v).kCode = s.kCode := rfl
@[simp] theorem icvWrite_kAddr (s : State) (i : Nat) (v : Word) : (icvWrite s i v).kAddr = s.kAddr := rfl
@[simp] theorem icvWrite_validShared (s : State) (i : Nat) (v : Word) : (icvWrite s i v).validShared = s.validShared := rfl
@[simp] theorem icvWrite_validPrivate (s : State) (i : Nat) (v : Word) : (icvWrite s i v).validPrivate = s.validPrivate := rfl
@[simp] theorem icvWrite_validCode (s : State) (i : Nat) (v : Word) : (icvWrite s i v).validCode = s.validCode := rfl
@[simp] theorem icvWrite_validAddr (s : State) (i : Nat) (v : Word) : (icvWrite s i v).validAddr = s.validAddr := rfl
@[simp] theorem icvWrite_ks (s : State) (i : Nat) (v : Word) : (icvWrite s i v).ks = s.ks := rfl
@[simp] theorem icvWrite_tcValid (s : State) (i : Nat) (v : Word) : (icvWrite s i v).tcValid = s.tcValid := rfl
@[simp] theorem icvWrite_tcTweak (s : State) (i : Nat) (v : Word) : (icvWrite s i v).tcTweak = s.tcTweak := rfl
@[simp] theorem icvWrite_tcRtk (s : State) (i : Nat) (v : Word) : (icvWrite s i v).tcRtk = s.tcRtk := rfl
@[simp] theorem icvWrite_icv (s : State) (i : Nat) (v : Word) : (icvWrite s i v).icv = cellsWrite s.icv i v := rfl
@[simp] theorem icvWrite_dbuf (s : State) (i : Nat) (v : Word) : (icvWrite s i v).dbuf = s.dbuf := rfl
@[simp] theorem icvWrite_port (s : State) (i : Nat) (v : Word) : (icvWrite s i v).port = s.port := rfl
@[simp] theorem icvWrite_hostData (s : State) (i : Nat) (v : Word) : (icvWrite s i v).hostData = s.hostData := rfl

/-! ### leaveHalt -/

@[simp] theorem leaveHalt_a0 (s : State) : (leaveHalt s).a0 = s.a0 := rfl
@[simp] theorem leaveHalt_a1 (s : State) : (leaveHalt s).a1 = s.a1 := rfl
@[simp] theorem leaveHalt_a2 (s : State) : (leaveHalt s).a2 = s.a2 := rfl
@[simp] theorem leaveHalt_a3 (s : State) : (leaveHalt s).a3 = s.a3 := rfl
@[simp] theorem leaveHalt_r0 (s : State) : (leaveHalt s).r0 = s.r0 := rfl
@[simp] theorem leaveHalt_r1 (s : State) : (leaveHalt s).r1 = s.r1 := rfl
@[simp] theorem leaveHalt_status (s : State) : (leaveHalt s).status = s.status := rfl
@[simp] theorem leaveHalt_events (s : State) : (leaveHalt s).events = s.events := rfl
@[simp] theorem leaveHalt_faultCause (s : State) : (leaveHalt s).faultCause = s.faultCause := rfl
@[simp] theorem leaveHalt_faultGaddr (s : State) : (leaveHalt s).faultGaddr = s.faultGaddr := rfl
@[simp] theorem leaveHalt_faultPtr (s : State) : (leaveHalt s).faultPtr = s.faultPtr := rfl
@[simp] theorem leaveHalt_halted (s : State) : (leaveHalt s).halted = false := rfl
@[simp] theorem leaveHalt_icvCtrl (s : State) : (leaveHalt s).icvCtrl = s.icvCtrl := rfl
@[simp] theorem leaveHalt_ctxFlags (s : State) : (leaveHalt s).ctxFlags = s.ctxFlags := rfl
@[simp] theorem leaveHalt_ctxShadow (s : State) : (leaveHalt s).ctxShadow = s.ctxShadow := rfl
@[simp] theorem leaveHalt_ctxRsvd (s : State) : (leaveHalt s).ctxRsvd = s.ctxRsvd := rfl
@[simp] theorem leaveHalt_kShared (s : State) : (leaveHalt s).kShared = s.kShared := rfl
@[simp] theorem leaveHalt_kPrivate (s : State) : (leaveHalt s).kPrivate = s.kPrivate := rfl
@[simp] theorem leaveHalt_kCode (s : State) : (leaveHalt s).kCode = s.kCode := rfl
@[simp] theorem leaveHalt_kAddr (s : State) : (leaveHalt s).kAddr = s.kAddr := rfl
@[simp] theorem leaveHalt_validShared (s : State) : (leaveHalt s).validShared = s.validShared := rfl
@[simp] theorem leaveHalt_validPrivate (s : State) : (leaveHalt s).validPrivate = s.validPrivate := rfl
@[simp] theorem leaveHalt_validCode (s : State) : (leaveHalt s).validCode = s.validCode := rfl
@[simp] theorem leaveHalt_validAddr (s : State) : (leaveHalt s).validAddr = s.validAddr := rfl
@[simp] theorem leaveHalt_ks (s : State) : (leaveHalt s).ks = s.ks := rfl
@[simp] theorem leaveHalt_tcValid (s : State) : (leaveHalt s).tcValid = s.tcValid := rfl
@[simp] theorem leaveHalt_tcTweak (s : State) : (leaveHalt s).tcTweak = s.tcTweak := rfl
@[simp] theorem leaveHalt_tcRtk (s : State) : (leaveHalt s).tcRtk = s.tcRtk := rfl
@[simp] theorem leaveHalt_icv (s : State) : (leaveHalt s).icv = s.icv := rfl
@[simp] theorem leaveHalt_dbuf (s : State) : (leaveHalt s).dbuf = s.dbuf := rfl
@[simp] theorem leaveHalt_port (s : State) : (leaveHalt s).port = s.port := rfl
@[simp] theorem leaveHalt_hostData (s : State) : (leaveHalt s).hostData = s.hostData := rfl

/-! ### loadAddrKey -/

@[simp] theorem loadAddrKey_a0 (s : State) (key : AddrKey) : (loadAddrKey s key).a0 = s.a0 := rfl
@[simp] theorem loadAddrKey_a1 (s : State) (key : AddrKey) : (loadAddrKey s key).a1 = s.a1 := rfl
@[simp] theorem loadAddrKey_a2 (s : State) (key : AddrKey) : (loadAddrKey s key).a2 = s.a2 := rfl
@[simp] theorem loadAddrKey_a3 (s : State) (key : AddrKey) : (loadAddrKey s key).a3 = s.a3 := rfl
@[simp] theorem loadAddrKey_r0 (s : State) (key : AddrKey) : (loadAddrKey s key).r0 = s.r0 := rfl
@[simp] theorem loadAddrKey_r1 (s : State) (key : AddrKey) : (loadAddrKey s key).r1 = s.r1 := rfl
@[simp] theorem loadAddrKey_status (s : State) (key : AddrKey) : (loadAddrKey s key).status = s.status := rfl
@[simp] theorem loadAddrKey_events (s : State) (key : AddrKey) : (loadAddrKey s key).events = s.events := rfl
@[simp] theorem loadAddrKey_faultCause (s : State) (key : AddrKey) : (loadAddrKey s key).faultCause = s.faultCause := rfl
@[simp] theorem loadAddrKey_faultGaddr (s : State) (key : AddrKey) : (loadAddrKey s key).faultGaddr = s.faultGaddr := rfl
@[simp] theorem loadAddrKey_faultPtr (s : State) (key : AddrKey) : (loadAddrKey s key).faultPtr = s.faultPtr := rfl
@[simp] theorem loadAddrKey_halted (s : State) (key : AddrKey) : (loadAddrKey s key).halted = s.halted := rfl
@[simp] theorem loadAddrKey_icvCtrl (s : State) (key : AddrKey) : (loadAddrKey s key).icvCtrl = s.icvCtrl := rfl
@[simp] theorem loadAddrKey_ctxFlags (s : State) (key : AddrKey) : (loadAddrKey s key).ctxFlags = s.ctxFlags := rfl
@[simp] theorem loadAddrKey_ctxShadow (s : State) (key : AddrKey) : (loadAddrKey s key).ctxShadow = s.ctxShadow := rfl
@[simp] theorem loadAddrKey_ctxRsvd (s : State) (key : AddrKey) : (loadAddrKey s key).ctxRsvd = s.ctxRsvd := rfl
@[simp] theorem loadAddrKey_kShared (s : State) (key : AddrKey) : (loadAddrKey s key).kShared = s.kShared := rfl
@[simp] theorem loadAddrKey_kPrivate (s : State) (key : AddrKey) : (loadAddrKey s key).kPrivate = s.kPrivate := rfl
@[simp] theorem loadAddrKey_kCode (s : State) (key : AddrKey) : (loadAddrKey s key).kCode = s.kCode := rfl
@[simp] theorem loadAddrKey_kAddr (s : State) (key : AddrKey) : (loadAddrKey s key).kAddr = key := rfl
@[simp] theorem loadAddrKey_validShared (s : State) (key : AddrKey) : (loadAddrKey s key).validShared = s.validShared := rfl
@[simp] theorem loadAddrKey_validPrivate (s : State) (key : AddrKey) : (loadAddrKey s key).validPrivate = s.validPrivate := rfl
@[simp] theorem loadAddrKey_validCode (s : State) (key : AddrKey) : (loadAddrKey s key).validCode = s.validCode := rfl
@[simp] theorem loadAddrKey_validAddr (s : State) (key : AddrKey) : (loadAddrKey s key).validAddr = true := rfl
@[simp] theorem loadAddrKey_ks (s : State) (key : AddrKey) : (loadAddrKey s key).ks = keySched key := rfl
@[simp] theorem loadAddrKey_tcValid (s : State) (key : AddrKey) : (loadAddrKey s key).tcValid = false := rfl
@[simp] theorem loadAddrKey_tcTweak (s : State) (key : AddrKey) : (loadAddrKey s key).tcTweak = s.tcTweak := rfl
@[simp] theorem loadAddrKey_tcRtk (s : State) (key : AddrKey) : (loadAddrKey s key).tcRtk = s.tcRtk := rfl
@[simp] theorem loadAddrKey_icv (s : State) (key : AddrKey) : (loadAddrKey s key).icv = s.icv := rfl
@[simp] theorem loadAddrKey_dbuf (s : State) (key : AddrKey) : (loadAddrKey s key).dbuf = s.dbuf := rfl
@[simp] theorem loadAddrKey_port (s : State) (key : AddrKey) : (loadAddrKey s key).port = s.port := rfl
@[simp] theorem loadAddrKey_hostData (s : State) (key : AddrKey) : (loadAddrKey s key).hostData = s.hostData := rfl

/-! ### haltIf: the fields it leaves alone -/

@[simp] theorem haltIf_a0 (s : State) (b : Bool) : (haltIf b s).a0 = s.a0 := by cases b <;> rfl
@[simp] theorem haltIf_a1 (s : State) (b : Bool) : (haltIf b s).a1 = s.a1 := by cases b <;> rfl
@[simp] theorem haltIf_a2 (s : State) (b : Bool) : (haltIf b s).a2 = s.a2 := by cases b <;> rfl
@[simp] theorem haltIf_a3 (s : State) (b : Bool) : (haltIf b s).a3 = s.a3 := by cases b <;> rfl
@[simp] theorem haltIf_r0 (s : State) (b : Bool) : (haltIf b s).r0 = s.r0 := by cases b <;> rfl
@[simp] theorem haltIf_r1 (s : State) (b : Bool) : (haltIf b s).r1 = s.r1 := by cases b <;> rfl
@[simp] theorem haltIf_status (s : State) (b : Bool) : (haltIf b s).status = s.status := by cases b <;> rfl
@[simp] theorem haltIf_events (s : State) (b : Bool) : (haltIf b s).events = s.events := by cases b <;> rfl
@[simp] theorem haltIf_faultCause (s : State) (b : Bool) : (haltIf b s).faultCause = s.faultCause := by cases b <;> rfl
@[simp] theorem haltIf_faultGaddr (s : State) (b : Bool) : (haltIf b s).faultGaddr = s.faultGaddr := by cases b <;> rfl
@[simp] theorem haltIf_faultPtr (s : State) (b : Bool) : (haltIf b s).faultPtr = s.faultPtr := by cases b <;> rfl
@[simp] theorem haltIf_icvCtrl (s : State) (b : Bool) : (haltIf b s).icvCtrl = s.icvCtrl := by cases b <;> rfl
@[simp] theorem haltIf_ctxFlags (s : State) (b : Bool) : (haltIf b s).ctxFlags = s.ctxFlags := by cases b <;> rfl
@[simp] theorem haltIf_ctxShadow (s : State) (b : Bool) : (haltIf b s).ctxShadow = s.ctxShadow := by cases b <;> rfl
@[simp] theorem haltIf_ctxRsvd (s : State) (b : Bool) : (haltIf b s).ctxRsvd = s.ctxRsvd := by cases b <;> rfl
@[simp] theorem haltIf_kShared (s : State) (b : Bool) : (haltIf b s).kShared = s.kShared := by cases b <;> rfl
@[simp] theorem haltIf_kPrivate (s : State) (b : Bool) : (haltIf b s).kPrivate = s.kPrivate := by cases b <;> rfl
@[simp] theorem haltIf_kCode (s : State) (b : Bool) : (haltIf b s).kCode = s.kCode := by cases b <;> rfl
@[simp] theorem haltIf_kAddr (s : State) (b : Bool) : (haltIf b s).kAddr = s.kAddr := by cases b <;> rfl
@[simp] theorem haltIf_validShared (s : State) (b : Bool) : (haltIf b s).validShared = s.validShared := by cases b <;> rfl
@[simp] theorem haltIf_validPrivate (s : State) (b : Bool) : (haltIf b s).validPrivate = s.validPrivate := by cases b <;> rfl
@[simp] theorem haltIf_validCode (s : State) (b : Bool) : (haltIf b s).validCode = s.validCode := by cases b <;> rfl
@[simp] theorem haltIf_validAddr (s : State) (b : Bool) : (haltIf b s).validAddr = s.validAddr := by cases b <;> rfl
@[simp] theorem haltIf_ks (s : State) (b : Bool) : (haltIf b s).ks = s.ks := by cases b <;> rfl
@[simp] theorem haltIf_tcValid (s : State) (b : Bool) : (haltIf b s).tcValid = s.tcValid := by cases b <;> rfl
@[simp] theorem haltIf_tcTweak (s : State) (b : Bool) : (haltIf b s).tcTweak = s.tcTweak := by cases b <;> rfl
@[simp] theorem haltIf_tcRtk (s : State) (b : Bool) : (haltIf b s).tcRtk = s.tcRtk := by cases b <;> rfl
@[simp] theorem haltIf_icv (s : State) (b : Bool) : (haltIf b s).icv = s.icv := by cases b <;> rfl
@[simp] theorem haltIf_dbuf (s : State) (b : Bool) : (haltIf b s).dbuf = s.dbuf := by cases b <;> rfl
@[simp] theorem haltIf_port (s : State) (b : Bool) : (haltIf b s).port = s.port := by cases b <;> rfl
@[simp] theorem haltIf_hostData (s : State) (b : Bool) : (haltIf b s).hostData = s.hostData := by cases b <;> rfl

/-! ### latchFault: the fields it leaves alone -/

@[simp] theorem latchFault_a0 (s : State) (v : Violation) (g x : Word) : (latchFault s v g x).a0 = s.a0 := by unfold latchFault; split <;> rfl
@[simp] theorem latchFault_a1 (s : State) (v : Violation) (g x : Word) : (latchFault s v g x).a1 = s.a1 := by unfold latchFault; split <;> rfl
@[simp] theorem latchFault_a2 (s : State) (v : Violation) (g x : Word) : (latchFault s v g x).a2 = s.a2 := by unfold latchFault; split <;> rfl
@[simp] theorem latchFault_a3 (s : State) (v : Violation) (g x : Word) : (latchFault s v g x).a3 = s.a3 := by unfold latchFault; split <;> rfl
@[simp] theorem latchFault_r0 (s : State) (v : Violation) (g x : Word) : (latchFault s v g x).r0 = s.r0 := by unfold latchFault; split <;> rfl
@[simp] theorem latchFault_r1 (s : State) (v : Violation) (g x : Word) : (latchFault s v g x).r1 = s.r1 := by unfold latchFault; split <;> rfl
@[simp] theorem latchFault_status (s : State) (v : Violation) (g x : Word) : (latchFault s v g x).status = s.status := by unfold latchFault; split <;> rfl
@[simp] theorem latchFault_events (s : State) (v : Violation) (g x : Word) : (latchFault s v g x).events = s.events := by unfold latchFault; split <;> rfl
@[simp] theorem latchFault_halted (s : State) (v : Violation) (g x : Word) : (latchFault s v g x).halted = s.halted := by unfold latchFault; split <;> rfl
@[simp] theorem latchFault_icvCtrl (s : State) (v : Violation) (g x : Word) : (latchFault s v g x).icvCtrl = s.icvCtrl := by unfold latchFault; split <;> rfl
@[simp] theorem latchFault_ctxFlags (s : State) (v : Violation) (g x : Word) : (latchFault s v g x).ctxFlags = s.ctxFlags := by unfold latchFault; split <;> rfl
@[simp] theorem latchFault_ctxShadow (s : State) (v : Violation) (g x : Word) : (latchFault s v g x).ctxShadow = s.ctxShadow := by unfold latchFault; split <;> rfl
@[simp] theorem latchFault_ctxRsvd (s : State) (v : Violation) (g x : Word) : (latchFault s v g x).ctxRsvd = s.ctxRsvd := by unfold latchFault; split <;> rfl
@[simp] theorem latchFault_kShared (s : State) (v : Violation) (g x : Word) : (latchFault s v g x).kShared = s.kShared := by unfold latchFault; split <;> rfl
@[simp] theorem latchFault_kPrivate (s : State) (v : Violation) (g x : Word) : (latchFault s v g x).kPrivate = s.kPrivate := by unfold latchFault; split <;> rfl
@[simp] theorem latchFault_kCode (s : State) (v : Violation) (g x : Word) : (latchFault s v g x).kCode = s.kCode := by unfold latchFault; split <;> rfl
@[simp] theorem latchFault_kAddr (s : State) (v : Violation) (g x : Word) : (latchFault s v g x).kAddr = s.kAddr := by unfold latchFault; split <;> rfl
@[simp] theorem latchFault_validShared (s : State) (v : Violation) (g x : Word) : (latchFault s v g x).validShared = s.validShared := by unfold latchFault; split <;> rfl
@[simp] theorem latchFault_validPrivate (s : State) (v : Violation) (g x : Word) : (latchFault s v g x).validPrivate = s.validPrivate := by unfold latchFault; split <;> rfl
@[simp] theorem latchFault_validCode (s : State) (v : Violation) (g x : Word) : (latchFault s v g x).validCode = s.validCode := by unfold latchFault; split <;> rfl
@[simp] theorem latchFault_validAddr (s : State) (v : Violation) (g x : Word) : (latchFault s v g x).validAddr = s.validAddr := by unfold latchFault; split <;> rfl
@[simp] theorem latchFault_ks (s : State) (v : Violation) (g x : Word) : (latchFault s v g x).ks = s.ks := by unfold latchFault; split <;> rfl
@[simp] theorem latchFault_tcValid (s : State) (v : Violation) (g x : Word) : (latchFault s v g x).tcValid = s.tcValid := by unfold latchFault; split <;> rfl
@[simp] theorem latchFault_tcTweak (s : State) (v : Violation) (g x : Word) : (latchFault s v g x).tcTweak = s.tcTweak := by unfold latchFault; split <;> rfl
@[simp] theorem latchFault_tcRtk (s : State) (v : Violation) (g x : Word) : (latchFault s v g x).tcRtk = s.tcRtk := by unfold latchFault; split <;> rfl
@[simp] theorem latchFault_icv (s : State) (v : Violation) (g x : Word) : (latchFault s v g x).icv = s.icv := by unfold latchFault; split <;> rfl
@[simp] theorem latchFault_dbuf (s : State) (v : Violation) (g x : Word) : (latchFault s v g x).dbuf = s.dbuf := by unfold latchFault; split <;> rfl
@[simp] theorem latchFault_port (s : State) (v : Violation) (g x : Word) : (latchFault s v g x).port = s.port := by unfold latchFault; split <;> rfl
@[simp] theorem latchFault_hostData (s : State) (v : Violation) (g x : Word) : (latchFault s v g x).hostData = s.hostData := by unfold latchFault; split <;> rfl

/-! ### ackEvents: the fields it leaves alone -/

@[simp] theorem ackEvents_a0 (s : State) (v : Word) : (ackEvents s v).a0 = s.a0 := by unfold ackEvents; dsimp only; split <;> rfl
@[simp] theorem ackEvents_a1 (s : State) (v : Word) : (ackEvents s v).a1 = s.a1 := by unfold ackEvents; dsimp only; split <;> rfl
@[simp] theorem ackEvents_a2 (s : State) (v : Word) : (ackEvents s v).a2 = s.a2 := by unfold ackEvents; dsimp only; split <;> rfl
@[simp] theorem ackEvents_a3 (s : State) (v : Word) : (ackEvents s v).a3 = s.a3 := by unfold ackEvents; dsimp only; split <;> rfl
@[simp] theorem ackEvents_r0 (s : State) (v : Word) : (ackEvents s v).r0 = s.r0 := by unfold ackEvents; dsimp only; split <;> rfl
@[simp] theorem ackEvents_r1 (s : State) (v : Word) : (ackEvents s v).r1 = s.r1 := by unfold ackEvents; dsimp only; split <;> rfl
@[simp] theorem ackEvents_status (s : State) (v : Word) : (ackEvents s v).status = s.status := by unfold ackEvents; dsimp only; split <;> rfl
@[simp] theorem ackEvents_halted (s : State) (v : Word) : (ackEvents s v).halted = s.halted := by unfold ackEvents; dsimp only; split <;> rfl
@[simp] theorem ackEvents_icvCtrl (s : State) (v : Word) : (ackEvents s v).icvCtrl = s.icvCtrl := by unfold ackEvents; dsimp only; split <;> rfl
@[simp] theorem ackEvents_ctxFlags (s : State) (v : Word) : (ackEvents s v).ctxFlags = s.ctxFlags := by unfold ackEvents; dsimp only; split <;> rfl
@[simp] theorem ackEvents_ctxShadow (s : State) (v : Word) : (ackEvents s v).ctxShadow = s.ctxShadow := by unfold ackEvents; dsimp only; split <;> rfl
@[simp] theorem ackEvents_ctxRsvd (s : State) (v : Word) : (ackEvents s v).ctxRsvd = s.ctxRsvd := by unfold ackEvents; dsimp only; split <;> rfl
@[simp] theorem ackEvents_kShared (s : State) (v : Word) : (ackEvents s v).kShared = s.kShared := by unfold ackEvents; dsimp only; split <;> rfl
@[simp] theorem ackEvents_kPrivate (s : State) (v : Word) : (ackEvents s v).kPrivate = s.kPrivate := by unfold ackEvents; dsimp only; split <;> rfl
@[simp] theorem ackEvents_kCode (s : State) (v : Word) : (ackEvents s v).kCode = s.kCode := by unfold ackEvents; dsimp only; split <;> rfl
@[simp] theorem ackEvents_kAddr (s : State) (v : Word) : (ackEvents s v).kAddr = s.kAddr := by unfold ackEvents; dsimp only; split <;> rfl
@[simp] theorem ackEvents_validShared (s : State) (v : Word) : (ackEvents s v).validShared = s.validShared := by unfold ackEvents; dsimp only; split <;> rfl
@[simp] theorem ackEvents_validPrivate (s : State) (v : Word) : (ackEvents s v).validPrivate = s.validPrivate := by unfold ackEvents; dsimp only; split <;> rfl
@[simp] theorem ackEvents_validCode (s : State) (v : Word) : (ackEvents s v).validCode = s.validCode := by unfold ackEvents; dsimp only; split <;> rfl
@[simp] theorem ackEvents_validAddr (s : State) (v : Word) : (ackEvents s v).validAddr = s.validAddr := by unfold ackEvents; dsimp only; split <;> rfl
@[simp] theorem ackEvents_ks (s : State) (v : Word) : (ackEvents s v).ks = s.ks := by unfold ackEvents; dsimp only; split <;> rfl
@[simp] theorem ackEvents_tcValid (s : State) (v : Word) : (ackEvents s v).tcValid = s.tcValid := by unfold ackEvents; dsimp only; split <;> rfl
@[simp] theorem ackEvents_tcTweak (s : State) (v : Word) : (ackEvents s v).tcTweak = s.tcTweak := by unfold ackEvents; dsimp only; split <;> rfl
@[simp] theorem ackEvents_tcRtk (s : State) (v : Word) : (ackEvents s v).tcRtk = s.tcRtk := by unfold ackEvents; dsimp only; split <;> rfl
@[simp] theorem ackEvents_icv (s : State) (v : Word) : (ackEvents s v).icv = s.icv := by unfold ackEvents; dsimp only; split <;> rfl
@[simp] theorem ackEvents_dbuf (s : State) (v : Word) : (ackEvents s v).dbuf = s.dbuf := by unfold ackEvents; dsimp only; split <;> rfl
@[simp] theorem ackEvents_port (s : State) (v : Word) : (ackEvents s v).port = s.port := by unfold ackEvents; dsimp only; split <;> rfl
@[simp] theorem ackEvents_hostData (s : State) (v : Word) : (ackEvents s v).hostData = s.hostData := by unfold ackEvents; dsimp only; split <;> rfl

/-! ### report: the fields it leaves alone -/

@[simp] theorem report_a0 (s : State) (v : Violation) (g x : Word) : ((report s v g x).1).a0 = s.a0 := by unfold report; split <;> simp
@[simp] theorem report_a1 (s : State) (v : Violation) (g x : Word) : ((report s v g x).1).a1 = s.a1 := by unfold report; split <;> simp
@[simp] theorem report_a2 (s : State) (v : Violation) (g x : Word) : ((report s v g x).1).a2 = s.a2 := by unfold report; split <;> simp
@[simp] theorem report_a3 (s : State) (v : Violation) (g x : Word) : ((report s v g x).1).a3 = s.a3 := by unfold report; split <;> simp
@[simp] theorem report_r0 (s : State) (v : Violation) (g x : Word) : ((report s v g x).1).r0 = s.r0 := by unfold report; split <;> simp
@[simp] theorem report_r1 (s : State) (v : Violation) (g x : Word) : ((report s v g x).1).r1 = s.r1 := by unfold report; split <;> simp
@[simp] theorem report_status (s : State) (v : Violation) (g x : Word) : ((report s v g x).1).status = s.status := by unfold report; split <;> simp
@[simp] theorem report_halted (s : State) (v : Violation) (g x : Word) : ((report s v g x).1).halted = s.halted := by unfold report; split <;> simp
@[simp] theorem report_icvCtrl (s : State) (v : Violation) (g x : Word) : ((report s v g x).1).icvCtrl = s.icvCtrl := by unfold report; split <;> simp
@[simp] theorem report_ctxFlags (s : State) (v : Violation) (g x : Word) : ((report s v g x).1).ctxFlags = s.ctxFlags := by unfold report; split <;> simp
@[simp] theorem report_ctxShadow (s : State) (v : Violation) (g x : Word) : ((report s v g x).1).ctxShadow = s.ctxShadow := by unfold report; split <;> simp
@[simp] theorem report_ctxRsvd (s : State) (v : Violation) (g x : Word) : ((report s v g x).1).ctxRsvd = s.ctxRsvd := by unfold report; split <;> simp
@[simp] theorem report_kShared (s : State) (v : Violation) (g x : Word) : ((report s v g x).1).kShared = s.kShared := by unfold report; split <;> simp
@[simp] theorem report_kPrivate (s : State) (v : Violation) (g x : Word) : ((report s v g x).1).kPrivate = s.kPrivate := by unfold report; split <;> simp
@[simp] theorem report_kCode (s : State) (v : Violation) (g x : Word) : ((report s v g x).1).kCode = s.kCode := by unfold report; split <;> simp
@[simp] theorem report_kAddr (s : State) (v : Violation) (g x : Word) : ((report s v g x).1).kAddr = s.kAddr := by unfold report; split <;> simp
@[simp] theorem report_validShared (s : State) (v : Violation) (g x : Word) : ((report s v g x).1).validShared = s.validShared := by unfold report; split <;> simp
@[simp] theorem report_validPrivate (s : State) (v : Violation) (g x : Word) : ((report s v g x).1).validPrivate = s.validPrivate := by unfold report; split <;> simp
@[simp] theorem report_validCode (s : State) (v : Violation) (g x : Word) : ((report s v g x).1).validCode = s.validCode := by unfold report; split <;> simp
@[simp] theorem report_validAddr (s : State) (v : Violation) (g x : Word) : ((report s v g x).1).validAddr = s.validAddr := by unfold report; split <;> simp
@[simp] theorem report_ks (s : State) (v : Violation) (g x : Word) : ((report s v g x).1).ks = s.ks := by unfold report; split <;> simp
@[simp] theorem report_tcValid (s : State) (v : Violation) (g x : Word) : ((report s v g x).1).tcValid = s.tcValid := by unfold report; split <;> simp
@[simp] theorem report_tcTweak (s : State) (v : Violation) (g x : Word) : ((report s v g x).1).tcTweak = s.tcTweak := by unfold report; split <;> simp
@[simp] theorem report_tcRtk (s : State) (v : Violation) (g x : Word) : ((report s v g x).1).tcRtk = s.tcRtk := by unfold report; split <;> simp
@[simp] theorem report_icv (s : State) (v : Violation) (g x : Word) : ((report s v g x).1).icv = s.icv := by unfold report; split <;> simp
@[simp] theorem report_dbuf (s : State) (v : Violation) (g x : Word) : ((report s v g x).1).dbuf = s.dbuf := by unfold report; split <;> simp
@[simp] theorem report_port (s : State) (v : Violation) (g x : Word) : ((report s v g x).1).port = s.port := by unfold report; split <;> simp
@[simp] theorem report_hostData (s : State) (v : Violation) (g x : Word) : ((report s v g x).1).hostData = s.hostData := by unfold report; split <;> simp

/-! ### fillCache: the fields it leaves alone -/

@[simp] theorem fillCache_a0 (s : State) (c : TbcParams) (t : Tweak) : (fillCache c s t).a0 = s.a0 := by unfold fillCache; split <;> rfl
@[simp] theorem fillCache_a1 (s : State) (c : TbcParams) (t : Tweak) : (fillCache c s t).a1 = s.a1 := by unfold fillCache; split <;> rfl
@[simp] theorem fillCache_a2 (s : State) (c : TbcParams) (t : Tweak) : (fillCache c s t).a2 = s.a2 := by unfold fillCache; split <;> rfl
@[simp] theorem fillCache_a3 (s : State) (c : TbcParams) (t : Tweak) : (fillCache c s t).a3 = s.a3 := by unfold fillCache; split <;> rfl
@[simp] theorem fillCache_r0 (s : State) (c : TbcParams) (t : Tweak) : (fillCache c s t).r0 = s.r0 := by unfold fillCache; split <;> rfl
@[simp] theorem fillCache_r1 (s : State) (c : TbcParams) (t : Tweak) : (fillCache c s t).r1 = s.r1 := by unfold fillCache; split <;> rfl
@[simp] theorem fillCache_status (s : State) (c : TbcParams) (t : Tweak) : (fillCache c s t).status = s.status := by unfold fillCache; split <;> rfl
@[simp] theorem fillCache_events (s : State) (c : TbcParams) (t : Tweak) : (fillCache c s t).events = s.events := by unfold fillCache; split <;> rfl
@[simp] theorem fillCache_faultCause (s : State) (c : TbcParams) (t : Tweak) : (fillCache c s t).faultCause = s.faultCause := by unfold fillCache; split <;> rfl
@[simp] theorem fillCache_faultGaddr (s : State) (c : TbcParams) (t : Tweak) : (fillCache c s t).faultGaddr = s.faultGaddr := by unfold fillCache; split <;> rfl
@[simp] theorem fillCache_faultPtr (s : State) (c : TbcParams) (t : Tweak) : (fillCache c s t).faultPtr = s.faultPtr := by unfold fillCache; split <;> rfl
@[simp] theorem fillCache_halted (s : State) (c : TbcParams) (t : Tweak) : (fillCache c s t).halted = s.halted := by unfold fillCache; split <;> rfl
@[simp] theorem fillCache_icvCtrl (s : State) (c : TbcParams) (t : Tweak) : (fillCache c s t).icvCtrl = s.icvCtrl := by unfold fillCache; split <;> rfl
@[simp] theorem fillCache_ctxFlags (s : State) (c : TbcParams) (t : Tweak) : (fillCache c s t).ctxFlags = s.ctxFlags := by unfold fillCache; split <;> rfl
@[simp] theorem fillCache_ctxShadow (s : State) (c : TbcParams) (t : Tweak) : (fillCache c s t).ctxShadow = s.ctxShadow := by unfold fillCache; split <;> rfl
@[simp] theorem fillCache_ctxRsvd (s : State) (c : TbcParams) (t : Tweak) : (fillCache c s t).ctxRsvd = s.ctxRsvd := by unfold fillCache; split <;> rfl
@[simp] theorem fillCache_kShared (s : State) (c : TbcParams) (t : Tweak) : (fillCache c s t).kShared = s.kShared := by unfold fillCache; split <;> rfl
@[simp] theorem fillCache_kPrivate (s : State) (c : TbcParams) (t : Tweak) : (fillCache c s t).kPrivate = s.kPrivate := by unfold fillCache; split <;> rfl
@[simp] theorem fillCache_kCode (s : State) (c : TbcParams) (t : Tweak) : (fillCache c s t).kCode = s.kCode := by unfold fillCache; split <;> rfl
@[simp] theorem fillCache_kAddr (s : State) (c : TbcParams) (t : Tweak) : (fillCache c s t).kAddr = s.kAddr := by unfold fillCache; split <;> rfl
@[simp] theorem fillCache_validShared (s : State) (c : TbcParams) (t : Tweak) : (fillCache c s t).validShared = s.validShared := by unfold fillCache; split <;> rfl
@[simp] theorem fillCache_validPrivate (s : State) (c : TbcParams) (t : Tweak) : (fillCache c s t).validPrivate = s.validPrivate := by unfold fillCache; split <;> rfl
@[simp] theorem fillCache_validCode (s : State) (c : TbcParams) (t : Tweak) : (fillCache c s t).validCode = s.validCode := by unfold fillCache; split <;> rfl
@[simp] theorem fillCache_validAddr (s : State) (c : TbcParams) (t : Tweak) : (fillCache c s t).validAddr = s.validAddr := by unfold fillCache; split <;> rfl
@[simp] theorem fillCache_ks (s : State) (c : TbcParams) (t : Tweak) : (fillCache c s t).ks = s.ks := by unfold fillCache; split <;> rfl
@[simp] theorem fillCache_icv (s : State) (c : TbcParams) (t : Tweak) : (fillCache c s t).icv = s.icv := by unfold fillCache; split <;> rfl
@[simp] theorem fillCache_dbuf (s : State) (c : TbcParams) (t : Tweak) : (fillCache c s t).dbuf = s.dbuf := by unfold fillCache; split <;> rfl
@[simp] theorem fillCache_port (s : State) (c : TbcParams) (t : Tweak) : (fillCache c s t).port = s.port := by unfold fillCache; split <;> rfl
@[simp] theorem fillCache_hostData (s : State) (c : TbcParams) (t : Tweak) : (fillCache c s t).hostData = s.hostData := by unfold fillCache; split <;> rfl

end Sys2Proof.Machine
end

