-- ==== Sys2Proof/Laws/Ops.lean ====
section
/-! SUPPORT. What each shared operation of the machine can do, said once: the checks that come before a command runs, STATUS words,
reporting a violation, the tweak cache. -/

namespace Sys2Proof.Machine

/-! ### The checks before a command -/

theorem unlessHalted_running {s t : State} (h : s.halted = false) : unlessHalted s t = t := by
  rw [unlessHalted, h]; rfl

theorem unlessHalted_halted {s t : State} (h : s.halted = true) : unlessHalted s t = refuse s .errHalted := by
  rw [unlessHalted, h]; rfl

/-- A command with the halt check either is refused with ERR_HALTED or runs. -/
theorem unlessHalted_cases (s t : State) :
    (s.halted = true ∧ unlessHalted s t = refuse s .errHalted) ∨ (s.halted = false ∧ unlessHalted s t = t) := by
  cases h : s.halted
  · exact .inr ⟨rfl, unlessHalted_running h⟩
  · exact .inl ⟨rfl, unlessHalted_halted h⟩

theorem needKey_valid {s t : State} {k : KeySlot} (h : keyValid s k = true) : needKey s k t = t := by
  rw [needKey, if_pos h]

theorem needKey_missing {s t : State} {k : KeySlot} (h : keyValid s k = false) : needKey s k t = refuse s .errNokey := by
  rw [needKey, h]; rfl

/-- A command with a key check either is refused with ERR_NOKEY or runs. -/
theorem needKey_cases (s t : State) (k : KeySlot) :
    (keyValid s k = false ∧ needKey s k t = refuse s .errNokey) ∨ (keyValid s k = true ∧ needKey s k t = t) := by
  cases h : keyValid s k
  · exact .inl ⟨rfl, needKey_missing h⟩
  · exact .inr ⟨rfl, needKey_valid h⟩

/-- A command with a capacity check either is refused with ERR_ICV_FULL or leaves what it would leave. -/
theorem ifIcvFits_cases (c : Config) (s t : State) :
    (icvOverfull c t.icv = true ∧ ifIcvFits c s t = refuse s .errIcvFull) ∨
      (icvOverfull c t.icv = false ∧ ifIcvFits c s t = t) := by
  cases h : icvOverfull c t.icv
  · exact .inr ⟨rfl, by rw [ifIcvFits, h]; rfl⟩
  · exact .inl ⟨rfl, by rw [ifIcvFits, h]; rfl⟩

/-- The capacity check of the machine is the claims' capacity rule. -/
theorem ifIcvFits_hw (s t : State) : ifIcvFits Config.hw s t = underCapacity s t := rfl

/-! ### STATUS -/

/-- STATUS as a number: the code and the five flags at bits 8 to 12 (10_state.md R28). -/
theorem statusWord_eq (c : Code) (f : StatusFlags) : statusWord c f = BitVec.ofNat 63 ((codeBits c).toNat +
    ((if f.notBoxable = true then 2 ^ 8 else 0) + (if f.mismatch = true then 2 ^ 9 else 0) + (if f.uninitRead = true then 2 ^ 10 else 0) +
      (if f.mixed = true then 2 ^ 11 else 0) + (if f.corrected = true then 2 ^ 12 else 0))) := by
  obtain ⟨a, b, d, e, g⟩ := f
  cases c <;> cases a <;> cases b <;> cases d <;> cases e <;> cases g <;> rfl

/-- The code of a STATUS word is its low byte. -/
theorem statusWord_code (c : Code) (f : StatusFlags) : (statusWord c f).toNat % 256 = (codeBits c).toNat := by
  obtain ⟨a, b, d, e, g⟩ := f
  cases c <;> cases a <;> cases b <;> cases d <;> cases e <;> cases g <;> rfl

/-- A STATUS word with a refusal's code has no flag. -/
theorem statusWord_lt (c : Code) (f : StatusFlags) : (statusWord c f).toNat < 2 ^ 13 ∧ (codeBits c).toNat ≤ 6 := by
  obtain ⟨a, b, d, e, g⟩ := f
  cases c <;> cases a <;> cases b <;> cases d <;> cases e <;> cases g <;> decide

/-! ### Violations -/

/-- A report changes EVENTS and the FAULT registers only, by the policy of its class (60_exceptions.md R283). -/
theorem report_cases (s : State) (v : Violation) (g x : Word) :
    (policyFor s v = .ignore ∧ report s v g x = (s, false)) ∨
      (policyFor s v = .warn ∧ report s v g x = (setEvent s (violationClass v - 1), false)) ∨
      (policyFor s v = .fault ∧
        report s v g x = (latchFault (setEvent (setEvent s (violationClass v - 1)) 3) v g x, false)) ∨
      (policyFor s v = .brk ∧
        report s v g x = (setEvent (latchFault (setEvent (setEvent s (violationClass v - 1)) 3) v g x) 4, true)) := by
  cases h : policyFor s v <;> simp [report, h]

/-- A report asks for a halt exactly under policy Break. -/
theorem report_break (s : State) (v : Violation) (g x : Word) : (report s v g x).2 = decide (policyFor s v = .brk) := by
  rcases report_cases s v g x with ⟨h, e⟩ | ⟨h, e⟩ | ⟨h, e⟩ | ⟨h, e⟩ <;> simp [h, e]

/-- The policies do not change under a report. -/
theorem policyFor_report (s : State) (v w : Violation) (g x : Word) : policyFor (report s v g x).1 w = policyFor s w := by
  cases w <;> simp [policyFor]

/-! ### The tweak cache -/

/-- From a coherent cache, asking for a tweak leaves the cache holding that tweak's schedule, hit or miss (43_tweak_cipher.md R157). -/
theorem fillCache_hw {s : State} (h : CacheCoherent s) (tw : Word) :
    fillCache Config.hw.tbc s (usedTweak tw) = holdingSchedule s tw := by
  have ht : usedTweak tw = BitVec.ofNat 40 tw.toNat := by
    apply BitVec.eq_of_toNat_eq
    simp [usedTweak, BitVec.extractLsb, BitVec.extractLsb'_toNat]
  unfold fillCache holdingSchedule
  split
  · rename_i hc
    have hr := h hc.1
    rw [← ht, ← hc.2, ← hr, ← hc.1]
  · rw [ht]

end Sys2Proof.Machine
end

