-- ==== Sys2Proof/Laws/Integrity.lean ====
section
/-! SUPPORT. What a granule step and a run of granule steps can do, said once (47_integrity_map.md R228, R242). -/

namespace Sys2Proof.Machine

/-! ### Reports and the map -/

theorem latchFault_icvWrite (s : State) (j : Nat) (e : Word) (v : Violation) (g x : Word) :
    latchFault (icvWrite s j e) v g x = icvWrite (latchFault s v g x) j e := by
  by_cases hc : s.faultCause = 0
  · rw [latchFault, latchFault, if_pos hc, if_pos (show (icvWrite s j e).faultCause = 0 from hc)]
    rfl
  · rw [latchFault, latchFault, if_neg hc, if_neg (show ¬(icvWrite s j e).faultCause = 0 from hc)]

theorem report_icvWrite (s : State) (j : Nat) (e : Word) (v : Violation) (g x : Word) :
    report (icvWrite s j e) v g x = (icvWrite (report s v g x).1 j e, (report s v g x).2) := by
  have hp : policyFor (icvWrite s j e) v = policyFor s v := by cases v <;> rfl
  have he : ∀ (t : State) k, setEvent (icvWrite t j e) k = icvWrite (setEvent t k) j e := fun _ _ => rfl
  rcases report_cases s v g x with ⟨h, r⟩ | ⟨h, r⟩ | ⟨h, r⟩ | ⟨h, r⟩ <;> rw [r, report, hp, h] <;>
    simp only [he, latchFault_icvWrite]

/-- One report of a run of granule steps: the class, the granule's index, the pointer value. -/
structure Report where
  kind : Violation
  index : Nat
  pointer : Word

/-- The reports of a list made one after the other (60_exceptions.md R283, R286). -/
def reportAll (s : State) (rs : List Report) : State :=
  rs.foldl (fun u r => (report u r.kind (granuleAddress r.index) r.pointer).1) s

/-- The mismatch bit of a granule under the lock, from the map before the access (47_integrity_map.md R228). -/
def missAt (s : State) (i : Nat) (x : Word) : Bool :=
  lockEnabled s && !ptrMatches x (icvRead s i)

/-- The uninitialized-read bit of a granule under the lock (47_integrity_map.md R228). -/
def uninitAt (s : State) (i : Nat) (kind : AccessKind) : Bool :=
  lockEnabled s && decide (kind = .read) && entryUninit (icvRead s i)

/-- The reports of one granule, the mismatch first (60_exceptions.md R286). -/
def reportsAt (s : State) (i : Nat) (x : Word) (kind : AccessKind) : List Report :=
  (if missAt s i x = true then [⟨.mismatch, i, x⟩] else []) ++ (if uninitAt s i kind = true then [⟨.uninit, i, x⟩] else [])

/-- Whether a granule step stores: always without the lock, on a write with it (47_integrity_map.md R228). -/
def stores (s : State) (kind : AccessKind) : Bool :=
  !lockEnabled s || decide (kind = .write)

theorem reportAll_append (s : State) (rs rs' : List Report) : reportAll s (rs ++ rs') = reportAll (reportAll s rs) rs' :=
  List.foldl_append

theorem reportAll_icvWrite (s : State) (j : Nat) (e : Word) (rs : List Report) :
    reportAll (icvWrite s j e) rs = icvWrite (reportAll s rs) j e := by
  induction rs generalizing s with
  | nil => rfl
  | cons r rs ih =>
    rw [reportAll, List.foldl_cons, report_icvWrite]
    exact ih _

/-- Reports change EVENTS and the FAULT registers only. -/
theorem reportAll_frame (s : State) (rs : List Report) :
    reportAll s rs = { s with
      events := (reportAll s rs).events, faultCause := (reportAll s rs).faultCause
      faultGaddr := (reportAll s rs).faultGaddr, faultPtr := (reportAll s rs).faultPtr } := by
  induction rs generalizing s with
  | nil => rfl
  | cons r rs ih =>
    refine (ih (report s r.kind (granuleAddress r.index) r.pointer).1).trans ?_
    simp [reportAll]

@[simp] theorem lockEnabled_report (s : State) (v : Violation) (g x : Word) :
    lockEnabled (report s v g x).1 = lockEnabled s := by simp [lockEnabled]

theorem policyFor_reportAll (s : State) (rs : List Report) (v : Violation) : policyFor (reportAll s rs) v = policyFor s v := by
  rw [reportAll_frame]; cases v <;> rfl

theorem reportAll_icv (s : State) (rs : List Report) : (reportAll s rs).icv = s.icv := by
  rw [reportAll_frame]

theorem lockEnabled_reportAll (s : State) (rs : List Report) : lockEnabled (reportAll s rs) = lockEnabled s := by
  rw [reportAll_frame]; rfl

/-! ### One granule -/

/-- One granule step: its reports, then its store; its bits; a halt is asked for exactly when a report was made under Break. -/
theorem granuleStep_eq (s : State) (i : Nat) (x : Word) (kind : AccessKind) :
    granuleStep s i x kind =
      { st := if stores s kind = true then icvWrite (reportAll s (reportsAt s i x kind)) i (refresh (icvRead s i) x kind)
          else reportAll s (reportsAt s i x kind)
        brk := (reportsAt s i x kind).any fun r => decide (policyFor s r.kind = .brk)
        mismatch := missAt s i x
        uninit := uninitAt s i kind } := by
  unfold granuleStep reportsAt missAt uninitAt stores reportAll
  cases hl : lockEnabled s
  · simp
  · cases hm : ptrMatches x (icvRead s i) <;> cases hu : entryUninit (icvRead s i) <;> cases kind <;>
      simp [report_break, policyFor_report, hm, hu]

/-! ### A run of granules -/

/-- All reports of a run of n granules from index i and pointer p, in ascending granule order (60_exceptions.md R286). -/
def reportsOf (s : State) (i : Nat) (p : Word) (kind : AccessKind) (n : Nat) : List Report :=
  (List.range n).flatMap fun k => reportsAt s (i + k) (p + BitVec.ofNat 64 (8 * k)) kind

theorem pointer_next (p : Word) (k : Nat) : p + BitVec.ofNat 64 (8 * (k + 1)) = p + 8 + BitVec.ofNat 64 (8 * k) := by
  have : BitVec.ofNat 64 (8 * (k + 1)) = 8 + BitVec.ofNat 64 (8 * k) := by
    rw [Nat.mul_succ, Nat.add_comm, BitVec.ofNat_add]; rfl
  rw [this, BitVec.add_assoc]

/-- What an access leaves of a run of n granules: the bits of each granule from the map before it, all reports in order, the entries
refreshed where the access stores, every other entry as it was. -/
theorem granuleSteps_eq (s : State) (i : Nat) (p : Word) (kind : AccessKind) (n : Nat) (hw : icvWf s.icv = true)
    (hi : i + n ≤ 2 ^ 61) :
    ∃ m : IcvMap, icvWf m = true ∧
      (∀ j, cellsRead m j = if i ≤ j ∧ j < i + n ∧ stores s kind = true then
        refresh (icvRead s j) (p + BitVec.ofNat 64 (8 * (j - i))) kind else icvRead s j) ∧
      granuleSteps s i p kind n =
        { st := { reportAll s (reportsOf s i p kind n) with icv := m }
          brk := (reportsOf s i p kind n).any fun r => decide (policyFor s r.kind = .brk)
          bits := (List.range n).map fun k =>
            (missAt s (i + k) (p + BitVec.ofNat 64 (8 * k)), uninitAt s (i + k) kind) } := by
  induction n generalizing s i p with
  | zero =>
    refine ⟨s.icv, hw, fun j => ?_, rfl⟩
    rw [if_neg (by omega)]
    rfl
  | succ n ih =>
    let g := granuleStep s i p kind
    have hg : g = _ := granuleStep_eq s i p kind
    have hgl : lockEnabled g.st = lockEnabled s := by
      rw [hg]; dsimp only; split
      · exact lockEnabled_reportAll s _
      · exact lockEnabled_reportAll s _
    have hgp : ∀ v, policyFor g.st v = policyFor s v := by
      intro v; rw [hg]; dsimp only; split
      · exact policyFor_reportAll s _ v
      · exact policyFor_reportAll s _ v
    have hgs : stores g.st kind = stores s kind := by rw [stores, stores, hgl]
    have hgw : icvWf g.st.icv = true := by
      rw [hg]; dsimp only; split
      · exact icvWrite_wf _ (by rw [reportAll_icv]; exact hw) (by omega)
      · rw [reportAll_icv]; exact hw
    have hgr : ∀ j, icvRead g.st j = if j = i ∧ stores s kind = true then refresh (icvRead s i) p kind else icvRead s j := by
      intro j; rw [hg]; dsimp only
      by_cases hs : stores s kind = true
      · rw [if_pos hs, icvRead_write _ (by rw [reportAll_icv]; exact hw)]
        by_cases hj : j = i
        · rw [if_pos hj, if_pos ⟨hj, hs⟩]
        · rw [if_neg hj, if_neg (fun h => hj h.1), icvRead, reportAll_icv]; rfl
      · rw [if_neg hs, if_neg (fun h => hs h.2), icvRead, reportAll_icv]; rfl
    have hlater : ∀ k, icvRead g.st (i + 1 + k) = icvRead s (i + 1 + k) := fun k => by
      rw [hgr, if_neg (by omega)]
    have hmiss : ∀ k x, missAt g.st (i + 1 + k) x = missAt s (i + 1 + k) x := fun k x => by
      rw [missAt, missAt, hgl, hlater]
    have huninit : ∀ k, uninitAt g.st (i + 1 + k) kind = uninitAt s (i + 1 + k) kind := fun k => by
      rw [uninitAt, uninitAt, hgl, hlater]
    have hreps : reportsOf g.st (i + 1) (p + 8) kind n =
        (List.range n).flatMap fun k => reportsAt s (i + (k + 1)) (p + BitVec.ofNat 64 (8 * (k + 1))) kind := by
      unfold reportsOf reportsAt
      refine congrArg (fun f => List.flatMap f (List.range n)) (funext fun k => ?_)
      rw [hmiss, huninit, pointer_next, show i + (k + 1) = i + 1 + k by omega]
    have hall : reportsOf s i p kind (n + 1) = reportsAt s i p kind ++ reportsOf g.st (i + 1) (p + 8) kind n := by
      rw [hreps, reportsOf, List.range_succ_eq_map, List.flatMap_cons, List.flatMap_map]
      simp
    obtain ⟨m, hm, hr, he⟩ := ih g.st (i + 1) (p + 8) hgw (by omega)
    refine ⟨m, hm, fun j => ?_, ?_⟩
    · rw [hr, hgs]
      by_cases h1 : i + 1 ≤ j ∧ j < i + 1 + n ∧ stores s kind = true
      · rw [if_pos h1, if_pos ⟨by omega, by omega, h1.2.2⟩, show j = i + 1 + (j - (i + 1)) by omega, hlater, ← pointer_next]
        congr 4
        omega
      · rw [if_neg h1, hgr]
        by_cases h2 : j = i ∧ stores s kind = true
        · rw [if_pos h2, if_pos ⟨by omega, by omega, h2.2⟩, h2.1]
          simp
        · rw [if_neg h2, if_neg]
          rintro ⟨ha, hb, hc⟩
          exact h1 ⟨by by_contra hlt; exact h2 ⟨by omega, hc⟩, by omega, hc⟩
    · have hst : ∀ rs, ({ reportAll g.st rs with icv := m } : State) = { reportAll (reportAll s (reportsAt s i p kind)) rs with icv := m } := by
        intro rs; rw [hg]; dsimp only; split
        · rw [reportAll_icvWrite]; rfl
        · rfl
      rw [granuleSteps]
      change AccessOutcome.mk (granuleSteps g.st (i + 1) (p + 8) kind n).st
        (g.brk || (granuleSteps g.st (i + 1) (p + 8) kind n).brk)
        ((g.mismatch, g.uninit) :: (granuleSteps g.st (i + 1) (p + 8) kind n).bits) = _
      rw [he, hall, reportAll_append]
      dsimp only
      rw [hst, List.any_append]
      congr 1
      · simp only [hgp]
        rw [hg]
      · rw [List.range_succ_eq_map, List.map_cons, List.map_map]
        congr 1
        · rw [hg]; simp
        · refine List.map_congr_left fun k _ => ?_
          dsimp only [Function.comp]
          rw [hmiss, huninit, ← pointer_next, show i + (k + 1) = i + 1 + k by omega]

/-- A run of granule steps changes EVENTS, the FAULT registers and the map only. -/
theorem granuleSteps_frame (s : State) (i : Nat) (p : Word) (kind : AccessKind) (n : Nat) :
    (granuleSteps s i p kind n).st = { s with
      events := (granuleSteps s i p kind n).st.events, faultCause := (granuleSteps s i p kind n).st.faultCause
      faultGaddr := (granuleSteps s i p kind n).st.faultGaddr, faultPtr := (granuleSteps s i p kind n).st.faultPtr
      icv := (granuleSteps s i p kind n).st.icv } := by
  induction n generalizing s i p with
  | zero => rfl
  | succ n ih =>
    have h1 : (granuleStep s i p kind).st = { s with
        events := (granuleStep s i p kind).st.events, faultCause := (granuleStep s i p kind).st.faultCause
        faultGaddr := (granuleStep s i p kind).st.faultGaddr, faultPtr := (granuleStep s i p kind).st.faultPtr
        icv := (granuleStep s i p kind).st.icv } := by
      rw [granuleStep_eq]
      dsimp only
      split
      · rw [reportAll_frame]; rfl
      · rw [reportAll_frame]
    refine (ih (granuleStep s i p kind).st (i + 1) (p + 8)).trans ?_
    change _ = { s with
      events := (granuleSteps (granuleStep s i p kind).st (i + 1) (p + 8) kind n).st.events
      faultCause := (granuleSteps (granuleStep s i p kind).st (i + 1) (p + 8) kind n).st.faultCause
      faultGaddr := (granuleSteps (granuleStep s i p kind).st (i + 1) (p + 8) kind n).st.faultGaddr
      faultPtr := (granuleSteps (granuleStep s i p kind).st (i + 1) (p + 8) kind n).st.faultPtr
      icv := (granuleSteps (granuleStep s i p kind).st (i + 1) (p + 8) kind n).st.icv }
    generalize granuleSteps (granuleStep s i p kind).st (i + 1) (p + 8) kind n = g
    rw [h1]

end Sys2Proof.Machine
end

