-- ==== Sys2Proof/Laws/Exec.lean ====
section
/-! SUPPORT. What a command can leave behind, said once for all commands: one case for each kind of effect, from which frames and
invariants follow without unfolding a meaning again. -/

namespace Sys2Proof.Machine

/-- The commands that write nothing but R0, R1 and STATUS. -/
def writesResultsOnly (i : Instr) : Prop :=
  i ∈ [Instr.nop, .caGetPlaintext, .caGetCiphertext, .caGetEncsize, .caGetAdjust, .caGetSprime, .caGetSbit, .caGetVersion,
    .caIsCanonical, .caIsCa, .decodeSize, .caSetPlaintext, .caSetCiphertext, .caSetEncsize, .caSetVersion, .classify,
    .ptrDecorate, .ptrUndecorate, .ptrDecodeIf, .icvGet, .icvCorrect] ∨ ∃ k, i = .prfStream k

/-- The commands that evaluate the cipher (45_pointer_codec.md section 2, 43_tweak_cipher.md R157). -/
def usesCipher (i : Instr) : Prop :=
  i ∈ [Instr.tbcEnc, .tbcDec, .ptrEncrypt, .ptrDecrypt, .ptrEncode, .ptrDecode, .ptrDecodeIf]

/-- The commands that store one entry without a check (47_integrity_map.md R230, R233 to R235). -/
def storesEntry (i : Instr) : Prop :=
  i ∈ [Instr.icvSet, .icvInit, .icvPreinit, .icvInvalidate]

/-- What the command i, run in s, leaves behind. -/
inductive Leaves (i : Instr) (s : State) : State → Prop
  | refused (c : Code) (hc : c ≠ .ok) (hi : i ≠ .resume) : Leaves i s (refuse s c)
  | results (hi : writesResultsOnly i) (hs : s.halted = false) (r0 r1 : Word) (f : StatusFlags) : Leaves i s (complete s r0 r1 f)
  | cipher (hi : usesCipher i) (hs : s.halted = false) (hk : s.validAddr = true) (tw : Word) (r0 r1 : Word) :
      Leaves i s (complete (fillCache Config.hw.tbc s (usedTweak tw)) r0 r1)
  | masked (k : KeySlot) (hi : i = .dataMask k) (hs : s.halted = false) (bs : List Byte) (hb : bs.length ≤ 128) (r0 : Word) :
      Leaves i s (complete (memWrite s 0 bs) r0 0)
  | stored (hi : storesEntry i) (hs : s.halted = false) (j : Nat) (hj : j < 2 ^ 61) (v : Word)
      (hf : icvOverfull Config.hw (icvWrite s j v).icv = false)
      (hv : i = .icvPreinit ∨ i = .icvInvalidate → v.getLsbD 1 = true ∧ v.getLsbD 2 = true) :
      Leaves i s (complete (icvWrite s j v) 0 0)
  | checked (kind : AccessKind) (hi : i = .icvCheckOrSet kind) (hs : s.halted = false) (r0 r1 : Word) (f : StatusFlags)
      (hf : icvOverfull Config.hw (granuleSteps s (granuleIndex s.a0) s.a1 kind 1).st.icv = false) :
      Leaves i s (haltIf (granuleSteps s (granuleIndex s.a0) s.a1 kind 1).brk
        (complete (granuleSteps s (granuleIndex s.a0) s.a1 kind 1).st r0 r1 f))
  | accessed (kind : AccessKind) (hi : i = .icvAccess kind) (hs : s.halted = false) (r0 r1 : Word) (f : StatusFlags) (mixed : Bool)
      (ha : accessRefused s.a0 s.a2 = false)
      (hf : icvOverfull Config.hw
        (granuleSteps s (granuleIndex s.a0) s.a1 kind (granuleCount s.a0 s.a2)).st.icv = false) :
      Leaves i s (haltIf (granuleSteps s (granuleIndex s.a0) s.a1 kind (granuleCount s.a0 s.a2)).brk
        (complete
          (if mixed then setEvent (granuleSteps s (granuleIndex s.a0) s.a1 kind (granuleCount s.a0 s.a2)).st 2
            else (granuleSteps s (granuleIndex s.a0) s.a1 kind (granuleCount s.a0 s.a2)).st) r0 r1 f))
  | keyed (k : KeySlot) (hi : i = .keySet k) (hs : s.halted = false) : Leaves i s (complete (loadKeySlot s k) 0 0)
  | saved (hi : i = .ctxSave) (hs : s.halted = false) : Leaves i s (complete (memWrite s 0 (contextRecord s)) 0 0)
  | loaded (hi : i = .ctxLoad) (hs : s.halted = false) : Leaves i s (complete (loadRecord s) 0 0)
  | resumed (hi : i = .resume) : Leaves i s (complete (leaveHalt s) 0 0)

theorem granuleSteps_one (s : State) (i : Nat) (p : Word) (kind : AccessKind) :
    (granuleSteps s i p kind 1).st = (granuleStep s i p kind).st ∧ (granuleSteps s i p kind 1).brk = (granuleStep s i p kind).brk := by
  simp [granuleSteps]

theorem granuleIndex_lt (a : Word) : granuleIndex a < 2 ^ 61 := by
  have := a.isLt
  simp only [granuleIndex, BitVec.toNat_ushiftRight, Nat.shiftRight_eq_div_pow]
  omega

theorem maskBytes_length (c : PrfParams) (key : DataKey) (a : Word) (d : List Byte) : (maskBytes c key a d).length = d.length := by
  induction d generalizing a with
  | nil => rfl
  | cons b d ih => simp [maskBytes, ih]

theorem contextRecord_length (s : State) : (contextRecord s).length = 104 := by
  simp [contextRecord, leBytes_length]

section
variable {i : Instr} {s : State}

theorem leaves_unlessHalted {t : State} (hi : i ≠ .resume) (h : s.halted = false → Leaves i s t) :
    Leaves i s (unlessHalted s t) := by
  rcases unlessHalted_cases s t with ⟨_, e⟩ | ⟨hs, e⟩ <;> rw [e]
  · exact .refused _ (by decide) hi
  · exact h hs

theorem leaves_needKey {t : State} {k : KeySlot} (hi : i ≠ .resume) (h : keyValid s k = true → Leaves i s t) :
    Leaves i s (needKey s k t) := by
  rcases needKey_cases s t k with ⟨_, e⟩ | ⟨hk, e⟩ <;> rw [e]
  · exact .refused _ (by decide) hi
  · exact h hk

theorem leaves_ifIcvFits {t : State} (hi : i ≠ .resume) (h : icvOverfull Config.hw t.icv = false → Leaves i s t) :
    Leaves i s (ifIcvFits Config.hw s t) := by
  rcases ifIcvFits_cases Config.hw s t with ⟨_, e⟩ | ⟨hf, e⟩ <;> rw [e]
  · exact .refused _ (by decide) hi
  · exact h hf

theorem leaves_storeEntry {j : Nat} {v : Word} (hi : storesEntry i) (hr : i ≠ .resume) (hj : j < 2 ^ 61)
    (hv : i = .icvPreinit ∨ i = .icvInvalidate → v.getLsbD 1 = true ∧ v.getLsbD 2 = true) :
    Leaves i s (storeEntry Config.hw s j v) :=
  leaves_unlessHalted hr fun hs => leaves_ifIcvFits hr fun hf => .stored hi hs j hj v hf hv

end

/-- Whatever a command answers, it leaves one of the cases of `Leaves`. -/
theorem exec_leaves {i : Instr} {s t : State} (h : exec i s = .next t) : Leaves i s t := by
  cases i
  case prfStream k =>
    obtain rfl := Host.Outcome.next.inj h
    refine leaves_unlessHalted (by simp) fun hs => ?_
    split
    · exact .refused _ (by decide) (by simp)
    · exact leaves_needKey (by simp) fun _ => .results (.inr ⟨k, rfl⟩) hs _ _ _
  case tbcEnc | tbcDec | ptrEncrypt | ptrDecrypt | ptrEncode | ptrDecode =>
    obtain rfl := Host.Outcome.next.inj h
    exact leaves_unlessHalted (by simp) fun hs => leaves_needKey (by simp) fun hk =>
      .cipher (by simp [usesCipher]) hs hk _ _ _
  case ptrDecodeIf =>
    obtain rfl := Host.Outcome.next.inj h
    refine leaves_unlessHalted (by simp) fun hs => ?_
    split
    · exact leaves_needKey (by simp) fun hk => .cipher (by simp [usesCipher]) hs hk _ _ _
    · exact .results (by simp [writesResultsOnly]) hs _ _ _
  case dataMask k =>
    obtain rfl := Host.Outcome.next.inj h
    refine leaves_unlessHalted (by simp) fun hs => ?_
    split
    · exact .refused _ (by decide) (by simp)
    · split
      · exact .refused _ (by decide) (by simp)
      · exact leaves_needKey (by simp) fun _ =>
          .masked k rfl hs _ (by rw [maskBytes_length]; simp only [memRead, List.length_map, List.length_range]; omega) _
  case icvSet =>
    obtain rfl := Host.Outcome.next.inj h
    exact leaves_storeEntry (by simp [storesEntry]) (by simp) (BitVec.isLt _) (by simp)
  case icvInit =>
    obtain rfl := Host.Outcome.next.inj h
    exact leaves_storeEntry (by simp [storesEntry]) (by simp) (granuleIndex_lt _) (by simp)
  case icvPreinit =>
    obtain rfl := Host.Outcome.next.inj h
    exact leaves_storeEntry (by simp [storesEntry]) (by simp) (granuleIndex_lt _) (fun _ => by simp)
  case icvInvalidate =>
    obtain rfl := Host.Outcome.next.inj h
    exact leaves_storeEntry (by simp [storesEntry]) (by simp) (granuleIndex_lt _) (fun _ => by decide)
  case icvCheckOrSet kind =>
    obtain rfl := Host.Outcome.next.inj h
    refine leaves_unlessHalted (by simp) fun hs => leaves_ifIcvFits (by simp) fun hf => ?_
    have e := granuleSteps_one s (granuleIndex s.a0) s.a1 kind
    rw [← e.1, ← e.2]
    refine .checked kind rfl hs _ _ _ ?_
    rw [e.1]
    simpa using hf
  case icvAccess kind =>
    obtain rfl := Host.Outcome.next.inj h
    refine leaves_unlessHalted (by simp) fun hs => ?_
    split
    · exact .refused _ (by decide) (by simp)
    · rename_i ha
      refine leaves_ifIcvFits (by simp) fun hf => ?_
      refine .accessed kind rfl hs _ _ _ _ (by simpa using ha) ?_
      revert hf
      simp only [haltIf_icv, complete_icv]
      split <;> exact id
  case keySet k =>
    obtain rfl := Host.Outcome.next.inj h
    exact leaves_unlessHalted (by simp) fun hs => .keyed k rfl hs
  case ctxSave =>
    obtain rfl := Host.Outcome.next.inj h
    exact leaves_unlessHalted (by simp) fun hs => .saved rfl hs
  case ctxLoad =>
    obtain rfl := Host.Outcome.next.inj h
    exact leaves_unlessHalted (by simp) fun hs => .loaded rfl hs
  case resume =>
    obtain rfl := Host.Outcome.next.inj h
    exact .resumed rfl
  case classify =>
    obtain rfl := Host.Outcome.next.inj h
    refine leaves_unlessHalted (by simp) fun hs => ?_
    split <;> exact .results (by simp [writesResultsOnly]) hs _ _ _
  all_goals
    obtain rfl := Host.Outcome.next.inj h
    exact leaves_unlessHalted (by simp) fun hs => .results (by simp [writesResultsOnly]) hs _ _ _

/-- The granules of an accepted access lie below 2^61 (47_integrity_map.md R240, R241). -/
theorem access_in_range {s : State} (h : accessRefused s.a0 s.a2 = false) :
    granuleIndex s.a0 + granuleCount s.a0 s.a2 ≤ 2 ^ 61 := by
  have h1 := granuleIndex_lt s.a0
  unfold granuleCount
  split
  · omega
  · rename_i h0
    have h2 := granuleIndex_lt (s.a0 + s.a2 - 1)
    have hne : 0 < s.a2.toNat := by
      have : s.a2.toNat ≠ 0 := fun h => h0 (BitVec.eq_of_toNat_eq (by simpa using h))
      omega
    simp only [accessRefused, Bool.or_eq_false_iff, decide_eq_false_iff_not, Bool.and_eq_false_iff] at h
    have h3 : s.a0.toNat + (s.a2.toNat - 1) < 2 ^ 64 := by omega
    have e : (s.a0 + s.a2 - 1).toNat = s.a0.toNat + (s.a2.toNat - 1) := by
      have := s.a2.isLt
      simp [BitVec.toNat_sub, BitVec.toNat_add]; omega
    have hle : granuleIndex s.a0 ≤ granuleIndex (s.a0 + s.a2 - 1) := by
      simp only [granuleIndex, BitVec.toNat_ushiftRight, Nat.shiftRight_eq_div_pow, e]
      omega
    omega

end Sys2Proof.Machine
end

