-- ==== Sys2Proof/Laws/Fields.lean ====
section
/-! SUPPORT. Fields of a word as numbers, the size of a slot, and the SlotSizer, each said once (41_bitfield_codec.md, 42_slot_sizer.md). -/

namespace Sys2Proof.Machine

/-- A field of a word as a number. -/
theorem toNat_extractLsb (x : Word) (hi lo : Nat) : (x.extractLsb hi lo).toNat = x.toNat / 2 ^ lo % 2 ^ (hi - lo + 1) := by
  simp [BitVec.extractLsb, BitVec.extractLsb'_toNat, Nat.shiftRight_eq_div_pow]

/-- A CA is a value whose enc_size is neither 0 nor 63 (10_state.md R25). -/
theorem isCa_eq (x : Word) : isCa x = decide (x.toNat / 2 ^ 56 % 64 ≠ 0 ∧ x.toNat / 2 ^ 56 % 64 ≠ 63) := by
  have := toNat_extractLsb x 61 56
  unfold isCa
  rw [Bool.eq_iff_iff]
  simp only [Bool.and_eq_true, bne_iff_ne, decide_eq_true_eq, ne_eq, BitVec.toNat_eq, this]
  simp

/-- The slot size as a power of two with its range of exponents (41_bitfield_codec.md R115, 00_scope.md R4). -/
theorem sizeBytes_eq (mao : Nat) (z : BitVec 6) : sizeBytes mao z = if 1 ≤ z.toNat + mao ∧ z.toNat + mao ≤ 64 then BitVec.ofNat 64 (2 ^ (z.toNat + mao - 1)) else 0 := by
  unfold sizeBytes shl1
  by_cases h : 1 ≤ z.toNat + mao ∧ z.toNat + mao ≤ 64
  · rw [if_pos h, if_pos (by omega)]
    congr 3; omega
  · rw [if_neg h, if_neg (by omega)]

/-- The STATUS word of a command that completes without a flag. -/
theorem statusWord_ok : statusWord .ok {} = 0 := by decide

/-- Completing without a flag. -/
theorem complete_plain (s : State) (x y : Word) : complete s x y = { s with r0 := x, r1 := y, status := 0 } := by
  rw [complete, statusWord_ok]

/-! ### Leading zeros and the size class -/

theorem clzBelow_le (v : Word) (n : Nat) : clzBelow v n ≤ n := by
  induction n with
  | zero => exact Nat.le_refl 0
  | succ n ih => unfold clzBelow; split <;> omega

/-- The bit length of the low n bits is at most k when the bits from k on are zero. -/
theorem bitLength_le_iff (v : Word) {n k : Nat} (hk : k ≤ n) :
    n - clzBelow v n ≤ k ↔ ∀ j, k ≤ j → j < n → v.getLsbD j = false := by
  induction n with
  | zero => simp
  | succ n ih =>
    have hn := clzBelow_le v n
    unfold clzBelow
    cases h : v.getLsbD n
    · simp only [Bool.false_eq_true, if_false]
      by_cases e : k = n + 1
      · exact ⟨fun _ j h1 h2 => by omega, fun _ => by omega⟩
      · have := ih (by omega)
        rw [show n + 1 - (1 + clzBelow v n) = n - clzBelow v n by omega, this]
        refine ⟨fun a j h1 h2 => ?_, fun a j h1 h2 => a j h1 (by omega)⟩
        by_cases ej : j = n
        · exact ej ▸ h
        · exact a j h1 (by omega)
    · simp only [if_true]
      refine ⟨fun a j h1 h2 => by omega, fun a => ?_⟩
      by_contra hc
      have := a n (by omega) (by omega)
      rw [h] at this; cases this

/-- Leading zeros of an XOR say from which bit on two numbers agree (42_slot_sizer.md R132). -/
theorem clz64_xor_le_iff (a : Word) {sum : Nat} (k : Nat) (hs : sum < 2 ^ 64) (hk : k ≤ 64) :
    64 - clz64 (a ^^^ BitVec.ofNat 64 sum) ≤ k ↔ a.toNat / 2 ^ k = sum / 2 ^ k := by
  unfold clz64
  rw [bitLength_le_iff _ hk]
  have hmod : (BitVec.ofNat 64 sum).toNat = sum := by rw [BitVec.toNat_ofNat]; exact Nat.mod_eq_of_lt hs
  constructor
  · intro h
    apply Nat.eq_of_testBit_eq
    intro j
    rw [Nat.testBit_div_two_pow, Nat.testBit_div_two_pow]
    by_cases hj : j + k < 64
    · have := h (j + k) (by omega) hj
      rw [BitVec.getLsbD_xor, BitVec.getLsbD, BitVec.getLsbD, hmod] at this
      simpa using this
    · have p : ∀ x, x < 2 ^ 64 → x.testBit (j + k) = false := fun x hx =>
        Nat.testBit_lt_two_pow (Nat.lt_of_lt_of_le hx (Nat.pow_le_pow_right (by omega) (by omega)))
      rw [p _ a.isLt, p _ hs]
  · intro h j h1 h2
    have := congrArg (fun x => x.testBit (j - k)) h
    simp only [Nat.testBit_div_two_pow, show j - k + k = j by omega] at this
    rw [BitVec.getLsbD_xor, BitVec.getLsbD, BitVec.getLsbD, hmod, this, Bool.xor_self]

/-- The size class, where there is one, comes from the least number b of low bits whose removal makes the first and the last address
agree, and b is at most 32 (42_slot_sizer.md R132, R133). -/
theorem sizeClass_eq_some_iff {mao : Nat} {a len : Word} (sc : Nat) :
    sizeClass mao a len = some sc ↔ ∃ b, b ≤ 32 ∧ sc = b - mao + 1 ∧
      ∀ k, a.toNat / 2 ^ k = endAddress mao a len / 2 ^ k ↔ b ≤ k := by
  generalize hs : endAddress mao a len = sum
  have key : ∀ k, 64 ≤ k → sum < 2 ^ 64 → a.toNat / 2 ^ k = sum / 2 ^ k := fun k hk h => by
    have p := Nat.pow_le_pow_right (show 0 < 2 by omega) hk
    rw [Nat.div_eq_of_lt (Nat.lt_of_lt_of_le a.isLt p), Nat.div_eq_of_lt (Nat.lt_of_lt_of_le h p)]
  unfold sizeClass
  rw [hs]
  dsimp only
  split
  · rename_i h
    refine ⟨fun e => (by cases e), fun ⟨b, hb, _, hk⟩ => ?_⟩
    have := (hk 32).mpr hb
    have h1 := a.isLt
    omega
  · rename_i h
    have hlt : sum < 2 ^ 64 := by omega
    have hc := fun k => clz64_xor_le_iff a k hlt
    have hle : clz64 (a ^^^ BitVec.ofNat 64 sum) ≤ 64 := clzBelow_le _ _
    generalize clz64 (a ^^^ BitVec.ofNat 64 sum) = lz at *
    have hall : ∀ k, a.toNat / 2 ^ k = sum / 2 ^ k ↔ 64 - lz ≤ k := fun k => by
      by_cases hk : k ≤ 64
      · exact (hc k hk).symm
      · exact ⟨fun _ => by omega, fun _ => key k (by omega) hlt⟩
    split
    · refine ⟨fun e => (by cases e), fun ⟨b, hb, _, hk⟩ => ?_⟩
      have := (hall b).mp ((hk b).mpr (Nat.le_refl _))
      omega
    · refine ⟨fun e => ⟨64 - lz, by omega, (Option.some.inj e).symm, hall⟩, fun ⟨b, hb, e, hk⟩ => ?_⟩
      have e1 := (hall b).mp ((hk b).mpr (Nat.le_refl _))
      have e2 := (hk (64-lz)).mp ((hall _).mpr (Nat.le_refl _))
      rw [e]; congr 2; omega

/-- A range whose first and last address agree above bit b is at most 2 ^ b long. -/
theorem endAddress_bounds (mao : Nat) (a len : Word) {b : Nat} (h : a.toNat / 2 ^ b = endAddress mao a len / 2 ^ b) :
   max len.toNat (2 ^ mao) ≤ 2 ^ b ∧ mao ≤ b := by
  have hp : 0 < 2 ^ mao := Nat.pow_pos (by omega)
  have hb : 0 < 2 ^ b := Nat.pow_pos (by omega)
  unfold endAddress clampLength at h
  have h1 := Nat.div_add_mod a.toNat (2 ^ b)
  have h2 := Nat.div_add_mod (a.toNat + (max len.toNat (2 ^ mao) - 1)) (2 ^ b)
  have h3 := Nat.mod_lt (a.toNat + (max len.toNat (2 ^ mao) - 1)) hb
  rw [← h] at h2
  have h4 := Nat.mod_lt a.toNat hb
  generalize 2 ^ b * (a.toNat / 2 ^ b) = q at *
  have : max len.toNat (2 ^ mao) ≤ 2 ^ b := by omega
  refine ⟨this, ?_⟩
  exact (Nat.pow_le_pow_iff_right (a := 2) (by omega)).mp (by omega)

/-- A range is boxable exactly when it lies in one aligned 4 GiB slot (42_slot_sizer.md R132). -/
theorem sizeClass_isSome_iff (mao : Nat) (a len : Word) : (sizeClass mao a len).isSome = true ↔ a.toNat / 2 ^ 32 = endAddress mao a len / 2 ^ 32 := by
  rw [Option.isSome_iff_exists]
  constructor
  · rintro ⟨sc, h⟩
    obtain ⟨b, hb, _, hk⟩ := (sizeClass_eq_some_iff sc).mp h
    exact (hk 32).mpr hb
  · intro h
    by_cases h0 : endAddress mao a len < 2 ^ 64
    · refine ⟨_, (sizeClass_eq_some_iff _).mpr ⟨64 - clz64 (a ^^^ BitVec.ofNat 64 (endAddress mao a len)), (clz64_xor_le_iff a _ h0 (by omega)).mpr h, rfl, fun k => ?_⟩⟩
      by_cases hk : k ≤ 64
      · exact (clz64_xor_le_iff a _ h0 hk).symm
      · have p := Nat.pow_le_pow_right (show 0 < 2 by omega) (show 64 ≤ k by omega)
        rw [Nat.div_eq_of_lt (Nat.lt_of_lt_of_le a.isLt p), Nat.div_eq_of_lt (Nat.lt_of_lt_of_le h0 p)]
        exact ⟨fun _ => by omega, fun _ => rfl⟩
    · have := a.isLt; omega

end Sys2Proof.Machine
end

