-- ==== Sys2Proof/Laws/PerInstr.lean ====
section
/-! SUPPORT. Statements about each command as syntax. Family EncodedFields: the fields of the command word. -/

namespace Sys2Proof.Laws

/-- What the command word of a command holds (30_encoding.md R80, R81): the opcode in bits 7:0, KSEL in 9:8, AK in bit 10, zero
above. -/
def EncodedFields.Statement (i : Instr) : Prop :=
  (encode i).extractLsb 7 0 = opcodeOf i ∧ (encode i).extractLsb 9 8 = kselOf i ∧ (encode i).extractLsb 10 10 = akOf i ∧
    (encode i).extractLsb 63 11 = 0

theorem EncodedFields.nop : EncodedFields.Statement .nop :=
  ⟨rfl, rfl, rfl, rfl⟩

theorem EncodedFields.caGetPlaintext : EncodedFields.Statement .caGetPlaintext :=
  ⟨rfl, rfl, rfl, rfl⟩

theorem EncodedFields.caGetCiphertext : EncodedFields.Statement .caGetCiphertext :=
  ⟨rfl, rfl, rfl, rfl⟩

theorem EncodedFields.caGetEncsize : EncodedFields.Statement .caGetEncsize :=
  ⟨rfl, rfl, rfl, rfl⟩

theorem EncodedFields.caGetAdjust : EncodedFields.Statement .caGetAdjust :=
  ⟨rfl, rfl, rfl, rfl⟩

theorem EncodedFields.caGetSprime : EncodedFields.Statement .caGetSprime :=
  ⟨rfl, rfl, rfl, rfl⟩

theorem EncodedFields.caGetSbit : EncodedFields.Statement .caGetSbit :=
  ⟨rfl, rfl, rfl, rfl⟩

theorem EncodedFields.caGetVersion : EncodedFields.Statement .caGetVersion :=
  ⟨rfl, rfl, rfl, rfl⟩

theorem EncodedFields.caIsCanonical : EncodedFields.Statement .caIsCanonical :=
  ⟨rfl, rfl, rfl, rfl⟩

theorem EncodedFields.caIsCa : EncodedFields.Statement .caIsCa :=
  ⟨rfl, rfl, rfl, rfl⟩

theorem EncodedFields.decodeSize : EncodedFields.Statement .decodeSize :=
  ⟨rfl, rfl, rfl, rfl⟩

theorem EncodedFields.caSetPlaintext : EncodedFields.Statement .caSetPlaintext :=
  ⟨rfl, rfl, rfl, rfl⟩

theorem EncodedFields.caSetCiphertext : EncodedFields.Statement .caSetCiphertext :=
  ⟨rfl, rfl, rfl, rfl⟩

theorem EncodedFields.caSetEncsize : EncodedFields.Statement .caSetEncsize :=
  ⟨rfl, rfl, rfl, rfl⟩

theorem EncodedFields.caSetVersion : EncodedFields.Statement .caSetVersion :=
  ⟨rfl, rfl, rfl, rfl⟩

theorem EncodedFields.classify : EncodedFields.Statement .classify :=
  ⟨rfl, rfl, rfl, rfl⟩

theorem EncodedFields.tbcEnc : EncodedFields.Statement .tbcEnc :=
  ⟨rfl, rfl, rfl, rfl⟩

theorem EncodedFields.tbcDec : EncodedFields.Statement .tbcDec :=
  ⟨rfl, rfl, rfl, rfl⟩

theorem EncodedFields.prfStream (k : KeySlot) : EncodedFields.Statement (.prfStream k) := by
  cases k <;> exact ⟨rfl, rfl, rfl, rfl⟩

theorem EncodedFields.ptrDecorate : EncodedFields.Statement .ptrDecorate :=
  ⟨rfl, rfl, rfl, rfl⟩

theorem EncodedFields.ptrEncrypt : EncodedFields.Statement .ptrEncrypt :=
  ⟨rfl, rfl, rfl, rfl⟩

theorem EncodedFields.ptrDecrypt : EncodedFields.Statement .ptrDecrypt :=
  ⟨rfl, rfl, rfl, rfl⟩

theorem EncodedFields.ptrUndecorate : EncodedFields.Statement .ptrUndecorate :=
  ⟨rfl, rfl, rfl, rfl⟩

theorem EncodedFields.ptrEncode : EncodedFields.Statement .ptrEncode :=
  ⟨rfl, rfl, rfl, rfl⟩

theorem EncodedFields.ptrDecode : EncodedFields.Statement .ptrDecode :=
  ⟨rfl, rfl, rfl, rfl⟩

theorem EncodedFields.ptrDecodeIf : EncodedFields.Statement .ptrDecodeIf :=
  ⟨rfl, rfl, rfl, rfl⟩

theorem EncodedFields.dataMask (k : KeySlot) : EncodedFields.Statement (.dataMask k) := by
  cases k <;> exact ⟨rfl, rfl, rfl, rfl⟩

theorem EncodedFields.icvSet : EncodedFields.Statement .icvSet :=
  ⟨rfl, rfl, rfl, rfl⟩

theorem EncodedFields.icvGet : EncodedFields.Statement .icvGet :=
  ⟨rfl, rfl, rfl, rfl⟩

theorem EncodedFields.icvCheckOrSet (kind : AccessKind) : EncodedFields.Statement (.icvCheckOrSet kind) := by
  cases kind <;> exact ⟨rfl, rfl, rfl, rfl⟩

theorem EncodedFields.icvInit : EncodedFields.Statement .icvInit :=
  ⟨rfl, rfl, rfl, rfl⟩

theorem EncodedFields.icvPreinit : EncodedFields.Statement .icvPreinit :=
  ⟨rfl, rfl, rfl, rfl⟩

theorem EncodedFields.icvInvalidate : EncodedFields.Statement .icvInvalidate :=
  ⟨rfl, rfl, rfl, rfl⟩

theorem EncodedFields.icvCorrect : EncodedFields.Statement .icvCorrect :=
  ⟨rfl, rfl, rfl, rfl⟩

theorem EncodedFields.icvAccess (kind : AccessKind) : EncodedFields.Statement (.icvAccess kind) := by
  cases kind <;> exact ⟨rfl, rfl, rfl, rfl⟩

theorem EncodedFields.keySet (k : KeySlot) : EncodedFields.Statement (.keySet k) := by
  cases k <;> exact ⟨rfl, rfl, rfl, rfl⟩

theorem EncodedFields.ctxSave : EncodedFields.Statement .ctxSave :=
  ⟨rfl, rfl, rfl, rfl⟩

theorem EncodedFields.ctxLoad : EncodedFields.Statement .ctxLoad :=
  ⟨rfl, rfl, rfl, rfl⟩

theorem EncodedFields.resume : EncodedFields.Statement .resume :=
  ⟨rfl, rfl, rfl, rfl⟩

end Sys2Proof.Laws
end

