-- ==== Sys2Proof/WellFormed.lean ====
section
/-! DEFINITION. Well-formedness. The types of `Instr` already keep every field in its encoding's range, so every command can be
encoded; what is left to check is the legal key slots of spec/opcode_table.json ("KSEL_legal") and the shape of a host transaction
(20_memory.md R60). -/

namespace Sys2Proof

/-- The key slot of a command is one its opcode-table row calls legal: PRF_STREAM and DATA_MASK take slots 0, 1, 2, KEY_SET takes all
four (30_encoding.md R84, R87). A command that fails this check still has an encoding and is refused with ERR_OPERAND when it runs. -/
def Instr.wellFormed (i : Instr) : Bool :=
  match i with
  | .prfStream k | .dataMask k => k != .addrKey
  | .nop | .caGetPlaintext | .caGetCiphertext | .caGetEncsize | .caGetAdjust | .caGetSprime | .caGetSbit
  | .caGetVersion | .caIsCanonical | .caIsCa | .decodeSize | .caSetPlaintext | .caSetCiphertext | .caSetEncsize
  | .caSetVersion | .classify | .tbcEnc | .tbcDec | .ptrDecorate | .ptrEncrypt | .ptrDecrypt | .ptrUndecorate
  | .ptrEncode | .ptrDecode | .ptrDecodeIf | .icvSet | .icvGet | .icvCheckOrSet _ | .icvInit | .icvPreinit
  | .icvInvalidate | .icvCorrect | .icvAccess _ | .keySet _ | .ctxSave | .ctxLoad | .resume => true

/-- A host transaction is well formed when its offset is a multiple of 8 and below 0x200 (20_memory.md R60); any other is malformed
(R63). The reset input has no offset. -/
def Input.wellFormed (t : Input) : Bool :=
  match t with
  | .hread off => off % 8 == 0 && off < 0x200
  | .hwrite off _ => off % 8 == 0 && off < 0x200
  | .reset => true

end Sys2Proof
end

