-- ==== Sys2Proof/Tests/Slice0.lean ====
section
/-! SUPPORT. Tests. Expected values come from spec/95_test_vectors.md and spec/96_test_vectors_datapath.md (the vector's name stands in
the comment) or by hand from the rule named. The vectors of the ciphers hold under TESTCFG-T and CANDCFG-P (95 section 2, 44 section 5),
which are values of this file only: the machine's configuration stays unknown. After the tests, a witness for every statement of
Certificates/Slice0/Obligations.lean that has hypotheses. -/

namespace Sys2Proof.Tests

set_option Elab.async false

open Sys2Proof.Machine

/-! ### Well-formedness -/

/-- PRF_STREAM takes slots 0, 1, 2 (44 R180). -/
theorem test_prfStream_wellFormed :
    (Instr.prfStream .addrKey).wellFormed = false ∧ (Instr.prfStream .codeKey).wellFormed = true := by decide

/-- DATA_MASK takes slots 0, 1, 2 (46 R212); KEY_SET takes all four (48 R260). -/
theorem test_dataMask_wellFormed :
    (Instr.dataMask .addrKey).wellFormed = false ∧ (Instr.dataMask .sharedKey).wellFormed = true ∧
      (Instr.keySet .addrKey).wellFormed = true := by decide

/-- An offset is a multiple of 8 (20 R60). -/
theorem test_offset_unaligned : (Input.hread 0x014).wellFormed = false ∧ (Input.hwrite 0x014 5).wellFormed = false := by decide

/-- An offset is below 0x200 (20 R60). -/
theorem test_offset_range :
    (Input.hwrite 0x200 0).wellFormed = false ∧ (Input.hread 0x200).wellFormed = false ∧ (Input.hread 0x1F8).wellFormed = true ∧
      Input.reset.wellFormed = true := by decide

/-! ### Decoding -/

/-- The word of every command with every legal and illegal slot and kind, written out from the table of 30 R85. -/
theorem test_decode_words : ∀ p ∈ ([
    (0x00, .nop), (0x10, .caGetPlaintext), (0x11, .caGetCiphertext), (0x12, .caGetEncsize), (0x13, .caGetAdjust),
    (0x14, .caGetSprime), (0x15, .caGetSbit), (0x16, .caGetVersion), (0x17, .caIsCanonical), (0x18, .caIsCa),
    (0x19, .decodeSize), (0x1A, .caSetPlaintext), (0x1B, .caSetCiphertext), (0x1C, .caSetEncsize), (0x1D, .caSetVersion),
    (0x20, .classify), (0x30, .tbcEnc), (0x31, .tbcDec), (0x038, .prfStream .sharedKey), (0x138, .prfStream .privateKey),
    (0x238, .prfStream .codeKey), (0x338, .prfStream .addrKey), (0x40, .ptrDecorate), (0x41, .ptrEncrypt), (0x42, .ptrDecrypt),
    (0x43, .ptrUndecorate), (0x44, .ptrEncode), (0x45, .ptrDecode), (0x46, .ptrDecodeIf), (0x050, .dataMask .sharedKey),
    (0x150, .dataMask .privateKey), (0x250, .dataMask .codeKey), (0x350, .dataMask .addrKey), (0x60, .icvSet), (0x61, .icvGet),
    (0x062, .icvCheckOrSet .read), (0x462, .icvCheckOrSet .write), (0x63, .icvInit), (0x64, .icvPreinit), (0x65, .icvInvalidate),
    (0x66, .icvCorrect), (0x067, .icvAccess .read), (0x467, .icvAccess .write), (0x070, .keySet .sharedKey),
    (0x170, .keySet .privateKey), (0x270, .keySet .codeKey), (0x370, .keySet .addrKey), (0x71, .ctxSave), (0x72, .ctxLoad),
    (0x73, .resume) ] :
    List (Word × Instr)), decode p.1 = .ok p.2 ∧ encode p.2 = p.1 := by decide

/-- V-EN2 to V-EN12, the words the decoder refuses. -/
theorem test_decode_refusals :
    ([0x01, 0xFF, 0x1E, 0x74, 0x801].all fun w => decide (decode w = .error .opcode)) = true ∧
      ([0x800, 0x8000000000000010, 0x100, 0x410, 0x162, 0x438, 0x110].all fun w => decide (decode w = .error .reserved)) = true := by decide

/-- The host's reading of a table row; bits above the row's are zero. -/
theorem test_decodeTableWord :
    decodeTableWord 64 0x467 = some (.icvAccess .write) ∧ decodeTableWord 64 0x801 = none ∧ decodeTableWord 8 0x10 = some .caGetPlaintext := by
  decide

/-! ### The test configurations -/

/-- Rotation is linear over XOR. -/
theorem rotateRight_xor {w : Nat} (x y : BitVec w) (r : Nat) : (x ^^^ y).rotateRight r = x.rotateRight r ^^^ y.rotateRight r := by
  apply BitVec.eq_of_getLsbD_eq
  intro i hi
  simp only [BitVec.getLsbD_rotateRight, BitVec.getLsbD_xor]
  cases decide (i < w - r % w) <;> simp [hi]

/-- SBOX_INV of TESTCFG-T, from the printed table (95 section 2). -/
def sboxInvTable : List (BitVec 6) :=
  [0x05, 0x38, 0x17, 0x32, 0x19, 0x1C, 0x0B, 0x36, 0x2D, 0x00, 0x3F, 0x3A, 0x01, 0x24, 0x33, 0x3E] ++
  [0x15, 0x08, 0x27, 0x02, 0x29, 0x2C, 0x1B, 0x06, 0x3D, 0x10, 0x0F, 0x0A, 0x11, 0x34, 0x03, 0x0E] ++
  [0x25, 0x18, 0x37, 0x12, 0x39, 0x3C, 0x2B, 0x16, 0x0D, 0x20, 0x1F, 0x1A, 0x21, 0x04, 0x13, 0x1E] ++
  [0x35, 0x28, 0x07, 0x22, 0x09, 0x0C, 0x3B, 0x26, 0x1D, 0x30, 0x2F, 0x2A, 0x31, 0x14, 0x23, 0x2E]

/-- The permutation tables of TESTCFG-T are affine maps. -/
def affine (n : Nat) [NeZero n] (a b : Nat) : Fin n → Fin n := fun i => Fin.ofNat n (a * i.val + b)

/-- TESTCFG-T (95 section 2). -/
def testTbc : TbcParams where
  sbox x := 2 * x * x + x + 9
  sboxInv y := sboxInvTable.getD y.toNat 0
  sboxInv_sbox := by decide +kernel
  sbox_sboxInv := by decide +kernel
  p1 := ⟨affine 24 5 0, affine 24 5 0, by decide, by decide⟩
  p2 := ⟨affine 24 7 1, affine 24 7 17, by decide, by decide⟩
  p3 := ⟨affine 24 11 5, affine 24 11 17, by decide, by decide⟩
  ptG := ⟨affine 53 3 1, affine 53 18 35, by decide, by decide⟩
  ptGp := ⟨affine 53 5 2, affine 53 32 42, by decide, by decide⟩
  mixG x := x ^^^ x.rotateRight 1 ^^^ x.rotateRight 8
  mixG_xor a b := by simp only [rotateRight_xor]; ac_rfl
  mixGp x := x ^^^ x.rotateRight 4 ^^^ x.rotateRight 13
  mixGp_xor a b := by simp only [rotateRight_xor]; ac_rfl
  stageRounds i := if i.val % 2 = 0 then 2 else 1
  stageRounds_ok := by decide

/-- CANDCFG-P (44 section 5). -/
def testPrf : PrfParams where
  iv := 0x80400C0600000000
  rc r := BitVec.ofNat 64 (0xF0 - 15 * r.val)
  premix := [(0, 4), (4, 3), (2, 1)]
  premix_ne := by decide
  postmix := [(1, 0), (0, 4), (3, 2)]
  postmix_ne := by decide
  rot i := #v[(9, 19), (22, 39), (5, 1), (7, 10), (34, 7)].get i
  rot_c2 := by decide
  pad := 0x8000000000000000
  pad_one_byte := ⟨7, 0x80, by decide, by decide⟩
  dsep := 1
  dsep_one_bit := ⟨0, by decide⟩

/-- The test configuration with a MIN_ALLOC_OFFSET, a special size, and a bound on the blocks (of four entries each). -/
def testCfg (mao : Fin 32) (special : Option (BitVec 6) := none) (blocks : Option Nat := none) : Config where
  tbc := testTbc
  prf := testPrf
  mao := mao.val
  mao_le := by omega
  specialSize := special
  icvBlockBits := 2
  icvBlockBits_le := by decide
  icvMaxBlocks := blocks
  nCtx := 2
  nCtx_pos := by decide

/-- KA, KS0 and KS1 (96, "Keys used"). -/
def keyA : AddrKey := .ofFn fun i => BitVec.ofNat 8 i.val
def keyS0 : DataKey := .ofFn fun i => BitVec.ofNat 8 i.val
def keyS1 : DataKey := .ofFn fun i => BitVec.ofNat 8 (16 + i.val)

/-! ### Small states -/

/-- Reset with operands. -/
def operands (a0 : Word) (a1 a2 : Word := 0) : State := { State.reset with a0 := a0, a1 := a1, a2 := a2 }

/-- Reset with operands and K_ADDR = KA. -/
def keyed (a0 : Word) (a1 : Word := 0) : State := { operands a0 a1 with kAddr := keyA, validAddr := true, ks := keySched keyA }

/-- Reset with operands, an ICV map and ICV_CTRL. -/
def mapped (m : IcvMap) (ctrl a0 : Word) (a1 a2 : Word := 0) : State := { operands a0 a1 a2 with icv := m, icvCtrl := ctrl }

/-- R0, R1 and STATUS. -/
def results (s : State) : Word × Word × Nat := (s.r0, s.r1, s.status.toNat)

/-- R0, R1 and STATUS of an answer that is a next state. -/
def outcome (a : Answer) : Option (Word × Word × Nat) :=
  match a with
  | .next t => some (results t)
  | .fault _ => none
  | .refused _ => none

/-- Whether an answer is a next state with a property. -/
def leaves (a : Answer) (p : State → Bool) : Bool :=
  match a with
  | .next t => p t
  | .fault _ => false
  | .refused _ => false

/-! ### NOP and the BitFieldCodec -/

/-- V-EN1: NOP completes and clears both results. -/
theorem test_nop : outcome (exec .nop { State.reset with r0 := 0x1111, r1 := 0x2222 }) = some (0, 0, 0) := by decide +kernel

/-- V-EN17: while halted even NOP is refused. -/
theorem test_nop_halted : outcome (exec .nop { State.reset with r0 := 0x1111, halted := true }) = some (0x1111, 0, 5) := by decide +kernel

/-- V-BF1, V-BF10. -/
theorem test_caGetPlaintext : 
    outcome (exec .caGetPlaintext (operands 0x2A5DC0DE12345678)) = some (0x12345678, 0, 0) ∧
      outcome (exec .caGetPlaintext (operands 0xFFFF800000001000)) = some (0x00001000, 0, 0) := by decide +kernel

/-- V-BF1, V-BF10. -/
theorem test_caGetCiphertext : 
    outcome (exec .caGetCiphertext (operands 0x2A5DC0DE12345678)) = some (0x5DC0DE, 0, 0) ∧
      outcome (exec .caGetCiphertext (operands 0xFFFF800000001000)) = some (0xFF8000, 0, 0) := by decide +kernel

/-- V-BF1, V-BF10. -/
theorem test_caGetEncsize : 
    outcome (exec .caGetEncsize (operands 0x2A5DC0DE12345678)) = some (42, 0, 0) ∧
      outcome (exec .caGetEncsize (operands 0xFFFF800000001000)) = some (63, 0, 0) := by decide +kernel

/-- V-BF1, V-BF10. -/
theorem test_caGetSprime : 
    outcome (exec .caGetSprime (operands 0x2A5DC0DE12345678)) = some (1, 0, 0) ∧
      outcome (exec .caGetSprime (operands 0xFFFF800000001000)) = some (0, 0, 0) := by decide +kernel

/-- V-BF1, V-BF10. -/
theorem test_caGetSbit : 
    outcome (exec .caGetSbit (operands 0x2A5DC0DE12345678)) = some (0, 0, 0) ∧
      outcome (exec .caGetSbit (operands 0xFFFF800000001000)) = some (1, 0, 0) := by decide +kernel

/-- V-BF1, V-BF10. -/
theorem test_caGetVersion : 
    outcome (exec .caGetVersion (operands 0x2A5DC0DE12345678)) = some (0x0BB, 0, 0) ∧
      outcome (exec .caGetVersion (operands 0xFFFF800000001000)) = some (0x1FF, 0, 0) := by decide +kernel

/-- V-BF1, V-BF10. -/
theorem test_caIsCanonical : 
    outcome (exec .caIsCanonical (operands 0x2A5DC0DE12345678)) = some (0, 0, 0) ∧
      outcome (exec .caIsCanonical (operands 0xFFFF800000001000)) = some (1, 0, 0) := by decide +kernel

/-- V-BF1, V-BF10. -/
theorem test_caIsCa : 
    outcome (exec .caIsCa (operands 0x2A5DC0DE12345678)) = some (1, 0, 0) ∧
      outcome (exec .caIsCa (operands 0xFFFF800000001000)) = some (0, 0, 0) := by decide +kernel

/-- V-BF8: bit 47 is not looked at. -/
theorem test_caIsCanonical_bit47 : outcome (exec .caIsCanonical (operands 0x0000800000000000)) = some (1, 0, 0) := by decide +kernel

/-- 41 R116: 1 when enc_size is SPECIAL_SIZE_ENCODING. -/
theorem test_caGetAdjust : 
    results (caGetAdjustUnder (testCfg 3 (some 42)) (operands 0x2A5DC0DE12345678)) = (1, 0, 0) ∧
      results (caGetAdjustUnder (testCfg 3) (operands 0x2A5DC0DE12345678)) = (0, 0, 0) := by decide +kernel

/-- V-BF20, V-BF23, V-BF24 and V-BF27 with MAO = 0, 3, 31. -/
theorem test_decodeSize : 
    results (decodeSizeUnder (testCfg 0) (operands 0)) = (0, 0, 0) ∧ results (decodeSizeUnder (testCfg 3) (operands 0x46)) = (0x100, 0, 0) ∧
      results (decodeSizeUnder (testCfg 31) (operands 33)) = (0x8000000000000000, 0, 0) ∧
      results (decodeSizeUnder (testCfg 3) (operands 62)) = (0, 0, 0) := by decide +kernel

/-- V-BF40, V-BF41. -/
theorem test_caSetPlaintext : 
    outcome (exec .caSetPlaintext (operands 0x2A5DC0DE12345678 0xFFFFFFFF)) = some (0x2A5DC0DEFFFFFFFF, 0, 0) ∧
      outcome (exec .caSetPlaintext (operands 0x2A5DC0DE12345678 0x0000ABCD00000000)) = some (0x2A5DC0DE00000000, 0, 0) := by decide +kernel

/-- V-BF42, V-BF43. -/
theorem test_caSetCiphertext : 
    outcome (exec .caSetCiphertext (operands 0x2A5DC0DE12345678 0xABCDEF)) = some (0x2AABCDEF12345678, 0, 0) ∧
      outcome (exec .caSetCiphertext (operands 0 0xFFFFFFFFFF)) = some (0x00FFFFFF00000000, 0, 0) := by decide +kernel

/-- V-BF44, V-BF45. -/
theorem test_caSetEncsize : 
    outcome (exec .caSetEncsize (operands 0x2A5DC0DE12345678 6)) = some (0x065DC0DE12345678, 0, 0) ∧
      outcome (exec .caSetEncsize (operands 0xFFFFFFFFFFFFFFFF 0x40)) = some (0xC0FFFFFFFFFFFFFF, 0, 0) := by decide +kernel

/-- V-BF47, V-BF49. -/
theorem test_caSetVersion : 
    outcome (exec .caSetVersion (operands 0x2A5DC0DE12345678 0x1FF)) = some (0x2AFFC0DE12345678, 0, 0) ∧
      outcome (exec .caSetVersion (operands 0xFFFFFFFFFFFFFFFF 0x200)) = some (0xFF007FFFFFFFFFFF, 0, 0) := by decide +kernel

/-! ### The SlotSizer -/

/-- V-SS1, V-SS6, V-SS8, V-SS12. -/
theorem test_classify : 
    results (classifyUnder (testCfg 0) (operands 0x1000 0x18)) = (6, 0x20, 0) ∧
      results (classifyUnder (testCfg 0) (operands 0x1FF8 0x10)) = (0xF, 0x4000, 0) ∧
      results (classifyUnder (testCfg 0) (operands 0 0x100000000)) = (0x21, 0x100000000, 0) ∧
      results (classifyUnder (testCfg 0) (operands 0xFFFFFFFFFFFFFFFF 1)) = (1, 1, 0) := by decide +kernel

/-- V-SS10, V-SS13 (not boxable), V-SS19, V-SS23, and the adjust bit 15 of 42 R134. -/
theorem test_classify_mao : 
    results (classifyUnder (testCfg 0) (operands 0xFFFFFFFF 2)) = (0, 0, 0x100) ∧
      results (classifyUnder (testCfg 0) (operands 0xFFFFFFFFFFFFFFFF 2)) = (0, 0, 0x100) ∧
      results (classifyUnder (testCfg 3) (operands 0x1004 8)) = (2, 0x10, 0) ∧
      results (classifyUnder (testCfg 31 (some 2)) (operands 0x40000000 0x80000000)) = (0x8002, 0x100000000, 0) := by decide +kernel

/-! ### The TweakCipher -/

/-- V-TC1. -/
theorem test_keySched : 
    keySched keyA =
      ⟨0xDAFA70, #v[0x1A7050DAFA7050, 0x0286D7D38286D7, 0x16BE9C1436BE9C, 0x14E0A1B5F4E0A1, 0x050DAFA7050DAF, 0x0D7D38286D7D38]⟩ := by decide +kernel

/-- V-TC8, V-TC13, V-TC18, V-TC19, V-TC20. -/
theorem test_tweak_layers : 
    pt53 (usedTweak 0xFFFFFFFFFFFFFFFF) = 0x1FFFFFFFFFF ∧ chi53 0x00000C00002001 = 0x08000D00002801 ∧
      gRound testTbc 0x00000C00002001 = 0x02000C38200C10 ∧ gpRound testTbc 0x00000C00002001 = 0x02245460222010 ∧
      even24 0x1E463242C5942C = 0xA48B62 ∧ odd24 0x1E463242C5942C = 0x151886 := by decide +kernel

/-- The tweak schedule printed in 96 section 3. -/
theorem test_twkSched : 
    twkSched testTbc (keySched keyA).trk 0x0600001000 =
      #v[0xA48B62, 0x151886, 0xE02851, 0x9B413C, 0x47BDAB, 0x16031B, 0xED0BF3, 0x24117C, 0xBDA596, 0xDD3092, 0xC27BAD, 0x2C29B3] := by decide +kernel

/-- V-TC23, V-TC26, V-TC28, V-TC31. -/
theorem test_data_path_layers : 
    nibbles testTbc.sbox 0x123456 = 0xB7E727 ∧ permBits testTbc.p1.fwd 0x123456 = 0x123474 ∧
      permBits testTbc.p2.fwd 0x123456 = 0x21B8A1 ∧ permBits testTbc.p3.fwd 0x123456 = 0x21B8B0 ∧
      lml 0x123456 = 0xD3D860 ∧ lmlInv 0x123456 = 0x3D860D := by decide +kernel

/-- V-TC40, V-TC45. -/
theorem test_tbcEnc : 
    results (tbcEncUnder (testCfg 0) (keyed 0x123456 0x0600001000)) = (0x80ECCC, 0, 0) ∧
      results (tbcEncUnder (testCfg 0) (keyed 0xFFFFFF 0xFFFFFFFFFFFFFFFF)) = (0xD2EB27, 0, 0) := by decide +kernel

/-- V-TC41, V-TC44. -/
theorem test_tbcDec : 
    results (tbcDecUnder (testCfg 0) (keyed 0x80ECCC 0x0600001000)) = (0x123456, 0, 0) ∧
      results (tbcDecUnder (testCfg 0) (keyed 0 0)) = (0x77B38D, 0, 0) := by decide +kernel

/-! ### The StreamPRF and the DataCipher -/

/-- P12 of the all-zero state (96 section 4). -/
theorem test_p12 : 
    p12 testPrf #v[0, 0, 0, 0, 0] =
      #v[0x78EA7AE5CFEBB108, 0x9B9BFB8513B560F7, 0x6937F83E03D11A50, 0x3FE53F36F2C1178C, 0x045D648E4DEF12C9] := by decide +kernel

/-- V-PR3, V-PR12. -/
theorem test_prfStream : 
    results (prfStreamUnder (testCfg 0) .sharedKey { operands 0x1000 with kShared := keyS0, validShared := true }) =
        (0x716854B583390B24, 0, 0) ∧
      results (prfStreamUnder (testCfg 0) .privateKey { operands 0xFFFFFFFFFFFFFFFF with kPrivate := keyS1, validPrivate := true }) =
        (0x06E65B2AA2529310, 0, 0) := by decide +kernel

/-- V-PR13, V-PR14. -/
theorem test_prfStream_refused : outcome (exec (.prfStream .codeKey) State.reset) = some (0, 0, 4) ∧
      outcome (exec (.prfStream .addrKey) State.reset) = some (0, 0, 3) := by decide +kernel

/-- V-DC2. -/
theorem test_dataMask : 
    let s := memWrite { operands 0x1005 7 with kShared := keyS0, validShared := true } 0 [0x43, 0x33, 0x20, 0x64, 0x61, 0x74, 0x61, 0x99]
    let t := dataMaskUnder (testCfg 0) .sharedKey s
    results t = (7, 0, 0) ∧ memRead t 0 8 = [0x17, 0x5B, 0x51, 0x89, 0x86, 0x61, 0x4C, 0x99] := by decide +kernel

/-- V-DC6. -/
theorem test_dataMask_wraps : 
    memRead (dataMaskUnder (testCfg 0) .sharedKey { operands 0xFFFFFFFFFFFFFFFC 8 with kShared := keyS0, validShared := true }) 0 9 =
      [0x30, 0x88, 0x12, 0xAB, 0x54, 0xC1, 0x61, 0x3A, 0] := by decide +kernel

/-! ### The PointerCodec -/

/-- V-PF1 to V-PF8. -/
theorem test_fixedMask32 : 
    [0, 1, 6, 13, 32, 33, 34, 63].map (fixedMask32 0) = [0, 0xFFFFFFFF, 0xFFFFFFE0, 0xFFFFF000, 0x80000000, 0, 0, 0] := by decide +kernel

/-- V-PF17, V-PF21. -/
theorem test_ptrDecorate : 
    outcome (exec .ptrDecorate (operands 0x1000 0x7FC6)) = some (0x06FF800000001000, 0, 0) ∧
      outcome (exec .ptrDecorate (operands 0xC000000000001000 0x0006)) = some (0xC600000000001000, 0, 0) := by decide +kernel

/-- V-PC11, V-PC14. -/
theorem test_ptrEncrypt : 
    results (ptrEncryptUnder (testCfg 0) (keyed 0x0600000000001000 6)) = (0x06391F0C00001000, 0, 0) ∧
      results (ptrEncryptUnder (testCfg 0) (keyed 0x0600000000001000 7)) = (0x06751ECD00001000, 0, 0) := by decide +kernel

/-- V-PC12, V-PC15. -/
theorem test_ptrDecrypt : 
    results (ptrDecryptUnder (testCfg 0) (keyed 0x06391F0C00001000)) = (0x0600000000001000, 0, 0) ∧
      results (ptrDecryptUnder (testCfg 0) (keyed 0x06751ECD00001000)) = (0x06CFC08400001000, 0, 0) := by decide +kernel

/-- V-PF23, V-PF24. -/
theorem test_ptrUndecorate : 
    outcome (exec .ptrUndecorate (operands 0x0600400000001000)) = some (0xFFFFC00000001000, 0, 0) ∧
      outcome (exec .ptrUndecorate (operands 0x0FAAFFFFF0001230)) = some (0xFFFFFFFFF0001230, 0, 0) := by decide +kernel

/-- V-PC2, V-PC21. -/
theorem test_ptrEncode : 
    results (ptrEncodeUnder (testCfg 0) (keyed 0x1000 0x0046)) = (0x06427F2B00001000, 0, 0) ∧
      results (ptrEncodeUnder (testCfg 0) (keyed 0xFFFFFFFFF0001230 0x000A)) = (0xCAB12F63F0001230, 0, 0) := by decide +kernel

/-- V-PC8, V-PC16. -/
theorem test_ptrDecode : 
    results (ptrDecodeUnder (testCfg 0) (keyed 0x06391F0C0000101F)) = (0x101F, 0, 0) ∧
      results (ptrDecodeUnder (testCfg 0) (keyed 0x2A5DC0DE12345678)) = (0xFFFFD58112345678, 0, 0) := by decide +kernel

/-- V-PC17, V-PC18. -/
theorem test_ptrDecodeIf : 
    results (ptrDecodeIfUnder (testCfg 0) (keyed 0x06391F0C00001000)) = (0x1000, 1, 0) ∧
      results (ptrDecodeIfUnder (testCfg 0) (keyed 0x00007FFFDEADBEE8)) = (0x00007FFFDEADBEE8, 0, 0) := by decide +kernel

/-- V-EN24, V-EN25. -/
theorem test_ptrDecodeIf_noKey : 
    outcome (exec .ptrDecodeIf (operands 0x1000)) = some (0x1000, 0, 0) ∧ outcome (exec .ptrDecodeIf (operands 0x06391F0C00001000)) = some (0, 0, 4) := by decide +kernel

/-! ### The IntegrityMap -/

/-- V-IM1, V-IM23 (index bits 63:61 are ignored, storing 0 deletes). -/
theorem test_icvSet : 
    (icvSetUnder (testCfg 0) (mapped [] 0 5 0xAABB000000000028)).icv = [(5, 0xAABB000000000028)] ∧
      (icvSetUnder (testCfg 0) (mapped [(8, 4), (9, 1)] 0 0xE000000000000009 0)).icv = [(8, 4)] := by decide +kernel

/-- 47 R223: with one block of four entries, index 4 does not fit beside index 0, index 3 does. -/
theorem test_icvSet_full : 
    results (icvSetUnder (testCfg 0 none (some 1)) (mapped [(0, 7)] 0 4 7)) = (0, 0, 6) ∧
      (icvSetUnder (testCfg 0 none (some 1)) (mapped [(0, 7)] 0 4 7)).icv = [(0, 7)] ∧
      (icvSetUnder (testCfg 0 none (some 1)) (mapped [(0, 7)] 0 3 7)).icv = [(0, 7), (3, 7)] := by decide +kernel

/-- V-IM5, V-IM28's absent granule. -/
theorem test_icvGet : 
    outcome (exec .icvGet (mapped [(5, 0xAABB000000000028)] 0 5)) = some (0xAABB000000000028, 0, 0) ∧
      outcome (exec .icvGet (mapped [(5, 0xAABB000000000028)] 0 0x200)) = some (0, 0, 0) := by decide +kernel

/-- V-IM4, V-IM16. -/
theorem test_icvCheckOrSet_read : 
    let s := icvCheckOrSetUnder (testCfg 0) .read (mapped [(5, 0xAABB000000000028)] 0x15 0x28 0x2A5DC0DE1234502C)
    let t := icvCheckOrSetUnder (testCfg 0) .read (mapped [(9, 0xFFFFFFFFFFFFFFFF)] 0x15 0x48 0xAABB000000000048)
    results s = (1, 0xAABB000000000028, 0x200) ∧ s.events = 1 ∧ s.icv = [(5, 0xAABB000000000028)] ∧
      results t = (3, 0xFFFFFFFFFFFFFFFF, 0x600) ∧ t.events = 3 := by decide +kernel

/-- V-IM12, V-IM17. -/
theorem test_icvCheckOrSet_write : 
    let s := icvCheckOrSetUnder (testCfg 0) .write (mapped [(8, 0xAABB000000000046)] 0x15 0x40 0xAABB000000000040)
    let t := icvCheckOrSetUnder (testCfg 0) .write (mapped [(9, 0xFFFFFFFFFFFFFFFF)] 0x15 0x48 0xAABB000000000048)
    results s = (0, 0xAABB000000000046, 0) ∧ s.icv = [(8, 0xAABB000000000044)] ∧
      results t = (1, 0xFFFFFFFFFFFFFFFF, 0x200) ∧ t.icv = [(9, 0xAABB00000000004D)] := by decide +kernel

/-- V-IM14, and a plain address (fingerprint 0) deletes (47 R224, R234). -/
theorem test_icvInit : 
    (icvInitUnder (testCfg 0) (mapped [] 0 0x48 0xAABB000000000048)).icv = [(9, 0xAABB000000000048)] ∧
      (icvInitUnder (testCfg 0) (mapped [(9, 3)] 0 0x48 0x48)).icv = [] := by decide +kernel

/-- V-IM10. -/
theorem test_icvPreinit : 
    (icvPreinitUnder (testCfg 0) (mapped [] 0 0x40 0xAABB000000000040)).icv = [(8, 0xAABB000000000046)] := by decide +kernel

/-- V-IM15. -/
theorem test_icvInvalidate : 
    (icvInvalidateUnder (testCfg 0) (mapped [(9, 1)] 0 0x4F 0)).icv = [(9, 0xFFFFFFFFFFFFFFFF)] := by decide +kernel

/-- V-IM26, V-IM30. -/
theorem test_icvCorrect : 
    outcome (exec .icvCorrect (mapped [(5, 0x2A5DC0DE12345028)] 0x17 0xAABB00000000002B 0x28)) =
        some (0x2A5DC0DE1234502B, 0x2A5DC0DE12345028, 0x1200) ∧
      outcome (exec .icvCorrect (mapped [(5, 0x2A5DC0DE12345028)] 0x15 0xAABB00000000002B 0x28)) =
        some (0xAABB00000000002B, 0x2A5DC0DE12345028, 0x200) := by decide +kernel

/-- V-IM43. -/
theorem test_icvAccess : 
    let m : IcvMap := [(0x200, 0x06391F0C00001000), (0x201, 0x06391F0C00001008), (0x202, 0x06391F0C00001010), (0x203, 0x06391F0C00001018)]
    let s := icvAccessUnder (testCfg 0) .read (mapped m 0x15 0x1018 0x06391F0C00001018 16)
    results s = (2, 0, 0xA00) ∧ s.events = 5 ∧ s.icv = m := by decide +kernel

/-- V-EX6: the mismatch of a granule is reported before its uninitialized read. -/
theorem test_icvAccess_order : 
    let m : IcvMap := [(0x200, 0x06391F0C00001000), (0x201, 0xFFFFFFFFFFFFFFFF), (0x202, 0x06391F0C00001010), (0x203, 0x06391F0C00001018)]
    let s := icvAccessUnder (testCfg 0) .read (mapped m 0x29 0x1000 0x06391F0C00001000 32)
    results s = (2, 2, 0xE00) ∧ s.events = 0x0F ∧ (s.faultCause, s.faultGaddr, s.faultPtr) = (1, 0x1008, 0x06391F0C00001008) ∧
      s.halted = false := by decide +kernel

/-! ### Keys, context, violations, host -/

/-- 48 R260, R261: slot 3 takes 32 bytes, re-derives KS and invalidates the tweak cache. -/
theorem test_keySet : 
    leaves (exec (.keySet .addrKey) { memWrite State.reset 0 keyA.toList with tcValid := true }) fun t =>
      t.kAddr == keyA && t.validAddr && decide (t.ks.drk = 0xDAFA70) && !t.tcValid && !t.validShared := by decide +kernel

/-- V-CK1, the first bytes of each part and the first byte after the record. -/
theorem test_ctxSave : 
    leaves (exec .ctxSave (memWrite { keyed 0 with kShared := keyS0, ctxFlags := 1, ctxShadow := 0x1122334455667788 } 104 [0xEE])) fun t =>
      decide (memRead t 0 10 = [1, 0, 0, 0, 0, 0, 0, 0, 0x88, 0x77]) && decide (memRead t 25 2 = [1, 2]) &&
        decide (memRead t 73 2 = [1, 2]) && decide (memRead t 102 3 = [0x1E, 0x1F, 0xEE]) := by decide +kernel

/-- V-CK2: the words are little-endian and all four keys become valid. -/
theorem test_ctxLoad : 
    leaves (exec .ctxLoad (memWrite State.reset 8 [0x88, 0x77, 0x66, 0x55, 0x44, 0x33, 0x22, 0x11])) fun t =>
      decide (t.ctxShadow = 0x1122334455667788) && t.validShared && t.validPrivate && t.validCode && t.validAddr && decide (t.ctxFlags = 0) := by decide +kernel

/-- V-EN18. -/
theorem test_resume : 
    leaves (exec .resume { State.reset with halted := true, events := 0x19 }) fun t =>
      decide (results t = (0, 0, 0)) && !t.halted && decide (t.events = 0x19) := by decide +kernel

/-- V-EX1 to V-EX4: Ignore, Warn, Fault, Break. -/
theorem test_policies : 
    ([0x01, 0x05, 0x09, 0x0D].map fun ctrl =>
      let t := icvCheckOrSetUnder (testCfg 0) .read (mapped [(5, 0x2A5DC0DE12345028)] ctrl 0x28 0xAABB000000000028)
      (t.events, t.faultCause, t.faultGaddr, t.faultPtr, haltedOut t)) =
      [(0, 0, 0, 0, false), (1, 0, 0, 0, false), (9, 1, 0x28, 0xAABB000000000028, false), (0x19, 1, 0x28, 0xAABB000000000028, true)] := by decide +kernel

/-- V-EX5 (e): acknowledging EV_FAULT clears the FAULT registers. -/
theorem test_acknowledge : 
    let t := windowWrite { State.reset with events := 0x1B, faultCause := 1, faultGaddr := 0x28, faultPtr := 5 } 0x060 0x08
    t.events = 0x13 ∧ (t.faultCause, t.faultGaddr, t.faultPtr) = (0, 0, 0) := by decide +kernel

/-- 95 section 5: HWrite(0x014, 5) and HRead(0x204). -/
theorem test_host_malformed : 
    leaves (step { State.reset with port := [.hwrite 0x014 5] }) (fun t => decide (t.events = 0x20) && decide (t.a0 = 0)) ∧
      leaves (step { State.reset with port := [.hread 0x204], hostData := 7 }) (fun t => decide (t.hostData = 0) && decide (t.events = 0x20)) := by decide +kernel

/-- 95 section 5: ICV_CTRL keeps six bits, STATUS and R0 are read-only, 0x088 is reserved. -/
theorem test_host_window : 
    (windowWrite State.reset 0x058 0xFFFFFFFFFFFFFFFF).icvCtrl = 0x3F ∧ windowWrite State.reset 0x030 7 = State.reset ∧
      windowWrite State.reset 0x008 0xFF = State.reset ∧ windowRead (windowWrite State.reset 0x088 1) 0x088 = 0 := by decide +kernel

/-- V-EN14: bit 63 of STATUS is the live HALTED. -/
theorem test_halted_status : 
    leaves (step { State.reset with halted := true, port := [.hwrite 0 0x10] }) (fun t => decide (statusReg t = 0x8000000000000005)) := by decide +kernel

/-- 30 R95, R96. -/
theorem test_text : 
    commandText { command := .icvAccess .write, a0 := some 0x1000, a2 := some 32 } = "ICV_ACCESS.w a0=0x1000, a2=0x20" ∧
      transactionText (.hwrite 0x108 5) = some "WR DBUF[1], 0x5" := by decide +kernel

/-- The example of 30_encoding.md R95, and the other written forms of R95 to R97. -/
theorem test_text_reads :
    readCommandLine "ICV_ACCESS.w a0=0x1005, a1=0x06391F0C00001005, a2=7".toList =
      some { command := .icvAccess .write, a0 := some 0x1005, a1 := some 0x06391F0C00001005, a2 := some 7 } ∧
      readCommandLine "KEY_SET".toList = some { command := .keySet .sharedKey } ∧ readCommandLine "NOP.w".toList = none ∧
      readCommandLine "PTR_ENCODE , a1=5".toList = some { command := .ptrEncode, a1 := some 5 } ∧
      readCommandLine "PTR_ENCODE a1=5".toList = some { command := .ptrEncode, a1 := some 5 } ∧
      readCommandLine "PTR_ENCODE , a0=5".toList = none ∧
      readTransaction "WR DBUF[1], 0b1_01".toList = some (.hwrite 0x108 5) ∧ readTransaction "RD R0".toList = some (.hread 0x030) ∧
      readPseudo "CMD KEY_SET.addr".toList = some (.cmd (.keySet .addrKey)) ∧
      readPseudo "LOADKEY.code 0a FF".toList = some (.loadkey .codeKey [0x0A, 0xFF]) := by decide +kernel

/-! ### Witnesses: the hypotheses of each statement can be met -/

/-- Reset with all four keys marked valid. -/
def ready : State := { State.reset with validShared := true, validPrivate := true, validCode := true, validAddr := true }

theorem ready_cacheCoherent : CacheCoherent ready := fun h => nomatch h

theorem ready_scheduleCoherent : ScheduleCoherent ready := by unfold ScheduleCoherent; decide +kernel

/-- An empty map fits under every bound. -/
theorem empty_fits (c : Config) : icvOverfull c [] = false := by
  unfold icvOverfull
  cases c.icvMaxBlocks
  · rfl
  · rename_i limit
    exact decide_eq_false (Nat.not_lt_zero limit)

/-- A command that leaves an empty map is not refused for want of room. -/
theorem fits_of_empty (c : Config) (s : State) {t : State} (h : t.icv = []) : ifIcvFits c s t = t := by
  rw [ifIcvFits, h, empty_fits]; rfl

theorem witness_DecodeEncodeAgree : decode 0x467 = .ok (.icvAccess .write) := by decide

theorem witness_StepRunsDecodedCommand : decode 0x370 = .ok (.keySet .addrKey) := by decide

theorem witness_RefusalsInDecodeOrder :
    decode 0xFF = .error .opcode ∧ decode 0x8000000000000010 = .error .reserved ∧ decode 0x10 = .ok .caGetPlaintext ∧
      Instr.caGetPlaintext ≠ .resume ∧ ({ State.reset with halted := true } : State).halted = true := by decide

theorem witness_HaltedEngineRefuses : Instr.nop ≠ .resume ∧ ({ State.reset with halted := true } : State).halted = true := by decide

/-- One state for each clause: a DATA_MASK length of 129, an ICV_ACCESS length of 129, and a range that ends one byte too far. -/
theorem witness_OperandRefusals :
    (operands 0 129).halted = false ∧ 128 < (operands 0 129).a1.toNat ∧ 128 < (operands 0 0 129).a2.toNat ∧
      0 < (operands 0xFFFFFFFFFFFFFFF8 0 9).a2.toNat ∧
      2 ^ 64 ≤ (operands 0xFFFFFFFFFFFFFFF8 0 9).a0.toNat + ((operands 0xFFFFFFFFFFFFFFF8 0 9).a2.toNat - 1) := by decide

/-- enc_size 1 and 62, the smallest and the largest CA, and a DATA_MASK length of 128. -/
theorem witness_NoKeyRefusals :
    (operands 0 128).halted = false ∧ (operands 0 128).validAddr = false ∧ Instr.tbcEnc ∈ [Instr.tbcEnc, .tbcDec] ∧
      (operands 0x0100000000000000).a0.toNat / 2 ^ 56 % 64 = 1 ∧ (operands 0x3E00000000000000).a0.toNat / 2 ^ 56 % 64 = 62 ∧
      KeySlot.codeKey ≠ .addrKey ∧ keyValid (operands 0 128) .codeKey = false ∧ (operands 0 128).a1.toNat ≤ 128 := by decide

theorem witness_RefusedCommandChangesOnlyStatus :
    ∃ t, hostWrite State.reset 0x000 0x01 = .next t ∧ t.status.toNat % 256 ≠ 0 :=
  ⟨refuse State.reset .errOpcode, rfl, by decide⟩

theorem witness_InputsAreSteps :
    State.reset.port = [] ∧ 0x1F8 % 8 = 0 ∧ 0x1F8 < 0x200 ∧ 0x008 % 8 = 0 ∧ 0x008 ≠ 0 := by decide

theorem witness_MalformedTransactions : 0x007 % 8 ≠ 0 ∧ 0x200 ≤ 0x200 := by decide

theorem witness_WindowReads :
    (0x0F8 % 8 = 0 ∧ 0x088 ≤ 0x0F8) ∧ (0x180 % 8 = 0 ∧ 0x180 ≤ 0x1F8) ∧ 0x1F8 % 8 = 0 ∧ 15 < 16 ∧ 7 < 8 := by decide

theorem witness_WindowWrites :
    decode 0x73 = .ok .resume ∧ 0x030 % 8 = 0 ∧ 0x0F8 % 8 = 0 ∧ 0x1F8 % 8 = 0 ∧ 15 < 16 ∧ Memory.wf State.reset.dbuf = true := by
  decide

/-- A sound state that is not the reset state, with a command waiting. -/
theorem witness_SoundPreservedByStep :
    ∃ s t, Sound s ∧ s.events = 1 ∧ step s = .next t :=
  ⟨{ State.reset with a0 := 5, events := 1, port := [.hwrite 0 0x10] }, _,
    { stores := ⟨rfl, rfl, empty_fits _⟩
      schedule := ready_scheduleCoherent
      cache := fun h => nomatch h
      status := by unfold StatusSound; decide
      reserved := by unfold ReservedBitsZero; decide
      faultRegs := by unfold FaultRegistersSound; decide }, rfl, rfl⟩

theorem witness_CommandFrames :
    (∃ t, exec .nop ready = .next t) ∧ Instr.nop ≠ .ctxLoad ∧ Instr.nop ≠ .keySet .addrKey ∧ Instr.nop ≠ .resume := by
  exact ⟨⟨_, rfl⟩, by decide, by decide, by decide⟩

/-- A NOP with an event, a key and a fault recorded; a check under Break that halts; RESUME that leaves the halt. -/
theorem witness_CommandsOnlyAccumulate :
    (∃ t, exec .nop { ready with events := 9, faultCause := 1 } = .next t) ∧ keyValid ready .addrKey = true ∧
      (∃ t, exec (.icvCheckOrSet .read) (mapped [] 0x0D 0 0x0100000000000000) = .next t ∧ t.halted = true) ∧
      ∃ t, exec .resume { ready with halted := true } = .next t ∧ t.halted = false := by
  refine ⟨⟨_, rfl⟩, rfl, ⟨_, rfl, ?_⟩, ⟨_, rfl, rfl⟩⟩
  unfold icvCheckOrSetUnder
  rw [fits_of_empty _ _ (by decide)]
  decide

theorem witness_TweakCacheIsTransparent :
    CacheCoherent ready ∧
      CacheCoherent { ready with tcValid := true, tcTweak := 5, tcRtk := twkSched Config.hw.tbc ready.ks.trk 5 } ∧
      (∃ t, exec .tbcEnc ready = .next t) ∧
      ∃ t, exec .tbcEnc { ready with tcValid := true, tcTweak := 5, tcRtk := twkSched Config.hw.tbc ready.ks.trk 5 } = .next t :=
  ⟨ready_cacheCoherent, fun _ => rfl, ⟨_, rfl⟩, ⟨_, rfl⟩⟩

theorem witness_ContextsAreIndependent :
    (∃ z, stepContext ⟨[State.reset, ready]⟩ 1 = .next z) ∧ (⟨[State.reset, ready]⟩ : Contexts).engines[1]? = some ready ∧ 0 ≠ 1 :=
  ⟨⟨_, rfl⟩, rfl, by decide⟩

theorem witness_NopAndResumeResults : State.reset.halted = false := rfl

theorem witness_GetterResults : (operands 0x2A5DC0DE12345678).halted = false := rfl

theorem witness_PredicateResults : (operands 0xFFFF800000001000).halted = false := rfl

theorem witness_SetterResults :
    (operands 0 0x1FF).halted = false ∧ (Instr.caSetVersion, 55, 47) ∈ [(Instr.caSetEncsize, 61, 56), (Instr.caSetVersion, 55, 47)] ∧
      63 < 64 := by decide

theorem witness_FieldMutatorLaws : (63 ≤ 63 ∧ 63 < 64) ∧ (0 ≤ 46 ∧ 46 < 47 ∧ 47 ≤ 55 ∧ 55 < 64) := by decide

/-- 2^32 bytes at address 0 need 32 low bits whatever MIN_ALLOC_OFFSET is (V-SS8); one byte more fits nowhere (V-SS9). -/
theorem witness_ClassifyResult :
    (operands 0 0x100000000).halted = false ∧
      (let last := 0 + (max (operands 0 0x100000000).a1.toNat (2 ^ Config.hw.mao) - 1)
       0 / 2 ^ 32 = last / 2 ^ 32 ∧ ∀ j, j < 32 → 0 / 2 ^ j ≠ last / 2 ^ j) ∧
      (let last := 0 + (max (operands 0 0x100000001).a1.toNat (2 ^ Config.hw.mao) - 1)
       ∀ k, k ≤ 32 → 0 / 2 ^ k ≠ last / 2 ^ k) := by
  have hm : 2 ^ Config.hw.mao ≤ 2 ^ 31 := Nat.pow_le_pow_right (by omega) Config.hw.mao_le
  have h1 : max (operands 0 0x100000000).a1.toNat (2 ^ Config.hw.mao) = 2 ^ 32 := by
    change max (2 ^ 32) (2 ^ Config.hw.mao) = 2 ^ 32
    omega
  have h2 : max (operands 0 0x100000001).a1.toNat (2 ^ Config.hw.mao) = 2 ^ 32 + 1 := by
    change max (2 ^ 32 + 1) (2 ^ Config.hw.mao) = 2 ^ 32 + 1
    omega
  rw [h1, h2]
  decide

theorem witness_SlotSizerLaws :
    31 ≤ 31 ∧ sizeClass 31 0x40000000 0x80000000 = some 2 ∧ sizeClass 0 0x1000 0x18 = some 6 ∧
      (1 : Word).toNat ≤ (0x18 : Word).toNat ∧ 0x1000 / 2 ^ 5 = (0x1000 + (0x18 - 1)) / 2 ^ 5 ∧
      2 ^ 32 < (0x100000001 : Word).toNat ∧ (0x100000000 : Word).toNat = 2 ^ 32 := by decide

/-- V-TC5: the all-F5 and the all-zero key agree in bits 1 and 3 of every byte. -/
theorem witness_KeyScheduleGathersKeyBits :
    23 < 24 ∧ 52 < 53 ∧ (.replicate 32 0xF5 : AddrKey) ≠ .replicate 32 0 ∧
      ∀ b : Fin 32, ((.replicate 32 0xF5 : AddrKey).get b).getLsbD 1 = ((.replicate 32 0 : AddrKey).get b).getLsbD 1 ∧
        ((.replicate 32 0xF5 : AddrKey).get b).getLsbD 3 = ((.replicate 32 0 : AddrKey).get b).getLsbD 3 := by decide

theorem witness_TweakScheduleStages : testTbc.stageRounds 1 = 1 ∧ testTbc.stageRounds 0 = 2 ∧ 52 < 53 ∧ 23 < 24 := by decide

theorem witness_CipherInvolution :
    (0x0600001000 : Word).toNat % 2 ^ 40 = (0x010600001000 : Word).toNat % 2 ^ 40 ∧ (0x0600001000 : Word) ≠ 0x010600001000 := by decide

theorem witness_CipherCommandResults : ready.halted = false ∧ ready.validAddr = true ∧ CacheCoherent ready :=
  ⟨rfl, rfl, ready_cacheCoherent⟩

theorem witness_PermutationLayers : 63 < 64 := by decide

theorem witness_PrfStreamResult :
    ready.halted = false ∧ dataKey ready .codeKey = some ready.kCode ∧ keyValid ready .codeKey = true := ⟨rfl, rfl, rfl⟩

theorem witness_DataMaskLaws : 1 < ([0x43, 0x33] : List Byte).length := by decide

theorem witness_DataMaskResult :
    let s : State := { ready with a0 := 0xFFFFFFFFFFFFFFFC, a1 := 128 }
    s.halted = false ∧ Memory.wf s.dbuf = true ∧ s.a1.toNat ≤ 128 ∧ dataKey s .sharedKey = some s.kShared ∧
      keyValid s .sharedKey = true := ⟨rfl, rfl, by decide, rfl, rfl⟩

theorem witness_PointerTweakValue : 31 ≤ 31 ∧ 1 + 31 ≤ 32 ∧ ¬2 + 31 ≤ 32 := by decide

theorem witness_DecorateResults : (operands 0x1000 0x7FC6).halted = false ∧ 63 < 64 := by decide

theorem witness_PointerCommandResults : ready.halted = false ∧ ready.validAddr = true ∧ CacheCoherent ready :=
  ⟨rfl, rfl, ready_cacheCoherent⟩

/-- enc_size 0 and 63 (plain), 1 and 62 (CA), and a run on a plain address that completes. -/
theorem witness_DecodeIfResult :
    (operands 0x1000).a0.toNat / 2 ^ 56 % 64 = 0 ∧ (operands 0x3F00000000000000).a0.toNat / 2 ^ 56 % 64 = 63 ∧
      (operands 0x0100000000000000).a0.toNat / 2 ^ 56 % 64 = 1 ∧ (operands 0x3E00000000000000).a0.toNat / 2 ^ 56 % 64 = 62 ∧
      ready.halted = false ∧ ready.validAddr = true ∧ CacheCoherent ready ∧
      ∃ t, exec .ptrDecodeIf (operands 0x1000) = .next t ∧ t.status.toNat % 256 = 0 :=
  ⟨by decide, by decide, by decide, by decide, rfl, rfl, ready_cacheCoherent, ⟨complete (operands 0x1000) 0x1000 0, rfl, by decide⟩⟩

/-- (a) the value's own size; (c) two versions of one size; (d) the last byte of a 32-byte slot, a 4 GiB slot and no slot at all; (e) the
smallest and the largest CA size on a low and a high canonical address. -/
theorem witness_PointerCodecLaws :
    (0x0006 : BitVec 16).toNat % 64 = (0x0600000000001000 : Word).toNat / 2 ^ 56 % 64 ∧
      (0x0046 : BitVec 16).toNat % 64 = (0x0006 : BitVec 16).toNat % 64 ∧
      (0x1000 : Word).toNat % 2 ^ (6 + (testCfg 0).mao - 1) + 31 < 2 ^ (6 + (testCfg 0).mao - 1) ∧
      (0 : Word).toNat % 2 ^ (33 + (testCfg 0).mao - 1) + (2 ^ 32 - 1) < 2 ^ (33 + (testCfg 0).mao - 1) ∧
      (1 : Word).toNat % 2 ^ 32 + (2 ^ 32 - 2) < 2 ^ 32 ∧
      1 ≤ (0x0001 : BitVec 16).toNat % 64 ∧ (0x003E : BitVec 16).toNat % 64 ≤ 62 ∧
      (0x00007FFFDEADBEE8 : Word).toNat / 2 ^ 48 = 0 ∧ (0xFFFF800000001000 : Word).toNat / 2 ^ 48 = 0xFFFF := by decide

theorem witness_DecodedIsPlainEncodedIsCa :
    sizeClass (testCfg 0).mao 0x1000 0x18 = some 6 ∧ sizeClass (testCfg 0).mao 0 0x100000000 = some 33 := by decide

theorem witness_MatchRule :
    (0x1000 : Word).toNat / 2 ^ 56 % 64 = 0 ∧ (0xFFFFFFFFFFFFFFFF : Word).toNat / 2 ^ 56 % 64 = 63 ∧
      (0x0100000000000000 : Word).toNat / 2 ^ 56 % 64 = 1 ∧ (0x3E00000000000000 : Word).toNat / 2 ^ 56 % 64 = 62 := by decide

theorem witness_RefreshRule : 63 < 64 ∧ (0x46 : Word).getLsbD 2 = true := by decide

/-- The four policies of a mismatch, and a state with no cause recorded. -/
theorem witness_ReportByPolicy :
    [0x01, 0x05, 0x09, 0x0D].map (fun ctrl => (mapped [] ctrl 0).icvCtrl.toNat / 4 % 4) = [0, 1, 2, 3] ∧
      (mapped [] 0x0D 0).faultCause = 0 ∧ 63 < 64 := by decide

/-- The last entry of the map, index 2^61 - 1. -/
theorem witness_EntryStoreResults :
    let s := mapped [(2 ^ 61 - 1, 7)] 0 0xFFFFFFFFFFFFFFFF 0x2A00000000000000
    s.halted = false ∧ icvWf s.icv = true ∧ s.a0.toNat / 8 = 2 ^ 61 - 1 := by decide

theorem witness_CapacityRule :
    icvWf [(0, 7), (4, 7)] = true ∧ (testCfg 0).icvMaxBlocks = none ∧ (testCfg 0 none (some 1)).icvMaxBlocks = some 1 := by decide

theorem witness_EntryGetResult : (operands 0xE000000000000005).halted = false := rfl

/-- With the lock enabled and disabled, on the last granule. -/
theorem witness_CheckOrSetResult :
    let s := mapped [(2 ^ 61 - 1, 7)] 0x15 0xFFFFFFFFFFFFFFFF 0x2A00000000000000
    s.halted = false ∧ icvWf s.icv = true ∧ s.icvCtrl.getLsbD 0 = true ∧ (mapped [] 0x14 0).icvCtrl.getLsbD 0 = false := by decide

theorem witness_CorrectResult :
    (mapped [(5, 0x2A5DC0DE12345028)] 0x17 0xAABB00000000002B 0x28).halted = false ∧ isCa 0x2A5DC0DE12345028 = true ∧
      (7 : Word).toNat / 8 = 0 := by decide

/-- 128 bytes that end with the address space, 128 unaligned bytes (17 granules), and no byte. -/
theorem witness_AccessResult :
    let s := mapped [(0x200, 0x06391F0C00001000)] 0x15 0xFFFFFFFFFFFFFF80 0 128
    let u := mapped [] 0x15 0x3001 0x3001 128
    s.halted = false ∧ icvWf s.icv = true ∧ s.a2.toNat ≤ 128 ∧ s.a0.toNat + (s.a2.toNat - 1) < 2 ^ 64 ∧
      u.halted = false ∧ u.a0.toNat + (u.a2.toNat - 1) < 2 ^ 64 ∧ (mapped [] 0x15 0xFFFFFFFFFFFFFFFF).a2.toNat = 0 := by decide

/-- Per clause: a locked read; a locked write of a plain pointer, by both commands; an entry with PREINIT and INIT_N deleted by ICV_SET; a
key command. -/
theorem witness_IntegrityMapLaws :
    let s := mapped [] 0x15 0x28 0x28 8
    icvWf s.icv = true ∧ s.icvCtrl.getLsbD 0 = true ∧ s.halted = false ∧ (∃ t, exec (.icvCheckOrSet .read) s = .next t) ∧
      (∃ t, exec (.icvCheckOrSet .write) s = .next t ∧ t.status.toNat % 256 = 0) ∧
      (∃ t, exec (.icvAccess .write) s = .next t ∧ t.status.toNat % 256 = 0) ∧
      (∃ t, exec .icvSet (mapped [(5, 6)] 0 5) = .next t ∧ t.icv = []) ∧
      ∃ t, exec (.keySet .addrKey) s = .next t := by
  refine ⟨rfl, by decide, rfl, ⟨_, rfl⟩, ⟨_, rfl, ?_⟩, ⟨_, rfl, ?_⟩, ⟨_, rfl, ?_⟩, ⟨_, rfl⟩⟩
  · unfold icvCheckOrSetUnder
    rw [fits_of_empty _ _ (by decide)]
    decide
  · unfold icvAccessUnder
    rw [fits_of_empty _ _ (by decide)]
    decide
  · unfold icvSetUnder storeEntry
    rw [fits_of_empty _ _ (by decide)]
    decide

theorem witness_KeySetResults : ready.halted = false := rfl

theorem witness_ContextSaveResult : ready.halted = false ∧ Memory.wf ready.dbuf = true := ⟨rfl, rfl⟩

theorem witness_ContextLoadResult : ready.halted = false := rfl

theorem witness_ContextSaveLoadLaws :
    ready.halted = false ∧ Memory.wf ready.dbuf = true ∧ ScheduleCoherent ready ∧
      (∃ t u, exec .ctxSave ready = .next t ∧ exec .ctxLoad t = .next u) ∧ ∃ t u, exec .ctxLoad ready = .next t ∧ exec .ctxSave t = .next u :=
  ⟨rfl, rfl, ready_scheduleCoherent, ⟨_, _, rfl, rfl⟩, ⟨_, _, rfl, rfl⟩⟩

theorem witness_PseudoInstructionEffects :
    Memory.wf State.reset.dbuf = true ∧ (List.replicate 128 (0xEE : Byte)).length ≤ 128 := by decide +kernel

theorem witness_EncodePseudoInstruction : ready.halted = false ∧ ready.validAddr = true ∧ CacheCoherent ready :=
  ⟨rfl, rfl, ready_cacheCoherent⟩

end Sys2Proof.Tests
end

/-! SUPPORT. The capacity rule: the blocks of a map in canonical form (10_state.md R42, 47_integrity_map.md R223). -/

namespace Sys2Proof.Machine

/-- An array in canonical form lists exactly the indices that do not read 0. -/
theorem cellsRead_ne_zero_iff {w n lo : Nat} {m : Cells w} (h : cellsWfFrom n lo m = true) (i : Nat) :
    cellsRead m i ≠ 0 ↔ ∃ e ∈ m, e.1 = i := by
  induction m generalizing lo with
  | nil => simp [cellsRead]
  | cons c m ih =>
    obtain ⟨_, _, hv, hm⟩ := cellsWfFrom_cons.mp h
    rw [cellsRead_cons]
    by_cases hc : c.1 = i
    · rw [if_pos hc]
      exact iff_of_true hv ⟨c, List.mem_cons_self, hc⟩
    · rw [if_neg hc, ih hm, List.exists_mem_cons_iff, or_iff_right hc]

/-- The blocks that hold a non-zero entry (10_state.md R42). -/
def occupiedBlocks (c : Config) (m : IcvMap) : Set Nat :=
  { b | ∃ i, i / 2 ^ c.icvBlockBits = b ∧ cellsRead m i ≠ 0 }

theorem mem_occupiedBlocks {c : Config} {m : IcvMap} (h : icvWf m = true) (b : Nat) :
    b ∈ occupiedBlocks c m ↔ ∃ e ∈ m, e.1 >>> c.icvBlockBits = b := by
  constructor
  · rintro ⟨i, rfl, hi⟩
    obtain ⟨e, he, rfl⟩ := (cellsRead_ne_zero_iff h i).mp hi
    exact ⟨e, he, Nat.shiftRight_eq_div_pow _ _⟩
  · rintro ⟨e, he, rfl⟩
    exact ⟨e.1, (Nat.shiftRight_eq_div_pow _ _).symm, (cellsRead_ne_zero_iff h e.1).mpr ⟨e, he, rfl⟩⟩

theorem icvBlocks_eq_ncard {c : Config} {m : IcvMap} (h : icvWf m = true) : icvBlocks c m = (occupiedBlocks c m).ncard := by
  have hset : occupiedBlocks c m = ↑(m.map fun e => e.1 >>> c.icvBlockBits).toFinset :=
    Set.ext fun b => by simp [mem_occupiedBlocks h]
  rw [hset, Set.ncard_coe_finset, List.card_toFinset, icvBlocks]

/-- A block exists exactly when its occupancy is above zero (10_state.md R42). -/
theorem blockOccupancy_pos_iff {c : Config} {m : IcvMap} (h : icvWf m = true) (b : Nat) :
    b ∈ occupiedBlocks c m ↔ 0 < blockOccupancy c m b := by
  rw [mem_occupiedBlocks h, blockOccupancy, List.countP_pos_iff]
  simp

theorem icvOverfull_unbounded {c : Config} (hc : c.icvMaxBlocks = none) (m : IcvMap) : icvOverfull c m = false := by
  rw [icvOverfull, hc]

theorem icvOverfull_limited {c : Config} {limit : Nat} (hc : c.icvMaxBlocks = some limit) (m : IcvMap) :
    icvOverfull c m = true ↔ limit < icvBlocks c m := by
  rw [icvOverfull, hc, decide_eq_true_eq]

/-- An empty map has no block, so it fits under every limit. -/
theorem icvOverfull_empty (c : Config) : icvOverfull c [] = false := by
  cases hc : c.icvMaxBlocks with
  | none => exact icvOverfull_unbounded hc []
  | some limit => exact Bool.eq_false_iff.mpr fun h => Nat.not_lt_zero limit ((icvOverfull_limited hc []).mp h)

/-- Settles O49: the listed indices of a canonical map are its non-zero entries, so the model's count is the count of blocks. -/
theorem capacityRule : Obligations.CapacityRule := fun _ m h =>
  ⟨fun hc => icvOverfull_unbounded hc m, fun _ hc => icvBlocks_eq_ncard h ▸ icvOverfull_limited hc m,
    icvBlocks_eq_ncard h, blockOccupancy_pos_iff h⟩

end Sys2Proof.Machine

/-! SUPPORT. What each operation keeps of a sound state (10_state.md R28 to R31, R39 to R43). -/

namespace Sys2Proof.Machine

/-! ### Events and the FAULT registers -/

/-- `EVENTS` bit by bit after an event was set. -/
theorem getLsbD_setEvent (s : State) {k : Nat} (hk : k < 64) (b : Nat) :
    (setEvent s k).events.getLsbD b = (s.events.getLsbD b || decide (b = k)) := by
  have hbit : (1#64 <<< k).getLsbD b = decide (b = k) := by
    simp only [BitVec.getLsbD_shiftLeft, BitVec.getLsbD_one, ← Bool.decide_and, ← decide_not]
    exact decide_eq_decide.mpr (by omega)
  rw [setEvent_events, BitVec.getLsbD_or, hbit]

theorem setEvent_events_lt {s : State} {k : Nat} (h : s.events.toNat < 64) (hk : k < 6) : (setEvent s k).events.toNat < 64 := by
  have hbit : (1#64 <<< k).toNat < 2 ^ 6 := by
    interval_cases k <;> decide
  rw [setEvent_events, BitVec.toNat_or]
  exact Nat.or_lt_two_pow h hbit

theorem granuleAddress_aligned (i : Nat) : (granuleAddress i).toNat % 8 = 0 := by
  simp only [granuleAddress, BitVec.toNat_shiftLeft, BitVec.toNat_ofNat, Nat.shiftLeft_eq]
  omega

theorem latchFault_unrecorded {s : State} (hc : s.faultCause = 0) (v : Violation) (g x : Word) :
    latchFault s v g x = { s with faultCause := BitVec.ofNat 64 (violationClass v), faultGaddr := g, faultPtr := x } :=
  if_pos hc

theorem latchFault_recorded {s : State} (hc : s.faultCause ≠ 0) (v : Violation) (g x : Word) : latchFault s v g x = s :=
  if_neg hc

theorem ackEvents_clearing {s : State} {v : Word} (hv : v.getLsbD 3 = true) :
    ackEvents s v = { s with events := s.events &&& ~~~v, faultCause := 0, faultGaddr := 0, faultPtr := 0 } :=
  if_pos hv

theorem ackEvents_keeping {s : State} {v : Word} (hv : v.getLsbD 3 = false) :
    ackEvents s v = { s with events := s.events &&& ~~~v } :=
  if_neg (Bool.eq_false_iff.mp hv)

theorem violationClass_bounds (v : Violation) : 1 ≤ violationClass v ∧ violationClass v ≤ 2 := by
  cases v <;> decide

theorem statusWord_sound (c : Code) (f : StatusFlags) :
    (statusWord c f).toNat % 256 ≤ 6 ∧ (statusWord c f).toNat < 2 ^ 13 := by
  rw [statusWord_code]
  exact (statusWord_lt c f).symm

section
variable {s : State} (h : Sound s)
include h

theorem Sound.complete (x y : Word) (f : StatusFlags) : Sound (complete s x y f) :=
  { h with status := statusWord_sound .ok f }

theorem Sound.refuse (c : Code) : Sound (refuse s c) :=
  { h with status := statusWord_sound c {} }

theorem Sound.haltIf (b : Bool) : Sound (haltIf b s) := by
  cases b
  · exact h
  · exact { h with }

theorem Sound.setEvent {k : Nat} (hk : k < 6) (h3 : k ≠ 3) : Sound (setEvent s k) := by
  have hf : faultOut (Machine.setEvent s k) = faultOut s := by
    rw [faultOut, getLsbD_setEvent s (by omega), decide_eq_false h3.symm, Bool.or_false, faultOut]
  refine { h with reserved := ⟨setEvent_events_lt h.reserved.1 hk, h.reserved.2⟩, faultRegs := ?_ }
  rw [FaultRegistersSound, hf]
  exact h.faultRegs

/-- A violation under policy Fault or Break raises EV_FAULT and is recorded unless one is (60_exceptions.md R284). -/
theorem Sound.latchFault (v : Violation) {g : Word} (hg : g.toNat % 8 = 0) (x : Word) :
    Sound (latchFault (Machine.setEvent s 3) v g x) := by
  obtain ⟨hcause, haddr, hout, hzero⟩ := h.faultRegs
  have hev := setEvent_events_lt h.reserved.1 (show 3 < 6 by decide)
  have hf : faultOut (Machine.setEvent s 3) = true := by
    rw [faultOut, getLsbD_setEvent s (by decide), decide_eq_true rfl, Bool.or_true]
  by_cases hc : s.faultCause = 0
  · rw [latchFault_unrecorded (s := Machine.setEvent s 3) hc]
    have hclass : (BitVec.ofNat 64 (violationClass v)).toNat = violationClass v := by cases v <;> rfl
    obtain ⟨h1, h2⟩ := violationClass_bounds v
    have hne : BitVec.ofNat 64 (violationClass v) ≠ 0 := by cases v <;> decide
    exact { h with
      reserved := ⟨hev, h.reserved.2⟩
      faultRegs := ⟨hclass.trans_le h2, hg, iff_of_true hf hne, fun h0 => absurd h0 hne⟩ }
  · rw [latchFault_recorded (s := Machine.setEvent s 3) hc]
    exact { h with
      reserved := ⟨hev, h.reserved.2⟩
      faultRegs := ⟨hcause, haddr, iff_of_true hf hc, hzero⟩ }

theorem Sound.report (v : Violation) {g : Word} (hg : g.toNat % 8 = 0) (x : Word) : Sound (report s v g x).1 := by
  obtain ⟨h1, h2⟩ := violationClass_bounds v
  have hev : Sound (Machine.setEvent s (violationClass v - 1)) := h.setEvent (by omega) (by omega)
  rcases report_cases s v g x with ⟨_, e⟩ | ⟨_, e⟩ | ⟨_, e⟩ | ⟨_, e⟩ <;> rw [e]
  · exact h
  · exact hev
  · exact hev.latchFault v hg x
  · exact (hev.latchFault v hg x).setEvent (by decide) (by decide)

/-- A host's write to EVENTS that clears EV_FAULT clears the FAULT registers with it (60_exceptions.md R287). -/
theorem Sound.ackEvents (v : Word) : Sound (ackEvents s v) := by
  obtain ⟨hcause, haddr, hout, hzero⟩ := h.faultRegs
  have hev : (s.events &&& ~~~v).toNat < 64 := by
    rw [BitVec.toNat_and]
    exact Nat.and_le_left.trans_lt h.reserved.1
  have hbit : (s.events &&& ~~~v).getLsbD 3 = (s.events.getLsbD 3 && !v.getLsbD 3) := by
    rw [BitVec.getLsbD_and, BitVec.getLsbD_not, decide_eq_true (show 3 < 64 by decide), Bool.true_and]
  cases hv : v.getLsbD 3
  · have hf : (s.events &&& ~~~v).getLsbD 3 = faultOut s := by rw [hbit, hv, Bool.not_false, Bool.and_true, faultOut]
    rw [ackEvents_keeping hv]
    exact { h with reserved := ⟨hev, h.reserved.2⟩, faultRegs := ⟨hcause, haddr, (Bool.eq_iff_iff.mp hf).trans hout, hzero⟩ }
  · have hf : (s.events &&& ~~~v).getLsbD 3 ≠ true := by
      rw [hbit, hv, Bool.not_true, Bool.and_false]
      exact Bool.false_ne_true
    rw [ackEvents_clearing hv]
    exact { h with
      reserved := ⟨hev, h.reserved.2⟩
      faultRegs := ⟨Nat.zero_le 2, rfl, iff_of_false hf fun hne => hne rfl, fun _ => ⟨rfl, rfl⟩⟩ }

/-! ### The stores, the keys and the tweak cache -/

theorem Sound.withIcv {m : IcvMap} (hm : icvWf m = true) (hf : icvOverfull Config.hw m = false) : Sound { s with icv := m } :=
  { h with stores := ⟨h.stores.1, hm, hf⟩ }

theorem Sound.memWrite {off : Nat} (bs : List Byte) (hn : off + bs.length ≤ 128) : Sound (memWrite s off bs) :=
  { h with stores := ⟨memWrite_wf bs h.stores.1 hn, h.stores.2⟩ }

theorem Sound.fillCache (tw : Word) : Sound (fillCache Config.hw.tbc s (usedTweak tw)) := by
  rw [fillCache_hw h.cache]
  exact { h with cache := fun _ => rfl }

theorem Sound.loadAddrKey (key : AddrKey) : Sound (loadAddrKey s key) :=
  { h with
    schedule := by rw [ScheduleCoherent, loadAddrKey_ks, loadAddrKey_kAddr]
    cache := fun hv => absurd hv Bool.false_ne_true }

theorem Sound.withContextAndDataKeys (f g r : Word) (k0 k1 k2 : DataKey) (v0 v1 v2 : Bool) :
    Sound { s with
      ctxFlags := f, ctxShadow := g, ctxRsvd := r, kShared := k0, kPrivate := k1, kCode := k2
      validShared := v0, validPrivate := v1, validCode := v2 } :=
  { h with }

theorem Sound.loadKeySlot (k : KeySlot) : Sound (loadKeySlot s k) := by
  unfold Machine.loadKeySlot
  generalize dataKeyAt s 0 = key
  cases k with
  | addrKey => exact h.loadAddrKey _
  | sharedKey | privateKey | codeKey => exact h.withContextAndDataKeys ..

theorem Sound.loadRecord : Sound (loadRecord s) :=
  (h.withContextAndDataKeys ..).loadAddrKey _

/-! ### Granule steps, commands and transactions -/

omit h in
theorem Sound.reportAll {s : State} (h : Sound s) (rs : List Report) : Sound (reportAll s rs) := by
  induction rs generalizing s with
  | nil => exact h
  | cons r rs ih => exact ih (h.report r.kind (granuleAddress_aligned r.index) r.pointer)

/-- A run of granule steps keeps a sound state sound unless it needs more blocks than the map has. -/
theorem Sound.granuleSteps {i n : Nat} (p : Word) (kind : AccessKind) (hi : i + n ≤ 2 ^ 61)
    (hf : icvOverfull Config.hw (granuleSteps s i p kind n).st.icv = false) : Sound (granuleSteps s i p kind n).st := by
  obtain ⟨m, hm, _, e⟩ := granuleSteps_eq s i p kind n h.stores.2.1 hi
  rw [e] at hf ⊢
  exact (h.reportAll _).withIcv hm hf

/-- Whatever a command leaves behind is sound. -/
theorem Sound.leaves {i : Instr} {t : State} (ht : Leaves i s t) : Sound t := by
  cases ht with
  | refused c => exact h.refuse c
  | results => exact h.complete _ _ _
  | cipher _ _ _ tw => exact (h.fillCache tw).complete _ _ _
  | masked _ _ _ bs hb => exact (h.memWrite bs (by omega)).complete _ _ _
  | stored _ _ j hj v hf => exact (h.withIcv (icvWrite_wf v h.stores.2.1 hj) hf).complete _ _ _
  | checked kind _ _ _ _ _ hf =>
    have hj := granuleIndex_lt s.a0
    exact ((h.granuleSteps _ kind (by omega) hf).complete _ _ _).haltIf _
  | accessed kind _ _ _ _ _ mixed ha hf =>
    have hg := h.granuleSteps s.a1 kind (access_in_range ha) hf
    refine Sound.haltIf (Sound.complete ?_ _ _ _) _
    cases mixed
    · exact hg
    · exact hg.setEvent (by decide) (by decide)
  | keyed k => exact (h.loadKeySlot k).complete _ _ _
  | saved => exact (h.memWrite _ (by rw [contextRecord_length]; decide)).complete _ _ _
  | loaded => exact h.loadRecord.complete _ _ _
  | resumed => exact Sound.complete (s := leaveHalt s) { h with } _ _ _

theorem Sound.windowWrite (off : Nat) (v : Word) : Sound (windowWrite s off v) := by
  unfold Machine.windowWrite
  split
  case h_8 => -- ICV_CTRL: six bits are kept
    exact { h with reserved := ⟨h.reserved.1, by simp; omega⟩ }
  case h_9 => exact h.ackEvents v
  case h_10 => -- DBUF and the offsets whose writes are ignored
    split
    · exact h.memWrite _ (by rw [leBytes_length]; omega)
    · exact h
  all_goals exact { h with }

theorem Sound.hostRead (off : Nat) : Sound (hostRead s off) := by
  unfold Machine.hostRead
  split
  · exact { h.setEvent (show 5 < 6 by decide) (by decide) with }
  · exact { h with }

theorem Sound.hostWrite {off : Nat} {v : Word} {t : State} (ht : hostWrite s off v = .next t) : Sound t := by
  unfold Machine.hostWrite at ht
  split at ht
  · obtain rfl := Host.Outcome.next.inj ht
    exact h.setEvent (by decide) (by decide)
  · split at ht
    · unfold issueCommand at ht
      split at ht
      · obtain rfl := Host.Outcome.next.inj ht
        exact h.refuse _
      · exact h.leaves (exec_leaves ht)
    · obtain rfl := Host.Outcome.next.inj ht
      exact h.windowWrite off v

end

/-! ### Reset -/

theorem keyBit_zero (p : Nat) : keyBit (.replicate 32 0) p = false := by
  simp [keyBit, Vector.get]

/-- The schedule of the zero key is zero (10_state.md R45). -/
theorem keySched_zero : keySched (.replicate 32 0) = { drk := 0, trk := .replicate 6 0 } := by
  have hsel : ∀ n, ksSel (.replicate 32 0) n = false := fun n => keyBit_zero _
  have hzero : ∀ {n : Nat}, (BitVec.ofFnLE fun _ : Fin n => false) = 0 := fun {n} => by
    apply BitVec.eq_of_getLsbD_eq
    intro i hi
    simp [hi]
  simp only [keySched, hsel, hzero]
  congr 1

theorem reset_sound : Sound State.reset where
  stores := ⟨reset_memories_wf.1, reset_memories_wf.2, icvOverfull_empty _⟩
  schedule := keySched_zero.symm
  cache := fun h => nomatch h
  status := by unfold StatusSound; decide
  reserved := by unfold ReservedBitsZero; decide
  faultRegs := by unfold FaultRegistersSound; decide

/-- Settles O17, by the values after reset. -/
theorem resetIsSound : Obligations.ResetIsSound := reset_sound

/-- Settles O16: each input keeps a sound state sound, and a command leaves one of the cases of `Leaves`. -/
theorem soundPreservedByStep : Obligations.SoundPreservedByStep := by
  intro s t h ht
  unfold step portStep at ht
  split at ht
  case h_1 =>
    obtain rfl := Host.Outcome.next.inj ht
    exact h
  case h_2 input rest _ =>
    have hr : Sound { s with port := rest } := { h with }
    cases input with
    | hread off =>
      obtain rfl := Host.Outcome.next.inj ht
      exact hr.hostRead off
    | hwrite off v => exact hr.hostWrite ht
    | reset =>
      obtain rfl := Host.Outcome.next.inj ht
      exact { reset_sound with }

/-- Settles O11: all but the schedule of the zero key stands in the definition of the reset state. -/
theorem resetValues : Obligations.ResetValues := by
  refine ⟨rfl, rfl, rfl, rfl, rfl, rfl, rfl, rfl, rfl, rfl, rfl, rfl, rfl, rfl, rfl, rfl, ?_, ?_, ?_, rfl, ?_, keySched_zero.symm,
    rfl, fun _ => rfl, rfl, fun _ => rfl, rfl, rfl⟩
  · intro j
    simp [State.reset, Vector.get]
  · intro j
    simp [State.reset, Vector.get]
  · intro k
    cases k <;> rfl
  · intro i
    simp [State.reset, Vector.get]

end Sys2Proof.Machine

/-! SUPPORT. The refusals that every command shares: HALTED and a missing key (30_encoding.md R81, 60_exceptions.md R280, R281). -/

namespace Sys2Proof.Machine

/-- A refusal as the number it leaves in STATUS[62:0] (60_exceptions.md R280). -/
theorem refuse_eq (s : State) (c : Code) : refuse s c = { s with status := (codeBits c).setWidth 63 } := by
  have hw : statusWord c {} = (codeBits c).setWidth 63 := by cases c <;> decide
  rw [refuse, hw]

/-- Every command but RESUME starts with the check of HALTED (30_encoding.md R81 step 4). -/
theorem exec_eq_unlessHalted {i : Instr} (hi : i ≠ .resume) (s : State) : ∃ t, exec i s = .next (unlessHalted s t) := by
  cases i with
  | resume => exact absurd rfl hi
  | _ => exact ⟨_, rfl⟩

/-- The commands that always evaluate the cipher check K_ADDR right after HALTED (30_encoding.md R81 step 6). -/
theorem exec_eq_needKey {i : Instr} (hi : i ∈ [Instr.tbcEnc, .tbcDec, .ptrEncrypt, .ptrDecrypt, .ptrEncode, .ptrDecode])
    (s : State) : ∃ t, exec i s = .next (unlessHalted s (needKey s .addrKey t)) := by
  simp only [List.mem_cons, List.not_mem_nil, or_false] at hi
  rcases hi with rfl | rfl | rfl | rfl | rfl | rfl <;> exact ⟨_, rfl⟩

/-- PTR_DECODE_IF of a CA checks K_ADDR (45_pointer_codec.md R206). -/
theorem exec_ptrDecodeIf_ca {s : State} (hca : isCa s.a0 = true) :
    ∃ t, exec .ptrDecodeIf s = .next (unlessHalted s (needKey s .addrKey t)) := by
  rw [exec, execPtrDecodeIf, ptrDecodeIfUnder, if_pos hca]
  exact ⟨_, rfl⟩

/-- Only slot 3 holds no data key (10_state.md R37). -/
theorem exists_dataKey {k : KeySlot} (hk : k ≠ .addrKey) (s : State) : ∃ key, dataKey s k = some key := by
  cases k with
  | addrKey => exact absurd rfl hk
  | _ => exact ⟨_, rfl⟩

theorem exec_prfStream_dataSlot {k : KeySlot} (hk : k ≠ .addrKey) (s : State) :
    ∃ t, exec (.prfStream k) s = .next (unlessHalted s (needKey s k t)) := by
  obtain ⟨key, hkey⟩ := exists_dataKey hk s
  rw [exec, execPrfStream, prfStreamUnder, hkey]
  exact ⟨_, rfl⟩

theorem exec_dataMask_dataSlot {k : KeySlot} (hk : k ≠ .addrKey) {s : State} (hlen : s.a1.toNat ≤ 128) :
    ∃ t, exec (.dataMask k) s = .next (unlessHalted s (needKey s k t)) := by
  obtain ⟨key, hkey⟩ := exists_dataKey hk s
  rw [exec, execDataMask, dataMaskUnder, hkey]
  dsimp only
  rw [if_neg (Nat.not_lt.mpr hlen)]
  exact ⟨_, rfl⟩

/-- A command that is not halted and misses the key it needs leaves STATUS[62:0] = 4. -/
theorem refused_of_missing_key {i : Instr} {s : State} {k : KeySlot} (hs : s.halted = false) (hk : keyValid s k = false)
    (hi : ∃ t, exec i s = .next (unlessHalted s (needKey s k t))) : exec i s = .next { s with status := 4 } := by
  obtain ⟨t, e⟩ := hi
  rw [e, unlessHalted_running hs, needKey_missing hk, refuse_eq]
  rfl

/-- Settles O7: HALTED is the first thing any other command looks at. -/
theorem haltedEngineRefuses : Obligations.HaltedEngineRefuses := by
  intro i s hi hs
  obtain ⟨t, e⟩ := exec_eq_unlessHalted hi s
  rw [e, unlessHalted_halted hs, refuse_eq]
  rfl

/-- Settles O9: each command named looks at its key right after HALTED. -/
theorem noKeyRefusals : Obligations.NoKeyRefusals := by
  intro s hs
  refine ⟨fun hk i hi => ?_, fun hk h0 h63 => ?_, fun k hslot hk => ⟨?_, fun hlen => ?_⟩⟩
  · exact refused_of_missing_key (k := .addrKey) hs hk (exec_eq_needKey hi s)
  · have hca : isCa s.a0 = true := by rw [isCa_eq, decide_eq_true_eq]; exact ⟨h0, h63⟩
    exact refused_of_missing_key (k := .addrKey) hs hk (exec_ptrDecodeIf_ca hca)
  · exact refused_of_missing_key hs hk (exec_prfStream_dataSlot hslot s)
  · exact refused_of_missing_key hs hk (exec_dataMask_dataSlot hslot hlen)

end Sys2Proof.Machine

/-! SUPPORT. What the checking commands cannot undo, and what each kind of command can change (10_state.md R29, R30, R36, R38, R44). -/

namespace Sys2Proof.Machine

/-! ### Events and recorded faults accumulate -/

/-- From s to t no event is cleared and a recorded fault stays as it is (10_state.md R29, 60_exceptions.md R284). -/
def Accumulates (s t : State) : Prop :=
  (∀ b, s.events.getLsbD b = true → t.events.getLsbD b = true) ∧
    (s.faultCause ≠ 0 → t.faultCause = s.faultCause ∧ t.faultGaddr = s.faultGaddr ∧ t.faultPtr = s.faultPtr)

theorem Accumulates.refl (s : State) : Accumulates s s :=
  ⟨fun _ hb => hb, fun _ => ⟨rfl, rfl, rfl⟩⟩

theorem Accumulates.trans {s t u : State} (h : Accumulates s t) (h' : Accumulates t u) : Accumulates s u := by
  refine ⟨fun b hb => h'.1 b (h.1 b hb), fun hc => ?_⟩
  obtain ⟨hcause, haddr, hptr⟩ := h.2 hc
  obtain ⟨hcause', haddr', hptr'⟩ := h'.2 (hcause ▸ hc)
  exact ⟨hcause'.trans hcause, haddr'.trans haddr, hptr'.trans hptr⟩

theorem accumulates_setEvent (s : State) (k : Nat) : Accumulates s (setEvent s k) := by
  refine ⟨fun b hb => ?_, fun _ => ⟨rfl, rfl, rfl⟩⟩
  rw [setEvent_events, BitVec.getLsbD_or, hb, Bool.true_or]

theorem accumulates_latchFault (s : State) (v : Violation) (g x : Word) : Accumulates s (latchFault s v g x) := by
  refine ⟨fun b hb => by rwa [latchFault_events], fun hc => ?_⟩
  rw [latchFault_recorded hc]
  exact ⟨rfl, rfl, rfl⟩

theorem accumulates_report (s : State) (v : Violation) (g x : Word) : Accumulates s (report s v g x).1 := by
  have hclass := accumulates_setEvent s (violationClass v - 1)
  have hlatch := (hclass.trans (accumulates_setEvent _ 3)).trans (accumulates_latchFault _ v g x)
  rcases report_cases s v g x with ⟨_, e⟩ | ⟨_, e⟩ | ⟨_, e⟩ | ⟨_, e⟩ <;> rw [e]
  · exact .refl s
  · exact hclass
  · exact hlatch
  · exact hlatch.trans (accumulates_setEvent _ 4)

/-- A report under policy Break sets EV_BREAK (60_exceptions.md R283). -/
theorem report_sets_break {s : State} {v : Violation} (hp : policyFor s v = .brk) (g x : Word) :
    (report s v g x).1.events.getLsbD 4 = true := by
  rw [report, hp]
  dsimp only
  rw [getLsbD_setEvent _ (by decide), decide_eq_true rfl, Bool.or_true]

theorem accumulates_reportAll (s : State) (rs : List Report) : Accumulates s (reportAll s rs) := by
  induction rs generalizing s with
  | nil => exact .refl s
  | cons r rs ih => exact (accumulates_report s r.kind (granuleAddress r.index) r.pointer).trans (ih _)

theorem reportAll_sets_break {s : State} {rs : List Report}
    (hb : (rs.any fun r => decide (policyFor s r.kind = .brk)) = true) : (reportAll s rs).events.getLsbD 4 = true := by
  induction rs generalizing s with
  | nil => cases hb
  | cons r rs ih =>
    rw [List.any_cons, Bool.or_eq_true, decide_eq_true_eq] at hb
    rcases hb with hp | hb
    · exact (accumulates_reportAll _ rs).1 4 (report_sets_break hp _ _)
    · exact ih (by simpa only [policyFor_report] using hb)

/-- One granule step accumulates, and it asks for a halt only with EV_BREAK set. -/
theorem granuleStep_accumulates (s : State) (i : Nat) (x : Word) (kind : AccessKind) :
    Accumulates s (granuleStep s i x kind).st ∧
      ((granuleStep s i x kind).brk = true → (granuleStep s i x kind).st.events.getLsbD 4 = true) := by
  rw [granuleStep_eq]
  dsimp only
  split
  · exact ⟨accumulates_reportAll s _, reportAll_sets_break⟩
  · exact ⟨accumulates_reportAll s _, reportAll_sets_break⟩

theorem granuleSteps_accumulates (s : State) (i : Nat) (p : Word) (kind : AccessKind) (n : Nat) :
    Accumulates s (granuleSteps s i p kind n).st ∧
      ((granuleSteps s i p kind n).brk = true → (granuleSteps s i p kind n).st.events.getLsbD 4 = true) := by
  induction n generalizing s i p with
  | zero => exact ⟨.refl s, fun hb => nomatch hb⟩
  | succ n ih =>
    obtain ⟨hacc, hbrk⟩ := granuleStep_accumulates s i p kind
    obtain ⟨hacc', hbrk'⟩ := ih (granuleStep s i p kind).st (i + 1) (p + 8)
    refine ⟨hacc.trans hacc', fun hb => ?_⟩
    rcases (Bool.or_eq_true _ _).mp hb with hb | hb
    · exact hacc'.1 4 (hbrk hb)
    · exact hbrk' hb

/-! ### What a command can change -/

/-- What the command i can change in s: each kind of command with the fields it may write, and what of s stays in them. -/
inductive Changes (i : Instr) (s : State) : State → Prop
  | results (r0 r1 : Word) (st : BitVec 63) : Changes i s { s with r0 := r0, r1 := r1, status := st }
  | cache (hi : usesCipher i) (r0 r1 : Word) (st : BitVec 63) (v : Bool) (tw : Tweak) (rtk : Vector Block 12) :
      Changes i s { s with r0 := r0, r1 := r1, status := st, tcValid := v, tcTweak := tw, tcRtk := rtk }
  | buffer (hi : (∃ k, i = .dataMask k) ∨ i = .ctxSave) (r0 r1 : Word) (st : BitVec 63) (d : Memory) :
      Changes i s { s with r0 := r0, r1 := r1, status := st, dbuf := d }
  | entry (hi : storesEntry i) (r0 r1 : Word) (st : BitVec 63) (m : IcvMap) :
      Changes i s { s with r0 := r0, r1 := r1, status := st, icv := m }
  | checks (kind : AccessKind) (hi : i = .icvCheckOrSet kind ∨ i = .icvAccess kind) (hs : s.halted = false)
      (r0 r1 : Word) (st : BitVec 63) (m : IcvMap) (u : State) (hu : Accumulates s u) (b : Bool)
      (hb : b = true → u.events.getLsbD 4 = true ∧ st.toNat % 256 = 0) :
      Changes i s { s with
        r0 := r0, r1 := r1, status := st, icv := m, halted := b
        events := u.events, faultCause := u.faultCause, faultGaddr := u.faultGaddr, faultPtr := u.faultPtr }
  | sharedKey (hi : i = .keySet .sharedKey) (r0 r1 : Word) (st : BitVec 63) (key : DataKey) :
      Changes i s { s with r0 := r0, r1 := r1, status := st, kShared := key, validShared := true }
  | privateKey (hi : i = .keySet .privateKey) (r0 r1 : Word) (st : BitVec 63) (key : DataKey) :
      Changes i s { s with r0 := r0, r1 := r1, status := st, kPrivate := key, validPrivate := true }
  | codeKey (hi : i = .keySet .codeKey) (r0 r1 : Word) (st : BitVec 63) (key : DataKey) :
      Changes i s { s with r0 := r0, r1 := r1, status := st, kCode := key, validCode := true }
  | addrKey (hi : i = .keySet .addrKey) (r0 r1 : Word) (st : BitVec 63) (key : AddrKey) (ks : KeySchedule) (v : Bool) :
      Changes i s { s with r0 := r0, r1 := r1, status := st, kAddr := key, validAddr := true, ks := ks, tcValid := v }
  | record (hi : i = .ctxLoad) (r0 r1 : Word) (st : BitVec 63) (f g r : Word) (k0 k1 k2 : DataKey) (key : AddrKey)
      (ks : KeySchedule) (v : Bool) :
      Changes i s { s with
        r0 := r0, r1 := r1, status := st, ctxFlags := f, ctxShadow := g, ctxRsvd := r, kShared := k0, kPrivate := k1, kCode := k2
        kAddr := key, validShared := true, validPrivate := true, validCode := true, validAddr := true, ks := ks, tcValid := v }
  | resume (hi : i = .resume) (r0 r1 : Word) (st : BitVec 63) :
      Changes i s { s with r0 := r0, r1 := r1, status := st, halted := false }

/-- Asking for a tweak changes the cache only (43_tweak_cipher.md R157). -/
theorem fillCache_frame (c : TbcParams) (s : State) (tw : Tweak) :
    fillCache c s tw = { s with
      tcValid := (fillCache c s tw).tcValid, tcTweak := (fillCache c s tw).tcTweak, tcRtk := (fillCache c s tw).tcRtk } := by
  unfold fillCache
  split <;> rfl

/-- The end of a checking command: EV_MIXED, the results, and the halt that its granules asked for (47_integrity_map.md R242). -/
theorem changes_of_granuleSteps {i : Instr} {s : State} (kind : AccessKind)
    (hi : i = .icvCheckOrSet kind ∨ i = .icvAccess kind) (hs : s.halted = false) (j n : Nat) (p r0 r1 : Word) (f : StatusFlags)
    (mixed : Bool) :
    Changes i s (haltIf (granuleSteps s j p kind n).brk
      (complete (if mixed then setEvent (granuleSteps s j p kind n).st 2 else (granuleSteps s j p kind n).st) r0 r1 f)) := by
  obtain ⟨hacc, hbrk⟩ := granuleSteps_accumulates s j p kind n
  have hframe := granuleSteps_frame s j p kind n
  generalize granuleSteps s j p kind n = g at *
  obtain ⟨u, brk, bits⟩ := g
  dsimp only at hacc hbrk hframe ⊢
  have hu : Accumulates u (if mixed then setEvent u 2 else u) := by
    cases mixed
    · exact .refl u
    · exact accumulates_setEvent u 2
  have hc := Changes.checks kind hi hs r0 r1 (statusWord .ok f) u.icv _ (hacc.trans hu) brk
    fun hb => ⟨hu.1 4 (hbrk hb), statusWord_code .ok f⟩
  convert hc using 1
  rw [hframe]
  cases brk <;> cases mixed <;> simp [haltIf, complete, setEvent, hs]

/-- Every case of `Leaves` as the fields it may write. -/
theorem Leaves.changes {i : Instr} {s t : State} (h : Leaves i s t) : Changes i s t := by
  cases h with
  | refused c => exact .results s.r0 s.r1 _
  | results => exact .results _ _ _
  | cipher hi _ _ tw r0 r1 =>
    rw [fillCache_frame]
    exact .cache hi _ _ _ _ _ _
  | masked k hi => exact .buffer (.inl ⟨k, hi⟩) _ _ _ _
  | stored hi => exact .entry hi _ _ _ _
  | checked kind hi hs r0 r1 f => exact changes_of_granuleSteps kind (.inl hi) hs _ _ _ r0 r1 f false
  | accessed kind hi hs r0 r1 f mixed => exact changes_of_granuleSteps kind (.inr hi) hs _ _ _ r0 r1 f mixed
  | keyed k hi =>
    simp only [complete, loadKeySlot, loadAddrKey]
    cases k with
    | sharedKey => exact .sharedKey hi _ _ _ _
    | privateKey => exact .privateKey hi _ _ _ _
    | codeKey => exact .codeKey hi _ _ _ _
    | addrKey => exact .addrKey hi _ _ _ _ _ _
  | saved hi => exact .buffer (.inr hi) _ _ _ _
  | loaded hi =>
    simp only [complete, loadRecord, loadAddrKey]
    exact .record hi _ _ _ _ _ _ _ _ _ _ _ _
  | resumed hi => exact .resume hi _ _ _

section
variable {i : Instr} {s t : State} (h : Changes i s t)
include h

theorem Changes.keeps_operands :
    t.a0 = s.a0 ∧ t.a1 = s.a1 ∧ t.a2 = s.a2 ∧ t.a3 = s.a3 ∧ t.icvCtrl = s.icvCtrl ∧ t.port = s.port ∧ t.hostData = s.hostData := by
  cases h <;> exact ⟨rfl, rfl, rfl, rfl, rfl, rfl, rfl⟩

theorem Changes.keeps_contextWords (hl : i ≠ .ctxLoad) :
    t.ctxFlags = s.ctxFlags ∧ t.ctxShadow = s.ctxShadow ∧ t.ctxRsvd = s.ctxRsvd := by
  cases h with
  | record hi => exact absurd hi hl
  | _ => exact ⟨rfl, rfl, rfl⟩

theorem Changes.keeps_sharedKey (hl : i ≠ .ctxLoad) (hk : i ≠ .keySet .sharedKey) :
    t.kShared = s.kShared ∧ t.validShared = s.validShared := by
  cases h with
  | sharedKey hi => exact absurd hi hk
  | record hi => exact absurd hi hl
  | _ => exact ⟨rfl, rfl⟩

theorem Changes.keeps_privateKey (hl : i ≠ .ctxLoad) (hk : i ≠ .keySet .privateKey) :
    t.kPrivate = s.kPrivate ∧ t.validPrivate = s.validPrivate := by
  cases h with
  | privateKey hi => exact absurd hi hk
  | record hi => exact absurd hi hl
  | _ => exact ⟨rfl, rfl⟩

theorem Changes.keeps_codeKey (hl : i ≠ .ctxLoad) (hk : i ≠ .keySet .codeKey) : t.kCode = s.kCode ∧ t.validCode = s.validCode := by
  cases h with
  | codeKey hi => exact absurd hi hk
  | record hi => exact absurd hi hl
  | _ => exact ⟨rfl, rfl⟩

theorem Changes.keeps_addrKey (hl : i ≠ .ctxLoad) (hk : i ≠ .keySet .addrKey) :
    t.kAddr = s.kAddr ∧ t.validAddr = s.validAddr ∧ t.ks = s.ks := by
  cases h with
  | addrKey hi => exact absurd hi hk
  | record hi => exact absurd hi hl
  | _ => exact ⟨rfl, rfl, rfl⟩

theorem Changes.keeps_dbuf (hm : ∀ k, i ≠ .dataMask k) (hsave : i ≠ .ctxSave) : t.dbuf = s.dbuf := by
  cases h with
  | buffer hi =>
    rcases hi with ⟨k, hi⟩ | hi
    · exact absurd hi (hm k)
    · exact absurd hi hsave
  | _ => rfl

theorem Changes.keeps_icv (hc : ∀ kind, i ≠ .icvCheckOrSet kind ∧ i ≠ .icvAccess kind) (he : ¬storesEntry i) : t.icv = s.icv := by
  cases h with
  | entry hi => exact absurd hi he
  | checks kind hi => exact absurd hi (not_or.mpr (hc kind))
  | _ => rfl

theorem Changes.keeps_events (hc : ∀ kind, i ≠ .icvCheckOrSet kind ∧ i ≠ .icvAccess kind) :
    t.events = s.events ∧ t.faultCause = s.faultCause ∧ t.faultGaddr = s.faultGaddr ∧ t.faultPtr = s.faultPtr := by
  cases h with
  | checks kind hi => exact absurd hi (not_or.mpr (hc kind))
  | _ => exact ⟨rfl, rfl, rfl, rfl⟩

theorem Changes.keeps_halted (hc : ∀ kind, i ≠ .icvCheckOrSet kind ∧ i ≠ .icvAccess kind) (hr : i ≠ .resume) :
    t.halted = s.halted := by
  cases h with
  | checks kind hi => exact absurd hi (not_or.mpr (hc kind))
  | resume hi => exact absurd hi hr
  | _ => rfl

theorem Changes.keeps_tweakCache (hc : ¬usesCipher i) (hl : i ≠ .ctxLoad) (hk : i ≠ .keySet .addrKey) :
    t.tcValid = s.tcValid ∧ t.tcTweak = s.tcTweak ∧ t.tcRtk = s.tcRtk := by
  cases h with
  | cache hi => exact absurd hi hc
  | addrKey hi => exact absurd hi hk
  | record hi => exact absurd hi hl
  | _ => exact ⟨rfl, rfl, rfl⟩

theorem Changes.accumulates : Accumulates s t := by
  cases h with
  | checks _ _ _ _ _ _ _ u hu => exact hu
  | _ => exact .refl s

/-- A key slot that was written stays valid (10_state.md R38). -/
theorem Changes.keeps_keyValid (k : KeySlot) (hk : keyValid s k = true) : keyValid t k = true := by
  cases h with
  | sharedKey | privateKey | codeKey | addrKey => cases k <;> trivial
  | record => cases k <;> rfl
  | _ => cases k <;> exact hk

/-- HALTED is set only under Break, by a command that completes (60_exceptions.md R285). -/
theorem Changes.halts (hs : s.halted = false) (ht : t.halted = true) :
    t.events.getLsbD 4 = true ∧ t.status.toNat % 256 = 0 := by
  cases h with
  | checks _ _ _ _ _ _ _ _ _ _ hb => exact hb ht
  | resume => cases ht
  | _ => exact absurd ht (Bool.eq_false_iff.mp hs)

theorem Changes.leaves_halt (hs : s.halted = true) (ht : t.halted = false) : i = .resume := by
  cases h with
  | checks _ _ hs' => exact absurd hs (Bool.eq_false_iff.mp hs')
  | resume hi => exact hi
  | _ => exact absurd hs (Bool.eq_false_iff.mp ht)

end

/-- Settles O18, one lemma about `Changes` for each clause. -/
theorem commandFrames : Obligations.CommandFrames := by
  intro i s t ht
  have h := (exec_leaves ht).changes
  refine ⟨h.keeps_operands, h.keeps_contextWords, h.keeps_sharedKey, h.keeps_privateKey, h.keeps_codeKey,
    h.keeps_addrKey, h.keeps_dbuf, fun hc => ?_, fun hi => ?_⟩
  · obtain ⟨hev, hcause, haddr, hptr⟩ := h.keeps_events hc
    exact ⟨h.keeps_icv hc, hev, hcause, haddr, hptr, h.keeps_halted hc⟩
  · simp only [List.mem_cons, List.not_mem_nil, or_false, not_or] at hi
    refine h.keeps_tweakCache ?_ ?_ ?_ <;> simp [usesCipher, hi]

/-- Settles O19, one lemma about `Changes` for each clause. -/
theorem commandsOnlyAccumulate : Obligations.CommandsOnlyAccumulate := by
  intro i s t ht
  have h := (exec_leaves ht).changes
  obtain ⟨hevents, hfault⟩ := h.accumulates
  exact ⟨hevents, h.keeps_keyValid, hfault, h.halts, h.leaves_halt⟩

end Sys2Proof.Machine

/-! SUPPORT. The tweak cache is invisible: every operation takes states that differ in the cache alone to such states
(10_state.md R40, 20_memory.md R75). -/

namespace Sys2Proof.Machine

/-- `s'` differs from `s` in the tweak cache alone. -/
def AlikeButCache (s s' : State) : Prop :=
  ∃ v tw rtk, s' = { s with tcValid := v, tcTweak := tw, tcRtk := rtk }

theorem AlikeButCache.refl (s : State) : AlikeButCache s s :=
  ⟨s.tcValid, s.tcTweak, s.tcRtk, rfl⟩

theorem AlikeButCache.ite {p : Prop} [Decidable p] {t t' u u' : State} (ht : AlikeButCache t t') (hu : AlikeButCache u u') :
    AlikeButCache (if p then t else u) (if p then t' else u') := by
  split
  · exact ht
  · exact hu

section
variable {s s' t t' : State} (h : AlikeButCache s s')
include h

theorem AlikeButCache.complete (x y : Word) (f : StatusFlags) : AlikeButCache (complete s x y f) (complete s' x y f) := by
  obtain ⟨v, tw, rtk, rfl⟩ := h
  exact ⟨v, tw, rtk, rfl⟩

theorem AlikeButCache.refuse (c : Code) : AlikeButCache (refuse s c) (refuse s' c) := by
  obtain ⟨v, tw, rtk, rfl⟩ := h
  exact ⟨v, tw, rtk, rfl⟩

theorem AlikeButCache.setEvent (k : Nat) : AlikeButCache (setEvent s k) (setEvent s' k) := by
  obtain ⟨v, tw, rtk, rfl⟩ := h
  exact ⟨v, tw, rtk, rfl⟩

theorem AlikeButCache.memWrite (off : Nat) (bs : List Byte) : AlikeButCache (memWrite s off bs) (memWrite s' off bs) := by
  obtain ⟨v, tw, rtk, rfl⟩ := h
  exact ⟨v, tw, rtk, rfl⟩

theorem AlikeButCache.icvWrite (i : Nat) (e : Word) : AlikeButCache (icvWrite s i e) (icvWrite s' i e) := by
  obtain ⟨v, tw, rtk, rfl⟩ := h
  exact ⟨v, tw, rtk, rfl⟩

theorem AlikeButCache.haltIf (b : Bool) : AlikeButCache (haltIf b s) (haltIf b s') := by
  obtain ⟨v, tw, rtk, rfl⟩ := h
  cases b <;> exact ⟨v, tw, rtk, rfl⟩

theorem AlikeButCache.latchFault (c : Violation) (g x : Word) : AlikeButCache (latchFault s c g x) (latchFault s' c g x) := by
  obtain ⟨v, tw, rtk, rfl⟩ := h
  exact .ite ⟨v, tw, rtk, rfl⟩ ⟨v, tw, rtk, rfl⟩

theorem AlikeButCache.report (c : Violation) (g x : Word) : AlikeButCache (report s c g x).1 (report s' c g x).1 := by
  have hp : policyFor s' c = policyFor s c := by
    obtain ⟨v, tw, rtk, rfl⟩ := h
    cases c <;> rfl
  have hclass := h.setEvent (violationClass c - 1)
  have hlatch := (hclass.setEvent 3).latchFault c g x
  rw [Machine.report, Machine.report, hp]
  cases policyFor s c with
  | ignore => exact h
  | warn => exact hclass
  | fault => exact hlatch
  | brk => exact hlatch.setEvent 4

omit h in
theorem AlikeButCache.reportAll {s s' : State} (h : AlikeButCache s s') (rs : List Report) :
    AlikeButCache (reportAll s rs) (reportAll s' rs) := by
  induction rs generalizing s s' with
  | nil => exact h
  | cons r rs ih => exact ih (h.report _ _ _)

/-- A check that reads HALTED alone: the command that follows it decides. -/
theorem AlikeButCache.unlessHalted (ht : AlikeButCache t t') : AlikeButCache (unlessHalted s t) (unlessHalted s' t') := by
  have hr := h.refuse .errHalted
  obtain ⟨v, tw, rtk, rfl⟩ := h
  exact .ite hr ht

theorem AlikeButCache.needKey (k : KeySlot) (ht : AlikeButCache t t') : AlikeButCache (needKey s k t) (needKey s' k t') := by
  have hr := h.refuse .errNokey
  obtain ⟨v, tw, rtk, rfl⟩ := h
  cases k <;> exact .ite ht hr

theorem AlikeButCache.ifIcvFits (c : Config) (ht : AlikeButCache t t') : AlikeButCache (ifIcvFits c s t) (ifIcvFits c s' t') := by
  have hr := h.refuse .errIcvFull
  obtain ⟨v, tw, rtk, rfl⟩ := ht
  exact .ite hr ⟨v, tw, rtk, rfl⟩

theorem AlikeButCache.loadKeySlot (k : KeySlot) : AlikeButCache (loadKeySlot s k) (loadKeySlot s' k) := by
  obtain ⟨v, tw, rtk, rfl⟩ := h
  cases k with
  | addrKey => exact ⟨false, tw, rtk, rfl⟩
  | _ => exact ⟨v, tw, rtk, rfl⟩

theorem AlikeButCache.loadRecord : AlikeButCache (loadRecord s) (loadRecord s') := by
  obtain ⟨v, tw, rtk, rfl⟩ := h
  exact ⟨false, tw, rtk, rfl⟩

theorem AlikeButCache.leaveHalt : AlikeButCache (leaveHalt s) (leaveHalt s') := by
  obtain ⟨v, tw, rtk, rfl⟩ := h
  exact ⟨v, tw, rtk, rfl⟩

theorem AlikeButCache.granuleStep (i : Nat) (x : Word) (kind : AccessKind) :
    AlikeButCache (granuleStep s i x kind).st (granuleStep s' i x kind).st ∧
      (granuleStep s' i x kind).brk = (granuleStep s i x kind).brk ∧
      (granuleStep s' i x kind).mismatch = (granuleStep s i x kind).mismatch ∧
      (granuleStep s' i x kind).uninit = (granuleStep s i x kind).uninit := by
  have hreports := h.reportAll (reportsAt s i x kind)
  have hstored := hreports.icvWrite i (refresh (icvRead s i) x kind)
  obtain ⟨v, tw, rtk, rfl⟩ := h
  rw [granuleStep_eq, granuleStep_eq]
  exact ⟨.ite hstored hreports, rfl, rfl, rfl⟩

omit h in
theorem AlikeButCache.granuleSteps {s s' : State} (h : AlikeButCache s s') (i : Nat) (p : Word) (kind : AccessKind) (n : Nat) :
    AlikeButCache (granuleSteps s i p kind n).st (granuleSteps s' i p kind n).st ∧
      (granuleSteps s' i p kind n).brk = (granuleSteps s i p kind n).brk ∧
      (granuleSteps s' i p kind n).bits = (granuleSteps s i p kind n).bits := by
  induction n generalizing s s' i p with
  | zero => exact ⟨h, rfl, rfl⟩
  | succ n ih =>
    obtain ⟨hst, hbrk, hmiss, huninit⟩ := h.granuleStep i p kind
    obtain ⟨hst', hbrk', hbits'⟩ := ih hst (i + 1) (p + 8)
    refine ⟨hst', ?_, ?_⟩
    · simp only [Machine.granuleSteps, hbrk, hbrk']
    · simp only [Machine.granuleSteps, hmiss, huninit, hbits']

theorem AlikeButCache.storeEntry (c : Config) (i : Nat) (e : Word) : AlikeButCache (storeEntry c s i e) (storeEntry c s' i e) :=
  h.unlessHalted (h.ifIcvFits c ((h.icvWrite i e).complete 0 0 {}))

/-- Two coherent caches give the same sub-tweaks, and one cache is left (43_tweak_cipher.md R157). -/
theorem AlikeButCache.fillCache_eq (hc : CacheCoherent s) (hc' : CacheCoherent s') (tw : Word) :
    fillCache Config.hw.tbc s (usedTweak tw) = fillCache Config.hw.tbc s' (usedTweak tw) := by
  rw [fillCache_hw hc, fillCache_hw hc']
  obtain ⟨v, tw', rtk, rfl⟩ := h
  rfl

/-- A command that evaluates Enc works on its block and the filled cache alone. -/
theorem AlikeButCache.encrypting (hc : CacheCoherent s) (hc' : CacheCoherent s') (b : Block) (tw : Word) (r0 : Block → Word)
    (r1 : Word) :
    AlikeButCache
      (Machine.needKey s .addrKey
        (Machine.complete (encCached Config.hw.tbc s b tw).1 (r0 (encCached Config.hw.tbc s b tw).2) r1))
      (Machine.needKey s' .addrKey
        (Machine.complete (encCached Config.hw.tbc s' b tw).1 (r0 (encCached Config.hw.tbc s' b tw).2) r1)) := by
  have hfill : encCached Config.hw.tbc s b tw = encCached Config.hw.tbc s' b tw := by
    rw [encCached, encCached, h.fillCache_eq hc hc']
  rw [hfill]
  exact h.needKey .addrKey (.refl _)

/-- A command that evaluates Dec works on its block and the filled cache alone. -/
theorem AlikeButCache.decrypting (hc : CacheCoherent s) (hc' : CacheCoherent s') (b : Block) (tw : Word) (r0 : Block → Word)
    (r1 : Word) :
    AlikeButCache
      (Machine.needKey s .addrKey
        (Machine.complete (decCached Config.hw.tbc s b tw).1 (r0 (decCached Config.hw.tbc s b tw).2) r1))
      (Machine.needKey s' .addrKey
        (Machine.complete (decCached Config.hw.tbc s' b tw).1 (r0 (decCached Config.hw.tbc s' b tw).2) r1)) := by
  have hfill : decCached Config.hw.tbc s b tw = decCached Config.hw.tbc s' b tw := by
    rw [decCached, decCached, h.fillCache_eq hc hc']
  rw [hfill]
  exact h.needKey .addrKey (.refl _)

end

/-- Every command takes two states that differ in a coherent cache alone to two states that differ in the cache alone. -/
theorem exec_alike {i : Instr} {s t t' : State} {v : Bool} {tw : Tweak} {rtk : Vector Block 12} (hc : CacheCoherent s)
    (hc' : CacheCoherent { s with tcValid := v, tcTweak := tw, tcRtk := rtk }) (ht : exec i s = .next t)
    (ht' : exec i { s with tcValid := v, tcTweak := tw, tcRtk := rtk } = .next t') : AlikeButCache t t' := by
  have h : AlikeButCache s { s with tcValid := v, tcTweak := tw, tcRtk := rtk } := ⟨v, tw, rtk, rfl⟩
  cases i
  all_goals
    obtain rfl := Host.Outcome.next.inj ht
    obtain rfl := Host.Outcome.next.inj ht'
  case prfStream k =>
    refine h.unlessHalted ?_
    cases k with
    | addrKey => exact h.refuse _
    | _ => exact h.needKey _ (h.complete _ _ _)
  case dataMask k =>
    refine h.unlessHalted ?_
    cases k with
    | addrKey => exact h.refuse _
    | _ => exact .ite (h.refuse _) (h.needKey _ ((h.memWrite _ _).complete _ _ _))
  case tbcEnc => exact h.unlessHalted (h.encrypting hc hc' _ _ (·.setWidth 64) 0)
  case tbcDec => exact h.unlessHalted (h.decrypting hc hc' _ _ (·.setWidth 64) 0)
  case ptrEncrypt => exact h.unlessHalted (h.encrypting hc hc' _ _ (withCtField s.a0) 0)
  case ptrEncode => exact h.unlessHalted (h.encrypting hc hc' _ _ (withCtField (decorate s.a0 (mdOperand s))) 0)
  case ptrDecrypt => exact h.unlessHalted (h.decrypting hc hc' _ _ (withCtField s.a0) 0)
  case ptrDecode => exact h.unlessHalted (h.decrypting hc hc' _ _ (fun b => undecorate (withCtField s.a0 b)) 0)
  case ptrDecodeIf =>
    exact h.unlessHalted (.ite (h.decrypting hc hc' _ _ (fun b => undecorate (withCtField s.a0 b)) 1) (h.complete _ _ _))
  case icvSet | icvInit | icvPreinit | icvInvalidate => exact h.storeEntry _ _ _
  case icvCheckOrSet kind =>
    obtain ⟨hst, hbrk, hmiss, huninit⟩ := h.granuleStep (granuleIndex s.a0) s.a1 kind
    refine h.unlessHalted (h.ifIcvFits _ ?_)
    dsimp only
    rw [hbrk, hmiss, huninit]
    exact (hst.complete _ _ _).haltIf _
  case icvAccess kind =>
    obtain ⟨hst, hbrk, hbits⟩ := h.granuleSteps (granuleIndex s.a0) s.a1 kind (granuleCount s.a0 s.a2)
    refine h.unlessHalted (.ite (h.refuse _) (h.ifIcvFits _ ?_))
    dsimp only
    rw [hbrk, hbits]
    exact (AlikeButCache.complete (.ite (hst.setEvent 2) hst) _ _ _).haltIf _
  case keySet k => exact h.unlessHalted ((h.loadKeySlot k).complete _ _ _)
  case ctxSave => exact h.unlessHalted ((h.memWrite _ _).complete _ _ _)
  case ctxLoad => exact h.unlessHalted (h.loadRecord.complete _ _ _)
  case resume => exact h.leaveHalt.complete _ _ _
  case classify =>
    refine h.unlessHalted ?_
    dsimp only
    split
    · exact h.complete _ _ _
    · exact h.complete _ _ _
  all_goals exact h.unlessHalted (h.complete _ _ _)

/-- Settles O20: whatever the command, the two runs stay alike but for the cache. -/
theorem tweakCacheIsTransparent : Obligations.TweakCacheIsTransparent := by
  intro i s t t' v tw rtk hc hc' ht ht'
  obtain ⟨_, _, _, rfl⟩ := exec_alike hc hc' ht ht'
  rfl

end Sys2Proof.Machine

/-! SUPPORT. The host port: how an input is taken, and the register window by offset (20_memory.md R60 to R66). -/

namespace Sys2Proof.Machine

/-! ### Taking an input -/

/-- A malformed transaction (20_memory.md R63). -/
theorem malformedOffset_iff {off : Nat} : malformedOffset off = true ↔ off % 8 ≠ 0 ∨ 0x200 ≤ off := by
  simp [malformedOffset]

/-- A transaction that meets the window (20_memory.md R60). -/
theorem malformedOffset_eq_false {off : Nat} (h8 : off % 8 = 0) (hlt : off < 0x200) : malformedOffset off = false := by
  rw [Bool.eq_false_iff, Ne, malformedOffset_iff]
  omega

theorem step_idle {s : State} (h : s.port = []) : step s = .next s := by
  rw [step, portStep, h]

/-- A step takes the oldest input (20_memory.md R66). -/
theorem step_port_cons (s : State) (t : Input) (rest : List Input) :
    step { s with port := t :: rest } = takeInput { s with port := rest } t := rfl

theorem hostRead_malformed {off : Nat} (h : malformedOffset off = true) (s : State) :
    hostRead s off = { setEvent s 5 with hostData := 0 } := by
  rw [hostRead, if_pos h]

theorem hostRead_window {off : Nat} (h8 : off % 8 = 0) (hlt : off < 0x200) (s : State) :
    hostRead s off = { s with hostData := windowRead s off } := by
  simp [hostRead, malformedOffset_eq_false h8 hlt]

theorem hostWrite_malformed {off : Nat} (h : malformedOffset off = true) (s : State) (v : Word) :
    hostWrite s off v = .next (setEvent s 5) := by
  rw [hostWrite, if_pos h]

theorem hostWrite_window {off : Nat} (h8 : off % 8 = 0) (hlt : off < 0x200) (h0 : off ≠ 0) (s : State) (v : Word) :
    hostWrite s off v = .next (windowWrite s off v) := by
  simp [hostWrite, malformedOffset_eq_false h8 hlt, h0]

/-- A write of CMD runs the command its word decodes to (20_memory.md R61). -/
theorem hostWrite_command {w : Word} {i : Instr} (h : decode w = .ok i) (s : State) : hostWrite s 0x000 w = exec i s := by
  have hissue : hostWrite s 0x000 w = issueCommand s w := rfl
  rw [hissue, issueCommand, h]

/-- The decoder takes each encoding back to its command (30_encoding.md R88): the table is searched on concrete words. -/
theorem decode_encode (i : Instr) : decode (encode i) = .ok i := by
  cases i with
  | prfStream k | dataMask k | keySet k => cases k <;> rfl
  | icvCheckOrSet kind | icvAccess kind => cases kind <;> rfl
  | _ => rfl

theorem withFetchWord_encode (s : State) (i : Instr) :
    s.withFetchWord 64 (encode i).toNat = { s with port := .hwrite 0x000 (encode i) :: s.port } := by
  rw [State.withFetchWord, Nat.mod_eq_of_lt (encode i).isLt, BitVec.ofNat_toNat, BitVec.setWidth_eq, issueNext]

/-- Settles O4: the step takes the write of CMD, and the word of a command decodes to it. -/
theorem stepRunsDecodedCommand : Obligations.StepRunsDecodedCommand := by
  refine ⟨fun s rest w i h => hostWrite_command h _, fun s i => ?_⟩
  rw [withFetchWord_encode, step_port_cons]
  exact hostWrite_command (decode_encode i) s

/-- Settles O12, input by input. -/
theorem inputsAreSteps : Obligations.InputsAreSteps := by
  refine ⟨fun s => step_idle, fun s rest off h8 hlt => ?_, fun s rest off v h8 hlt h0 => ?_, fun s rest => rfl⟩
  · rw [step_port_cons, takeInput, hostRead_window h8 hlt]
  · rw [step_port_cons, takeInput, hostWrite_window h8 hlt h0]

/-- Settles O13: bit 5 of EVENTS is 32. -/
theorem malformedTransactions : Obligations.MalformedTransactions := by
  intro s rest off h
  have hm := malformedOffset_iff.mpr h
  refine ⟨?_, fun v => ?_⟩
  · rw [step_port_cons, takeInput, hostRead_malformed hm]
    rfl
  · rw [step_port_cons, takeInput, hostWrite_malformed hm]
    rfl

/-! ### The window, read side -/

/-- Past the registers a read returns a DBUF word, or 0 (20_memory.md R61). -/
theorem windowRead_past_registers (s : State) {off : Nat} (h : off = 0 ∨ 0x088 ≤ off) :
    windowRead s off = if 0x100 ≤ off ∧ off < 0x180 then dbufWord s ((off - 0x100) / 8) else 0 := by
  unfold windowRead
  split
  case h_17 => rfl
  all_goals omega

theorem windowRead_reserved (s : State) {off : Nat}
    (h : off = 0 ∨ (0x088 ≤ off ∧ off ≤ 0x0F8) ∨ (0x180 ≤ off ∧ off ≤ 0x1F8)) : windowRead s off = 0 := by
  rw [windowRead_past_registers s (by omega), if_neg (by omega)]

theorem windowRead_dbuf (s : State) {k : Nat} (hk : k < 16) : windowRead s (0x100 + 8 * k) = dbufWord s k := by
  rw [windowRead_past_registers s (by omega), if_pos (by omega), show (0x100 + 8 * k - 0x100) / 8 = k by omega]

/-- Byte j of a DBUF word is the byte of DBUF it stands for (20_memory.md R61). -/
theorem byteOf_dbufWord (s : State) (k : Nat) {j : Nat} (hj : j < 8) : byteOf j (dbufWord s k) = cellsRead s.dbuf (8 * k + j) := by
  rw [dbufWord, byteOf_le64 _ hj]
  simp [memRead, hj]

/-- STATUS as a number: HALTED stands above the 63 stored bits (10_state.md R28). -/
theorem toNat_statusReg (s : State) : (statusReg s).toNat = s.status.toNat + (if s.halted = true then 2 ^ 63 else 0) := by
  have hlt := s.status.isLt
  rw [statusReg, BitVec.toNat_append, ← Nat.shiftLeft_add_eq_or_of_lt hlt]
  cases s.halted <;> simp [Nat.add_comm]

/-- Settles O14: the registers by their arms of the window, then the reserved offsets and DBUF. -/
theorem windowReads : Obligations.WindowReads := by
  intro s
  refine ⟨toNat_statusReg s, rfl, rfl, rfl, rfl, rfl, rfl, rfl, rfl, rfl, rfl, rfl, rfl, rfl, rfl, rfl, ?_, ?_⟩
  · intro off _ h
    exact windowRead_reserved s h
  · intro k j hk hj
    rw [windowRead_dbuf s hk]
    exact byteOf_dbufWord s k hj

/-! ### The window, write side -/

/-- Where no register is written a write goes to a DBUF word, or is ignored (20_memory.md R61). -/
theorem windowWrite_past_registers (s : State) (v : Word) {off : Nat}
    (h : off = 0x008 ∨ off = 0x030 ∨ off = 0x038 ∨ 0x068 ≤ off) :
    windowWrite s off v =
      if 0x100 ≤ off ∧ off < 0x180 then memWrite s (8 * ((off - 0x100) / 8)) (leBytes v) else s := by
  unfold windowWrite
  split
  case h_10 => rfl
  all_goals omega

theorem hostWrite_ignored (s : State) (v : Word) {off : Nat} (h8 : off % 8 = 0)
    (h : off = 0x008 ∨ off = 0x030 ∨ off = 0x038 ∨ (0x068 ≤ off ∧ off ≤ 0x0F8) ∨ (0x180 ≤ off ∧ off ≤ 0x1F8)) :
    hostWrite s off v = .next s := by
  rw [hostWrite_window h8 (by omega) (by omega), windowWrite_past_registers s v (by omega), if_neg (by omega)]

theorem hostWrite_dbuf (s : State) (v : Word) {k : Nat} (hk : k < 16) :
    hostWrite s (0x100 + 8 * k) v = .next (memWrite s (8 * k) (leBytes v)) := by
  rw [hostWrite_window (by omega) (by omega) (by omega), windowWrite_past_registers s v (by omega), if_pos (by omega),
    show (0x100 + 8 * k - 0x100) / 8 = k by omega]

/-- A DBUF word written changes exactly its eight bytes (20_memory.md R61). -/
theorem cellsRead_memWrite_word {s : State} (h : Memory.wf s.dbuf = true) (v : Word) {k : Nat} (hk : k < 16) (a : Nat) :
    cellsRead (memWrite s (8 * k) (leBytes v)).dbuf a =
      if 8 * k ≤ a ∧ a < 8 * k + 8 then byteOf (a - 8 * k) v else cellsRead s.dbuf a := by
  have hlen := leBytes_length v
  rw [memWrite, cellsRead_writeBytes (n := 128) _ h (by omega), hlen]
  split
  · rw [getD_leBytes v (by omega)]
  · rfl

/-- ICV_CTRL keeps its low six bits (10_state.md R31). -/
theorem icvCtrl_field (v : Word) : (v.extractLsb 5 0).setWidth 64 = BitVec.ofNat 64 (v.toNat % 64) := by
  apply BitVec.eq_of_toNat_eq
  simp

/-- A write of EVENTS, with bit 3 of the word as a number (60_exceptions.md R287). -/
theorem ackEvents_eq (s : State) (v : Word) :
    ackEvents s v =
      if v.toNat / 8 % 2 = 1 then { s with events := s.events &&& ~~~v, faultCause := 0, faultGaddr := 0, faultPtr := 0 }
      else { s with events := s.events &&& ~~~v } := by
  have hbit : v.getLsbD 3 = true ↔ v.toNat / 8 % 2 = 1 := by
    simp [BitVec.getLsbD, Nat.testBit_eq_decide_div_mod_eq]
  split
  case isTrue h => exact ackEvents_clearing (hbit.mpr h)
  case isFalse h => exact ackEvents_keeping (Bool.eq_false_iff.mpr (mt hbit.mp h))

/-- Settles O15: the registers by their arms of the window, then EVENTS, the ignored offsets and DBUF. -/
theorem windowWrites : Obligations.WindowWrites := by
  intro s v
  refine ⟨fun i h => hostWrite_command h s, rfl, rfl, rfl, rfl, rfl, rfl, rfl, ?_, ?_,
    fun off h8 h => hostWrite_ignored s v h8 h, ?_⟩
  · rw [← icvCtrl_field]
    rfl
  · refine ⟨s.events &&& ~~~v, fun b hb => by simp [hb], ?_⟩
    rw [← ackEvents_eq]
    rfl
  · intro k hk hwf
    have hlen := leBytes_length v
    exact ⟨_, memWrite_wf _ hwf (by omega), cellsRead_memWrite_word hwf v hk, hostWrite_dbuf s v hk⟩

end Sys2Proof.Machine

/-! SUPPORT. The decoder and the encoder of command words: the opcode table row by row, and a word by its four fields
(30_encoding.md R80, R81, R85). -/

namespace Sys2Proof.Machine

/-! ### The fields of a command word -/

/-- A word is its opcode, KSEL, AK and reserved fields (30_encoding.md R80). -/
theorem word_ext_fields {x y : Word} (hopc : x.extractLsb 7 0 = y.extractLsb 7 0) (hksel : x.extractLsb 9 8 = y.extractLsb 9 8)
    (hak : x.extractLsb 10 10 = y.extractLsb 10 10) (hhigh : x.extractLsb 63 11 = y.extractLsb 63 11) : x = y := by
  rw [BitVec.toNat_eq] at *
  simp only [toNat_extractLsb] at *
  have hx := x.isLt
  have hy := y.isLt
  omega

/-- What the encoder puts into each field of a command word (30_encoding.md R80, R81). -/
theorem encode_fields (i : Instr) : Laws.EncodedFields.Statement i := by
  cases i with
  | prfStream k => exact Laws.EncodedFields.prfStream k
  | dataMask k => exact Laws.EncodedFields.dataMask k
  | keySet k => exact Laws.EncodedFields.keySet k
  | icvCheckOrSet kind => exact Laws.EncodedFields.icvCheckOrSet kind
  | icvAccess kind => exact Laws.EncodedFields.icvAccess kind
  | _ => exact ⟨rfl, rfl, rfl, rfl⟩

theorem kselBits_kselOfBits (b : BitVec 2) : kselBits (kselOfBits b) = b := by
  revert b
  decide

theorem akBit_akOfBit (b : BitVec 1) : akBit (akOfBit b) = b := by
  revert b
  decide

/-! ### The opcode table -/

/-- A row's command has the row's opcode, and carries KSEL and AK exactly where the row uses them (30_encoding.md R85). -/
theorem command_fields {r : OpcodeRow} (hr : r ∈ opcodeRows) (k : KeySlot) (kind : AccessKind) :
    opcodeOf (r.command k kind) = r.opc ∧ kselOf (r.command k kind) = (if r.uses = .ksel then kselBits k else 0) ∧
      akOf (r.command k kind) = (if r.uses = .ak then akBit kind else 0) := by
  revert r
  simp [opcodeRows, opcodeOf, kselOf, akOf]

/-- The rows that use KSEL: PRF_STREAM, DATA_MASK and KEY_SET (30_encoding.md R85). -/
theorem uses_ksel_iff {r : OpcodeRow} (hr : r ∈ opcodeRows) :
    r.uses = .ksel ↔ r.opc.toNat = 0x38 ∨ r.opc.toNat = 0x50 ∨ r.opc.toNat = 0x70 := by
  revert r
  simp [opcodeRows]

/-- The rows that use AK: ICV_CHECK_OR_SET and ICV_ACCESS (30_encoding.md R85). -/
theorem uses_ak_iff {r : OpcodeRow} (hr : r ∈ opcodeRows) : r.uses = .ak ↔ r.opc.toNat = 0x62 ∨ r.opc.toNat = 0x67 := by
  revert r
  simp [opcodeRows]

theorem opcodeRow_eq_some {opc : BitVec 8} {r : OpcodeRow} (h : opcodeRow opc = some r) : r ∈ opcodeRows ∧ r.opc = opc :=
  ⟨List.mem_of_find?_eq_some h, by simpa using List.find?_some h⟩

/-- The opcodes of the table, as ranges (30_encoding.md R85, R87). -/
theorem opcodeRow_eq_none_iff (opc : BitVec 8) :
    opcodeRow opc = none ↔ ¬(opc.toNat = 0 ∨ (0x10 ≤ opc.toNat ∧ opc.toNat ≤ 0x1D) ∨ opc.toNat = 0x20 ∨ opc.toNat = 0x30 ∨
      opc.toNat = 0x31 ∨ opc.toNat = 0x38 ∨ (0x40 ≤ opc.toNat ∧ opc.toNat ≤ 0x46) ∨ opc.toNat = 0x50 ∨
      (0x60 ≤ opc.toNat ∧ opc.toNat ≤ 0x67) ∨ (0x70 ≤ opc.toNat ∧ opc.toNat ≤ 0x73)) := by
  rw [opcodeRow, List.find?_eq_none]
  simp [opcodeRows, BitVec.toNat_eq]
  omega

/-! ### The decoder -/

/-- The decoder's reserved check: bits 63:11, KSEL or AK are not zero where the row does not use them (30_encoding.md R81 steps 2, 3). -/
def ReservedBitsSet (r : OpcodeRow) (w : Word) : Prop :=
  w.extractLsb 63 11 ≠ 0 ∨ (w.extractLsb 9 8 ≠ 0 ∧ r.uses ≠ .ksel) ∨ (w.extractLsb 10 10 ≠ 0 ∧ r.uses ≠ .ak)

theorem decode_unknown {w : Word} (h : opcodeRow (w.extractLsb 7 0) = none) : decode w = .error .opcode := by
  rw [decode, h]

theorem decode_reserved {w : Word} {r : OpcodeRow} (h : opcodeRow (w.extractLsb 7 0) = some r) (hr : ReservedBitsSet r w) :
    decode w = .error .reserved := by
  rw [decode, h]
  dsimp only
  split
  · rfl
  · next hhigh => rw [if_pos (hr.resolve_left hhigh)]

theorem decode_accepted {w : Word} {r : OpcodeRow} (h : opcodeRow (w.extractLsb 7 0) = some r) (hr : ¬ReservedBitsSet r w) :
    decode w = .ok (r.command (kselOfBits (w.extractLsb 9 8)) (akOfBit (w.extractLsb 10 10))) := by
  obtain ⟨hhigh, hfield⟩ := not_or.mp hr
  rw [decode, h]
  dsimp only
  rw [if_neg hhigh, if_neg hfield]

/-- What the decoder can answer (30_encoding.md R81 steps 1 to 3). -/
theorem decode_cases (w : Word) :
    (opcodeRow (w.extractLsb 7 0) = none ∧ decode w = .error .opcode) ∨
      (∃ r, opcodeRow (w.extractLsb 7 0) = some r ∧ ReservedBitsSet r w ∧ decode w = .error .reserved) ∨
      ∃ r, opcodeRow (w.extractLsb 7 0) = some r ∧ ¬ReservedBitsSet r w ∧
        decode w = .ok (r.command (kselOfBits (w.extractLsb 9 8)) (akOfBit (w.extractLsb 10 10))) := by
  cases h : opcodeRow (w.extractLsb 7 0) with
  | none => exact .inl ⟨rfl, decode_unknown h⟩
  | some r =>
    by_cases hr : ReservedBitsSet r w
    · exact .inr (.inl ⟨r, rfl, hr, decode_reserved h hr⟩)
    · exact .inr (.inr ⟨r, rfl, hr, decode_accepted h hr⟩)

/-- A field that is zero where it is not used is the field the row's command carries. -/
theorem ite_eq_of_unused {p : Prop} [Decidable p] {n : Nat} {b : BitVec n} (h : ¬(b ≠ 0 ∧ ¬p)) : (if p then b else 0) = b :=
  ite_eq_left_iff.mpr fun hp => not_not.mp fun hb => h ⟨Ne.symm hb, hp⟩

/-- An accepted word is the word of its command (30_encoding.md R88): field by field, as the row uses it. -/
theorem encode_of_decode {w : Word} {i : Instr} (h : decode w = .ok i) : encode i = w := by
  rcases decode_cases w with ⟨_, e⟩ | ⟨_, _, _, e⟩ | ⟨r, hrow, hfree, e⟩ <;> rw [e] at h
  · cases h
  · cases h
  · obtain rfl := Except.ok.inj h
    obtain ⟨hmem, hopc⟩ := opcodeRow_eq_some hrow
    obtain ⟨hhigh, hfield⟩ := not_or.mp hfree
    obtain ⟨hksel, hak⟩ := not_or.mp hfield
    obtain ⟨copc, cksel, cak⟩ := command_fields hmem (kselOfBits (w.extractLsb 9 8)) (akOfBit (w.extractLsb 10 10))
    obtain ⟨fopc, fksel, fak, fhigh⟩ := encode_fields (r.command (kselOfBits (w.extractLsb 9 8)) (akOfBit (w.extractLsb 10 10)))
    apply word_ext_fields
    · rw [fopc, copc, hopc]
    · rw [fksel, cksel, kselBits_kselOfBits, ite_eq_of_unused hksel]
    · rw [fak, cak, akBit_akOfBit, ite_eq_of_unused hak]
    · rw [fhigh, not_not.mp hhigh]

/-- Settles O1: the table searched on each encoding, and an accepted word rebuilt from its fields. -/
theorem decodeEncodeAgree : Obligations.DecodeEncodeAgree :=
  ⟨decode_encode, fun _ _ => encode_of_decode⟩

/-- Settles O2: each word is the encoding of its command. -/
theorem sampleWordsDecode : Obligations.SampleWordsDecode :=
  ⟨decode_encode .nop, decode_encode .caGetVersion, decode_encode .caSetVersion, decode_encode .classify, decode_encode .tbcDec,
    decode_encode (.prfStream .privateKey), decode_encode .ptrEncode, decode_encode (.dataMask .codeKey), decode_encode .icvPreinit,
    decode_encode (.icvCheckOrSet .read), decode_encode (.icvAccess .write), decode_encode (.keySet .addrKey), decode_encode .resume⟩

theorem toNat_opcodeField (w : Word) : (w.extractLsb 7 0).toNat = w.toNat % 256 := by
  simp

/-- The reserved check as arithmetic on the word (30_encoding.md R81 steps 2, 3). -/
theorem reservedBitsSet_iff {w : Word} {r : OpcodeRow} (h : opcodeRow (w.extractLsb 7 0) = some r) :
    ReservedBitsSet r w ↔ w.toNat / 2 ^ 11 ≠ 0 ∨
      (w.toNat / 2 ^ 8 % 4 ≠ 0 ∧ w.toNat % 256 ≠ 0x38 ∧ w.toNat % 256 ≠ 0x50 ∧ w.toNat % 256 ≠ 0x70) ∨
      (w.toNat / 2 ^ 10 % 2 ≠ 0 ∧ w.toNat % 256 ≠ 0x62 ∧ w.toNat % 256 ≠ 0x67) := by
  obtain ⟨hmem, hopc⟩ := opcodeRow_eq_some h
  have hlt := w.isLt
  have hhigh : w.toNat / 2 ^ 11 % 2 ^ 53 = w.toNat / 2 ^ 11 := Nat.mod_eq_of_lt (by omega)
  have hrow : r.opc.toNat = w.toNat % 256 := by rw [hopc, toNat_opcodeField]
  simp only [ReservedBitsSet, ne_eq, uses_ksel_iff hmem, uses_ak_iff hmem, hrow, not_or, BitVec.toNat_eq,
    toNat_extractLsb, hhigh]
  exact Iff.rfl

/-- Settles O3: the table's opcodes are the known ones, and the reserved check is the stated arithmetic. -/
theorem decoderRefusals : Obligations.DecoderRefusals := by
  intro w
  have hnone := opcodeRow_eq_none_iff (w.extractLsb 7 0)
  rw [toNat_opcodeField] at hnone
  dsimp only
  rcases decode_cases w with ⟨hrow, e⟩ | ⟨r, hrow, hr, e⟩ | ⟨r, hrow, hr, e⟩ <;> rw [e]
  · have hk := hnone.mp hrow
    exact ⟨iff_of_true rfl hk, iff_of_false (by simp) fun h => hk h.1⟩
  · have hk := not_not.mp (mt hnone.mpr (by simp [hrow]))
    exact ⟨iff_of_false (by simp) (not_not.mpr hk), iff_of_true rfl ⟨hk, (reservedBitsSet_iff hrow).mp hr⟩⟩
  · have hk := not_not.mp (mt hnone.mpr (by simp [hrow]))
    exact ⟨iff_of_false (by simp) (not_not.mpr hk), iff_of_false (by simp) fun h => hr ((reservedBitsSet_iff hrow).mpr h.2)⟩

/-! ### NOP and RESUME -/

/-- Settles O22: NOP runs past the check of HALTED, RESUME has none. -/
theorem nopAndResumeResults : Obligations.NopAndResumeResults := by
  refine ⟨decode_encode .nop, decode_encode .resume, fun s hs => ?_, fun s => ?_⟩
  · rw [exec, execNop, unlessHalted_running hs, complete_plain]
  · rw [exec, execResume, complete_plain, leaveHalt]

end Sys2Proof.Machine

/-! SUPPORT. Programs: lists of inputs taken one after the other, and the pseudo-instructions that expand to them
(30_encoding.md R95 to R97). -/

namespace Sys2Proof.Machine

/-! ### Lists of inputs -/

/-- A list that runs to t goes on from t with the rest (30_encoding.md R96). -/
theorem runInputs_append {s t : State} {ts : List Input} (h : runInputs s ts = .next t) (us : List Input) :
    runInputs s (ts ++ us) = runInputs t us := by
  induction ts generalizing s with
  | nil => rw [Host.Outcome.next.inj h, List.nil_append]
  | cons x ts ih =>
    rw [runInputs] at h
    rw [List.cons_append, runInputs]
    cases hx : takeInput s x with
    | next u =>
      rw [hx] at h
      exact ih h
    | fault f | refused r =>
      rw [hx] at h
      cases h

theorem runInputs_singleton (s : State) (x : Input) : runInputs s [x] = takeInput s x := by
  rw [runInputs]
  cases takeInput s x <;> rfl

/-! ### Commands with their operands -/

theorem runInputs_expandCommand (s : State) (i : Instr) : runInputs s (expandCommand i) = exec i s := by
  rw [expandCommand, runInputs_singleton, takeInput, hostWrite_command (decode_encode i)]

theorem runInputs_operandWrite_a0 (s : State) (v : Option Word) (ts : List Input) :
    runInputs s (operandWrite 0x010 v ++ ts) = runInputs { s with a0 := v.getD s.a0 } ts := by
  cases v <;> rfl

theorem runInputs_operandWrite_a1 (s : State) (v : Option Word) (ts : List Input) :
    runInputs s (operandWrite 0x018 v ++ ts) = runInputs { s with a1 := v.getD s.a1 } ts := by
  cases v <;> rfl

theorem runInputs_operandWrite_a2 (s : State) (v : Option Word) (ts : List Input) :
    runInputs s (operandWrite 0x020 v ++ ts) = runInputs { s with a2 := v.getD s.a2 } ts := by
  cases v <;> rfl

/-- A command line writes its operands and runs its command (30_encoding.md R95). -/
theorem runInputs_expandLine (s : State) (l : CommandLine) :
    runInputs s (expandLine l) = exec l.command { s with a0 := l.a0.getD s.a0, a1 := l.a1.getD s.a1, a2 := l.a2.getD s.a2 } := by
  rw [expandLine, List.append_assoc, List.append_assoc, runInputs_operandWrite_a0, runInputs_operandWrite_a1,
    runInputs_operandWrite_a2, runInputs_expandCommand]

/-! ### Loading DBUF -/

/-- The word that LDBUF writes to DBUF[k]: eight of the bytes, zeros where there are none (30_encoding.md R97). -/
def ldbufWord (bytes : List Byte) (k : Nat) : Word :=
  le64 ((bytes.drop (8 * k)).take 8)

theorem expandLdbuf_eq (bytes : List Byte) :
    expandLdbuf bytes = (List.range ((bytes.length + 7) / 8)).map fun k => .hwrite (0x100 + 8 * k) (ldbufWord bytes k) := rfl

theorem byteOf_ldbufWord (bytes : List Byte) (k : Nat) {j : Nat} (hj : j < 8) :
    byteOf j (ldbufWord bytes k) = bytes.getD (8 * k + j) 0 := by
  rw [ldbufWord, byteOf_le64 _ hj]
  simp [List.getD_eq_getElem?_getD, hj]

/-- The first n words of LDBUF, for as many words as DBUF has. -/
theorem runInputs_ldbufWords {s : State} (hwf : Memory.wf s.dbuf = true) (bytes : List Byte) {n : Nat} (hn : n ≤ 16) :
    ∃ d : Memory, Memory.wf d = true ∧ (∀ a, cellsRead d a = if a < 8 * n then bytes.getD a 0 else cellsRead s.dbuf a) ∧
      runInputs s ((List.range n).map fun k => .hwrite (0x100 + 8 * k) (ldbufWord bytes k)) = .next { s with dbuf := d } := by
  induction n with
  | zero => exact ⟨s.dbuf, hwf, fun a => rfl, rfl⟩
  | succ n ih =>
    obtain ⟨d, hd, hread, hrun⟩ := ih (by omega)
    have hlen := leBytes_length (ldbufWord bytes n)
    have hd' : Memory.wf { s with dbuf := d }.dbuf = true := hd
    refine ⟨(memWrite { s with dbuf := d } (8 * n) (leBytes (ldbufWord bytes n))).dbuf, memWrite_wf _ hd' (by omega),
      fun a => ?_, ?_⟩
    · rw [cellsRead_memWrite_word hd' _ (by omega)]
      by_cases hin : 8 * n ≤ a ∧ a < 8 * n + 8
      · rw [if_pos hin, byteOf_ldbufWord _ _ (by omega), if_pos (by omega), Nat.add_sub_cancel' hin.1]
      · rw [if_neg hin, hread]
        exact if_congr (by omega) rfl rfl
    · rw [List.range_succ, List.map_append, runInputs_append hrun, List.map_singleton, runInputs_singleton, takeInput,
        hostWrite_dbuf _ _ (by omega)]
      rfl

/-- Settles O59: transactions one after the other; LDBUF by induction on its words. -/
theorem pseudoInstructionEffects : Obligations.PseudoInstructionEffects := by
  refine ⟨runInputs_expandCommand, runInputs_expandLine, fun s mask => rfl, fun s bytes hwf hlen => ?_⟩
  obtain ⟨d, hd, hread, hrun⟩ := runInputs_ldbufWords hwf bytes (n := (bytes.length + 7) / 8) (by omega)
  refine ⟨d, hd, fun a => ?_, hrun, fun k => ?_⟩
  · rw [hread, Nat.mul_comm]
  · rw [expandPseudo, expandLdbuf_eq, runInputs_append hrun, runInputs_expandCommand]

/-! ### ENCODE -/

/-- NOT_BOXABLE is bit 8 of STATUS (10_state.md R28). -/
theorem statusWord_notBoxable (c : Code) (f : StatusFlags) : (statusWord c f).getLsbD 8 = f.notBoxable := by
  simp only [statusWord, BitVec.getLsbD_setWidth, BitVec.getLsbD_append]
  simp

/-- CLASSIFY of a range that no slot holds (42_slot_sizer.md R134). -/
theorem exec_classify_notBoxable {s : State} (hs : s.halted = false) (h : sizeClass Config.hw.mao s.a0 s.a1 = none) :
    exec .classify s = .next (complete s 0 0 { notBoxable := true }) := by
  rw [exec, execClassify, classifyUnder, unlessHalted_running hs, h]

/-- CLASSIFY of a range with a size class (42_slot_sizer.md R134). -/
theorem exec_classify_boxable {s : State} {sc : Nat} (hs : s.halted = false) (h : sizeClass Config.hw.mao s.a0 s.a1 = some sc) :
    exec .classify s = .next (complete s
      ((packMd (adjustOf Config.hw.specialSize (BitVec.ofNat 6 sc)) 0 (BitVec.ofNat 6 sc)).setWidth 64)
      (sizeBytes Config.hw.mao (BitVec.ofNat 6 sc))) := by
  rw [exec, execClassify, classifyUnder, unlessHalted_running hs, h]

/-- PTR_ENCODE where it is not refused: the uncached function of A0 and the metadata (45_pointer_codec.md R204). -/
theorem exec_ptrEncode {s : State} (hs : s.halted = false) (hk : s.validAddr = true) (hc : CacheCoherent s) :
    exec .ptrEncode s = .next (complete
      (holdingSchedule s (ptrTweak Config.hw.mao (decorate s.a0 (mdOperand s)) (mdSize (mdOperand s))))
      (encodePointer Config.hw s.ks s.a0 (mdOperand s)) 0) := by
  rw [exec, execPtrEncode, ptrEncodeUnder, unlessHalted_running hs, needKey_valid (k := .addrKey) hk, encryptPtrCached,
    encCached, fillCache_hw hc]
  rfl

/-- The metadata operand is A1 cut to 16 bits (30_encoding.md R84). -/
theorem mdOperand_eq (s : State) : mdOperand s = s.a1.setWidth 16 := by
  apply BitVec.eq_of_toNat_eq
  simp [mdOperand]

section
variable {s t : State} {a len : Word} (hrun : exec .classify { s with a0 := a, a1 := len } = .next t) (ver : Word)
include hrun

/-- ENCODE up to the host's decision: CLASSIFY's operands and command, then the read of R0 (30_encoding.md R97). -/
theorem runInputs_encodeFirst :
    runInputs s (expandLine { command := .classify, a0 := some a, a1 := some len } ++ [.hread 0x030]) =
      .next { t with hostData := t.r0 } := by
  rw [runInputs_append ((runInputs_expandLine ..).trans hrun), runInputs_singleton, takeInput, hostRead_window (by decide) (by decide)]
  rfl

theorem runEncode_notBoxable (hnb : t.status.getLsbD 8 = true) :
    runEncode s a len ver = .next ({ t with hostData := t.r0 }, a) := by
  rw [runEncode, runInputs_encodeFirst hrun]
  simp only [encodeSecond, hnb, if_true, runInputs]

theorem runEncode_boxable {u : State} (hnb : t.status.getLsbD 8 = false)
    (henc : exec .ptrEncode { t with hostData := t.r0, a0 := a, a1 := t.r0 ||| (ver <<< 6) } = .next u) :
    runEncode s a len ver = .next (u, u.r0) := by
  have hline : runInputs { t with hostData := t.r0 }
      (expandLine { command := .ptrEncode, a0 := some a, a1 := some (t.r0 ||| (ver <<< 6)) }) = .next u :=
    (runInputs_expandLine ..).trans henc
  rw [runEncode, runInputs_encodeFirst hrun]
  simp only [encodeSecond, hnb, Bool.false_eq_true, if_false, hline]

end

/-- Settles O60: the host's decision follows STATUS.NOT_BOXABLE, which CLASSIFY sets exactly where there is no size class. -/
theorem encodePseudoInstruction : Obligations.EncodePseudoInstruction := by
  intro s a len ver hs hk hc
  cases hsc : sizeClass Config.hw.mao a len with
  | none =>
    exact ⟨_, runEncode_notBoxable (exec_classify_notBoxable (s := { s with a0 := a, a1 := len }) hs hsc) ver
      (statusWord_notBoxable _ _)⟩
  | some sc =>
    have hclassify := exec_classify_boxable (s := { s with a0 := a, a1 := len }) hs hsc
    have hencode := runEncode_boxable hclassify ver (statusWord_notBoxable _ _) (exec_ptrEncode hs hk hc)
    rw [mdOperand_eq] at hencode
    exact ⟨_, hencode⟩

end Sys2Proof.Machine

/-! SUPPORT. The BitFieldCodec: fields of a word as numbers, the laws of `setf`, and the commands R100 to R113 (41_bitfield_codec.md). -/

namespace Sys2Proof.Machine

/-! ### Fields as numbers -/

/-- Two fields with the same bits are the same number. -/
theorem field_eq_of_bits {x y : Word} {a b n : Nat} (h : ∀ i, i < n → x.getLsbD (a + i) = y.getLsbD (b + i)) :
    x.toNat / 2 ^ a % 2 ^ n = y.toNat / 2 ^ b % 2 ^ n := by
  apply Nat.eq_of_testBit_eq
  intro i
  rw [Nat.testBit_mod_two_pow, Nat.testBit_mod_two_pow, Nat.testBit_div_two_pow, Nat.testBit_div_two_pow,
    Nat.add_comm i a, Nat.add_comm i b]
  by_cases hi : i < n
  · exact congrArg (decide (i < n) && ·) (h i hi)
  · simp [hi]

/-- A field zero-extended to a word (41_bitfield_codec.md R100 to R102, R106). -/
theorem setWidth_extractLsb (x : Word) (hi lo : Nat) :
    (x.extractLsb hi lo).setWidth 64 = BitVec.ofNat 64 (x.toNat / 2 ^ lo % 2 ^ (hi - lo + 1)) := by
  rw [← BitVec.ofNat_toNat, toNat_extractLsb]

/-- The two parts of the ciphertext field side by side are the bits 55:32 (41_bitfield_codec.md R101). -/
theorem ciphertext_parts (x : Word) :
    (x.extractLsb 46 32).setWidth 64 ||| (x.extractLsb 55 47).setWidth 64 <<< 15 = (x.extractLsb 55 32).setWidth 64 := by
  apply BitVec.eq_of_getLsbD_eq
  intro i hi
  simp only [BitVec.getLsbD_or, BitVec.getLsbD_shiftLeft, BitVec.getLsbD_setWidth, BitVec.getLsbD_extractLsb]
  by_cases hlow : i < 15
  · simp [hlow, hi, show i < 24 by omega]
  · rw [show 47 + (i - 15) = 32 + i by omega]
    by_cases hin : i < 24
    · simp [hlow, hi, hin, show i - 15 < 9 by omega, show i - 15 < 64 by omega]
    · simp [hlow, hin, show ¬i - 15 < 9 by omega]

theorem flagWord_decide (p : Prop) [Decidable p] : flagWord (decide p) = if p then 1 else 0 := by
  simp only [flagWord, decide_eq_true_eq]

/-- One bit of a word as a number (41_bitfield_codec.md R104, R105). -/
theorem flagWord_getLsbD (x : Word) (i : Nat) : flagWord (x.getLsbD i) = BitVec.ofNat 64 (x.toNat / 2 ^ i % 2) := by
  rw [BitVec.getLsbD, Nat.testBit_eq_decide_div_mod_eq, flagWord_decide]
  rcases Nat.mod_two_eq_zero_or_one (x.toNat / 2 ^ i) with h | h <;> rw [h] <;> rfl

/-- A canonical address has its bits 63:48 all zero or all one (41_bitfield_codec.md R117). -/
theorem isCanonical_eq (x : Word) : isCanonical x = decide (x.toNat / 2 ^ 48 = 0 ∨ x.toNat / 2 ^ 48 = 0xFFFF) := by
  have htop : (x.extractLsb 63 48).toNat = x.toNat / 2 ^ 48 :=
    (toNat_extractLsb x 63 48).trans (Nat.mod_eq_of_lt (by have := x.isLt; omega))
  rw [Bool.eq_iff_iff, isCanonical]
  simp only [Bool.or_eq_true, beq_iff_eq, decide_eq_true_eq, BitVec.toNat_eq, htop]
  exact Iff.rfl

theorem toNat_sizeOperand (s : State) : (sizeOperand s).toNat = s.a0.toNat % 64 := by
  simp [sizeOperand]

/-! ### The laws of setf -/

/-- A field inside the one that was set is the field of the value at the same place (41_bitfield_codec.md R119). -/
theorem field_setf (x v : Word) {hi lo lo' n : Nat} (hlo : lo ≤ lo') (hn : lo' + n ≤ hi + 1) (hhi : hi < 64) :
    (setf x hi lo v).toNat / 2 ^ lo' % 2 ^ n = v.toNat / 2 ^ (lo' - lo) % 2 ^ n := by
  refine field_eq_of_bits fun i hi' => ?_
  rw [getLsbD_setf (by omega) hhi (by omega), if_pos (by omega), Nat.sub_add_comm hlo]

/-- Setting a field to its own value changes nothing (41_bitfield_codec.md R119). -/
theorem setf_self (x : Word) {hi lo : Nat} (hlo : lo ≤ hi) (hhi : hi < 64) : setf x hi lo (x >>> lo) = x := by
  apply BitVec.eq_of_getLsbD_eq
  intro b hb
  rw [getLsbD_setf hlo hhi hb]
  by_cases hin : lo ≤ b ∧ b ≤ hi
  · rw [if_pos hin, BitVec.getLsbD_ushiftRight, Nat.add_sub_cancel' hin.1]
  · rw [if_neg hin]

/-- Two fields that do not overlap can be set in either order (41_bitfield_codec.md R119). -/
theorem setf_comm (x u v : Word) {hi lo hi' lo' : Nat} (hlo : lo ≤ hi) (hdisj : hi < lo') (hlo' : lo' ≤ hi') (hhi' : hi' < 64) :
    setf (setf x hi lo u) hi' lo' v = setf (setf x hi' lo' v) hi lo u := by
  have hhi : hi < 64 := by omega
  apply BitVec.eq_of_getLsbD_eq
  intro b hb
  rw [getLsbD_setf hlo' hhi' hb, getLsbD_setf hlo hhi hb, getLsbD_setf hlo hhi hb, getLsbD_setf hlo' hhi' hb]
  by_cases hupper : lo' ≤ b ∧ b ≤ hi'
  · rw [if_pos hupper, if_neg (by omega), if_pos hupper]
  · rw [if_neg hupper, if_neg hupper]

/-- A word whose enc_size was set to s is a CA exactly for s in 1 to 62 (41_bitfield_codec.md R119). -/
theorem isCa_setf_encSize (x v : Word) : isCa (setf x 61 56 v) = true ↔ 1 ≤ v.toNat % 64 ∧ v.toNat % 64 ≤ 62 := by
  have hsize : (setf x 61 56 v).toNat / 2 ^ 56 % 64 = v.toNat % 64 := by
    simpa using field_setf x v (Nat.le_refl 56) (show 56 + 6 ≤ 61 + 1 by decide) (by decide)
  rw [isCa_eq, hsize, decide_eq_true_eq]
  omega

/-- Settles O26: `setf` bit by bit; version and s_prime_bit lie inside the ciphertext field. -/
theorem fieldMutatorLaws : Obligations.FieldMutatorLaws :=
  ⟨fun x _ _ _ hlo hhi => ⟨fun _ hb => getLsbD_setf hlo hhi hb, setf_self x hlo hhi⟩,
    fun x u v _ _ _ _ hlo hdisj hlo' hhi' => setf_comm x u v hlo hdisj hlo' hhi',
    fun x v => ⟨field_setf x v (show 32 ≤ 47 by decide) (show 47 + 9 ≤ 55 + 1 by decide) (by decide),
      getLsbD_setf (by decide) (by decide) (by decide)⟩,
    isCa_setf_encSize⟩

/-! ### The commands -/

/-- What a command of the codec leaves while not halted (41_bitfield_codec.md R114). -/
theorem codecResult_running {s : State} (hs : s.halted = false) (r : Word) :
    codecResult s r = { s with r0 := r, r1 := 0, status := 0 } := by
  rw [codecResult, unlessHalted_running hs, complete_plain]

/-- Settles O23: each accessor's field as a number. -/
theorem getterResults : Obligations.GetterResults := by
  refine ⟨decode_encode .caGetPlaintext, decode_encode .caGetCiphertext, decode_encode .caGetEncsize, decode_encode .caGetSprime,
    decode_encode .caGetSbit, decode_encode .caGetVersion, fun s hs => ⟨?_, ?_, ?_, ?_, ?_, ?_⟩⟩
  · rw [exec, execCaGetPlaintext, codecResult_running hs, setWidth_extractLsb, Nat.pow_zero, Nat.div_one]
  · rw [exec, execCaGetCiphertext, codecResult_running hs, ciphertext_parts, setWidth_extractLsb]
  · rw [exec, execCaGetEncsize, codecResult_running hs, setWidth_extractLsb]
  · rw [exec, execCaGetSprime, codecResult_running hs, flagWord_getLsbD]
  · rw [exec, execCaGetSbit, codecResult_running hs, flagWord_getLsbD]
  · rw [exec, execCaGetVersion, codecResult_running hs, setWidth_extractLsb]

/-- Settles O24: each predicate as arithmetic on A0, and the size with its range of exponents. -/
theorem predicateResults : Obligations.PredicateResults := by
  refine ⟨decode_encode .caGetAdjust, decode_encode .caIsCanonical, decode_encode .caIsCa, decode_encode .decodeSize,
    fun s hs => ⟨?_, ?_, ?_, ?_⟩⟩
  · have hsize : s.a0.extractLsb 61 56 = BitVec.ofNat 6 (s.a0.toNat / 2 ^ 56 % 64) :=
      BitVec.eq_of_toNat_eq ((toNat_extractLsb s.a0 61 56).trans (Nat.mod_mod _ _).symm)
    rw [exec, execCaGetAdjust, caGetAdjustUnder, codecResult_running hs, adjustOf, hsize, beq_eq_decide, flagWord_decide]
  · rw [exec, execCaIsCanonical, codecResult_running hs, isCanonical_eq, flagWord_decide]
  · rw [exec, execCaIsCa, codecResult_running hs, isCa_eq, flagWord_decide]
    simp only [ne_eq, ← not_or, ite_not]
  · rw [exec, execDecodeSize, decodeSizeUnder, codecResult_running hs, sizeBytes_eq, toNat_sizeOperand]

/-- A command that sets the field hi:lo of A0 to A1, bit by bit (41_bitfield_codec.md R110 to R113). -/
theorem mutator_result {i : Instr} {s : State} {hi lo : Nat} (hs : s.halted = false)
    (hexec : exec i s = .next (codecResult s (setf s.a0 hi lo s.a1))) (hlo : lo ≤ hi) (hhi : hi < 64) :
    ∃ r : Word, exec i s = .next { s with r0 := r, r1 := 0, status := 0 } ∧
      ∀ b, b < 64 → r.getLsbD b = if lo ≤ b ∧ b ≤ hi then s.a1.getLsbD (b - lo) else s.a0.getLsbD b :=
  ⟨setf s.a0 hi lo s.a1, by rw [hexec, codecResult_running hs], fun _ hb => getLsbD_setf hlo hhi hb⟩

/-- Settles O25: the four mutators are `setf` on their fields. -/
theorem setterResults : Obligations.SetterResults := by
  refine ⟨decode_encode .caSetPlaintext, decode_encode .caSetCiphertext, decode_encode .caSetEncsize, decode_encode .caSetVersion,
    fun s hs => ?_⟩
  simp only [List.forall_mem_cons]
  exact ⟨mutator_result hs rfl (by decide) (by decide), mutator_result hs rfl (by decide) (by decide),
    mutator_result hs rfl (by decide) (by decide), mutator_result hs rfl (by decide) (by decide), List.forall_mem_nil _⟩

end Sys2Proof.Machine

/-! SUPPORT. The SlotSizer: the slot of a range, CLASSIFY and the laws of the size class (42_slot_sizer.md R130 to R136). -/

namespace Sys2Proof.Machine

/-! ### The slot of a range -/

/-- The aligned slots of 2^k bytes that hold the clamped range are those with b ≤ k (42_slot_sizer.md R132). -/
def SlotExponent (mao : Nat) (a len : Word) (b : Nat) : Prop :=
  ∀ k, a.toNat / 2 ^ k = endAddress mao a len / 2 ^ k ↔ b ≤ k

theorem exists_slotExponent {mao : Nat} {a len : Word} {sc : Nat} (h : sizeClass mao a len = some sc) :
    ∃ b, b ≤ 32 ∧ sc = b - mao + 1 ∧ SlotExponent mao a len b :=
  (sizeClass_eq_some_iff sc).mp h

theorem sizeClass_eq_none_iff (mao : Nat) (a len : Word) :
    sizeClass mao a len = none ↔ a.toNat / 2 ^ 32 ≠ endAddress mao a len / 2 ^ 32 := by
  rw [← Option.not_isSome_iff_eq_none, sizeClass_isSome_iff]

/-- Two numbers that agree without their low m bits agree without their low n bits. -/
theorem div_two_pow_congr {x y m n : Nat} (hmn : m ≤ n) (h : x / 2 ^ m = y / 2 ^ m) : x / 2 ^ n = y / 2 ^ n := by
  rw [← Nat.add_sub_cancel' hmn, Nat.pow_add, ← Nat.div_div_eq_div_mul, ← Nat.div_div_eq_div_mul, h]

/-- A longer range ends no earlier. -/
theorem endAddress_mono (mao : Nat) (a : Word) {len' len : Word} (h : len'.toNat ≤ len.toNat) :
    endAddress mao a len' ≤ endAddress mao a len := by
  unfold endAddress clampLength
  omega

/-- A slot that holds a range holds every shorter range at the same address. -/
theorem sameSlot_of_shorter {mao : Nat} {a len' len : Word} (hlen : len'.toNat ≤ len.toNat) {k : Nat}
    (h : a.toNat / 2 ^ k = endAddress mao a len / 2 ^ k) : a.toNat / 2 ^ k = endAddress mao a len' / 2 ^ k :=
  Nat.le_antisymm (Nat.div_le_div_right (Nat.le_add_right _ _)) (h ▸ Nat.div_le_div_right (endAddress_mono mao a hlen))

namespace SlotExponent

/-- The least number of low bits whose removal makes the first and the last address agree (42_slot_sizer.md R132). -/
theorem of_least {mao : Nat} {a len : Word} {b : Nat} (h : a.toNat / 2 ^ b = endAddress mao a len / 2 ^ b)
    (hleast : ∀ j, j < b → a.toNat / 2 ^ j ≠ endAddress mao a len / 2 ^ j) : SlotExponent mao a len b := fun k =>
  ⟨fun hk => Nat.le_of_not_lt fun hlt => hleast k hlt hk, fun hbk => div_two_pow_congr hbk h⟩

variable {mao : Nat} {a len : Word} {b : Nat} (h : SlotExponent mao a len b)
include h

theorem sameSlot : a.toNat / 2 ^ b = endAddress mao a len / 2 ^ b :=
  (h b).mpr (Nat.le_refl b)

/-- The size class of a range whose slot has at most 2^32 bytes (42_slot_sizer.md R133). -/
theorem sizeClass_eq (hb : b ≤ 32) : sizeClass mao a len = some (b - mao + 1) :=
  (sizeClass_eq_some_iff _).mpr ⟨b, hb, rfl, h⟩

/-- No slot is smaller than the smallest allocation (42_slot_sizer.md R136). -/
theorem mao_le : mao ≤ b :=
  (endAddress_bounds mao a len h.sameSlot).2

/-- The slot is at least as long as the clamped range (42_slot_sizer.md R135 (c)). -/
theorem length_le : max len.toNat (2 ^ mao) ≤ 2 ^ b :=
  (endAddress_bounds mao a len h.sameSlot).1

/-- The last address lies in the slot of the first (42_slot_sizer.md R135 (a)). -/
theorem endAddress_le : endAddress mao a len ≤ a.toNat / 2 ^ b * 2 ^ b + (2 ^ b - 1) := by
  rw [h.sameSlot]
  have hpos := Nat.two_pow_pos b
  have hlt := Nat.lt_div_mul_add (a := endAddress mao a len) hpos
  omega

/-- A shorter range has no larger slot (42_slot_sizer.md R135 (d)). -/
theorem mono {len' : Word} {b' : Nat} (h' : SlotExponent mao a len' b') (hlen : len'.toNat ≤ len.toNat) : b' ≤ b :=
  (h' b).mp (sameSlot_of_shorter hlen h.sameSlot)

end SlotExponent

/-- The slot size of the size class that belongs to a slot of 2^b bytes (41_bitfield_codec.md R115). -/
theorem sizeBytes_of_exponent {mao b : Nat} (hmao : mao ≤ b) (hb : b ≤ 32) :
    sizeBytes mao (BitVec.ofNat 6 (b - mao + 1)) = BitVec.ofNat 64 (2 ^ b) := by
  have hz : (BitVec.ofNat 6 (b - mao + 1)).toNat = b - mao + 1 := Nat.mod_eq_of_lt (by omega)
  rw [sizeBytes_eq, hz, if_pos (by omega), show b - mao + 1 + mao - 1 = b by omega]

/-! ### CLASSIFY -/

/-- The metadata word with version 0: the size class, and the adjust bit above bit 14 (10_state.md R26). -/
theorem setWidth_packMd (adjust : Bool) (z : BitVec 6) :
    (packMd adjust 0 z).setWidth 64 = BitVec.ofNat 64 (z.toNat + if adjust then 2 ^ 15 else 0) := by
  have hz := z.isLt
  have hpack : (packMd adjust 0 z).toNat = z.toNat + if adjust then 2 ^ 15 else 0 := by
    rw [packMd, BitVec.toNat_append, ← Nat.shiftLeft_add_eq_or_of_lt hz, Nat.add_comm]
    cases adjust <;> rfl
  rw [← hpack, BitVec.ofNat_toNat]

/-- STATUS with NOT_BOXABLE and CODE OK (10_state.md R28). -/
theorem statusWord_okNotBoxable : statusWord .ok { notBoxable := true } = 2 ^ 8 := by decide

/-- CLASSIFY of a range whose slot has 2^k bytes, k at most 32 (42_slot_sizer.md R134). -/
theorem exec_classify_slot {s : State} {k : Nat} (hs : s.halted = false) (h : SlotExponent Config.hw.mao s.a0 s.a1 k) (hk : k ≤ 32) :
    exec .classify s = .next { s with
      r0 := BitVec.ofNat 64
        (k + 1 - Config.hw.mao + if Config.hw.specialSize = some (BitVec.ofNat 6 (k + 1 - Config.hw.mao)) then 2 ^ 15 else 0)
      r1 := BitVec.ofNat 64 (2 ^ k), status := 0 } := by
  have hmao := h.mao_le
  have hz : (BitVec.ofNat 6 (k + 1 - Config.hw.mao)).toNat = k + 1 - Config.hw.mao := Nat.mod_eq_of_lt (by omega)
  rw [exec_classify_boxable hs (h.sizeClass_eq hk), complete_plain, sizeBytes_of_exponent hmao hk, setWidth_packMd,
    ← Nat.sub_add_comm hmao, hz, adjustOf]
  simp only [beq_iff_eq]

/-- Settles O27: the size class comes from the slot's exponent; without one up to 32 there is no size class. -/
theorem classifyResult : Obligations.ClassifyResult := by
  refine ⟨decode_encode .classify, fun s hs => ⟨fun k hk hsame hleast => ?_, fun hnone => ?_⟩⟩
  · exact exec_classify_slot hs (.of_least hsame hleast) hk
  · have hclass := (sizeClass_eq_none_iff Config.hw.mao s.a0 s.a1).mpr (hnone 32 (Nat.le_refl 32))
    rw [exec_classify_notBoxable hs hclass, complete, statusWord_okNotBoxable]

/-! ### The laws -/

/-- A shorter range at the address of a boxable one is boxable in no larger class (42_slot_sizer.md R135 (d)). -/
theorem sizeClass_mono {mao : Nat} {a len' len : Word} {sc : Nat} (h : sizeClass mao a len = some sc)
    (hlen : len'.toNat ≤ len.toNat) : ∃ sc', sizeClass mao a len' = some sc' ∧ sc' ≤ sc := by
  obtain ⟨b, hb, rfl, hslot⟩ := exists_slotExponent h
  have hsome : (sizeClass mao a len').isSome = true :=
    (sizeClass_isSome_iff mao a len').mpr (sameSlot_of_shorter hlen ((hslot 32).mpr hb))
  obtain ⟨sc', hsc'⟩ := Option.isSome_iff_exists.mp hsome
  obtain ⟨b', _, rfl, hslot'⟩ := exists_slotExponent hsc'
  have hle : b' ≤ b := hslot.mono hslot' hlen
  exact ⟨_, hsc', by omega⟩

/-- No length above 2^32 is boxable (42_slot_sizer.md R136). -/
theorem sizeClass_of_tooLong (mao : Nat) (a : Word) {len : Word} (hlen : 2 ^ 32 < len.toNat) : sizeClass mao a len = none := by
  refine (sizeClass_eq_none_iff mao a len).mpr fun hsame => ?_
  have hle := (endAddress_bounds mao a len hsame).1
  omega

/-- A length of 2^32 is boxable exactly at a multiple of 2^32 (42_slot_sizer.md R136). -/
theorem sizeClass_isSome_of_longest {mao : Nat} (a : Word) {len : Word} (hmao : mao ≤ 31) (hlen : len.toNat = 2 ^ 32) :
    (sizeClass mao a len).isSome = true ↔ a.toNat % 2 ^ 32 = 0 := by
  have hmin : 2 ^ mao ≤ 2 ^ 31 := Nat.pow_le_pow_right (by decide) hmao
  have hend : endAddress mao a len = a.toNat + (2 ^ 32 - 1) := by
    rw [endAddress, clampLength, hlen, Nat.max_eq_left (by omega)]
  rw [sizeClass_isSome_iff, hend]
  omega

/-- Settles O28: every law of a boxable range is a fact about the exponent of its slot. -/
theorem slotSizerLaws : Obligations.SlotSizerLaws := by
  refine fun mao a len hmao => ⟨fun sc hsc => ?_, sizeClass_of_tooLong mao a, sizeClass_isSome_of_longest a hmao⟩
  obtain ⟨b, hb, rfl, hslot⟩ := exists_slotExponent hsc
  have hmaob := hslot.mao_le
  have hsize : b - mao + 1 + mao - 1 = b := by omega
  simp only [hsize]
  have hsmallest : ∀ n, a.toNat / 2 ^ n = endAddress mao a len / 2 ^ n → 2 ^ b ≤ 2 ^ n := fun n hn =>
    Nat.pow_le_pow_right (by decide) ((hslot n).mp hn)
  exact ⟨sizeBytes_of_exponent hmaob hb, Nat.div_mul_le_self _ _, hslot.endAddress_le, hsmallest, hslot.length_le,
    fun _ hlen => sizeClass_mono hsc hlen, by omega, by omega⟩

end Sys2Proof.Machine

/-! SUPPORT. The TweakCipher's data path: each layer bit by bit and undone by its inverse, the rounds and their order
(43_tweak_cipher.md R148 to R156). -/

namespace Sys2Proof.Machine

/-! ### The S-box on nibbles -/

/-- The nibbles of four joined nibbles, the lowest one first. -/
theorem extractLsb'_append_nibbles (a b c d : BitVec 6) {k : Nat} (hk : k < 4) :
    (a ++ b ++ c ++ d).extractLsb' (6 * k) 6 = [d, c, b, a][k] := by
  apply BitVec.eq_of_getLsbD_eq
  intro i hi
  rw [BitVec.getLsbD_extractLsb', decide_eq_true hi, Bool.true_and, BitVec.getLsbD_append, BitVec.getLsbD_append,
    BitVec.getLsbD_append]
  interval_cases k <;> grind

/-- The S-box acts on each nibble by itself (43_tweak_cipher.md R148). -/
theorem extractLsb'_nibbles (f : BitVec 6 → BitVec 6) (x : Block) {k : Nat} (hk : k < 4) :
    (nibbles f x).extractLsb' (6 * k) 6 = f (x.extractLsb' (6 * k) 6) := by
  rw [nibbles, extractLsb'_append_nibbles _ _ _ _ hk]
  interval_cases k <;> rfl

/-- Two blocks with the same nibbles are equal. -/
theorem block_ext_nibbles {x y : Block} (h : ∀ k, k < 4 → x.extractLsb' (6 * k) 6 = y.extractLsb' (6 * k) 6) : x = y := by
  apply BitVec.eq_of_getLsbD_eq
  intro i hi
  have hbit := congrArg (·.getLsbD (i % 6)) (h (i / 6) (by omega))
  simpa only [BitVec.getLsbD_extractLsb', Nat.mod_lt i (show 0 < 6 by decide), decide_true, Bool.true_and, Nat.div_add_mod] using hbit

theorem nibbles_of_leftInverse {f g : BitVec 6 → BitVec 6} (h : Function.LeftInverse g f) (x : Block) :
    nibbles g (nibbles f x) = x :=
  block_ext_nibbles fun k hk => by rw [extractLsb'_nibbles g _ hk, extractLsb'_nibbles f _ hk, h]

/-! ### The linear layer -/

theorem getLsbD_lml (x : Block) {b : Nat} (hb : b < 24) :
    (lml x).getLsbD b = ((x.getLsbD b ^^ x.getLsbD ((b + 2) % 24)) ^^ x.getLsbD ((b + 12) % 24)) := by
  rw [lml, BitVec.getLsbD_xor, BitVec.getLsbD_xor, getLsbD_rotr x 2 hb, getLsbD_rotr x 12 hb]

theorem getLsbD_lmlInv (x : Block) {b : Nat} (hb : b < 24) :
    (lmlInv x).getLsbD b = ((x.getLsbD ((b + 8) % 24) ^^ x.getLsbD ((b + 20) % 24)) ^^ x.getLsbD ((b + 22) % 24)) := by
  rw [lmlInv, BitVec.getLsbD_xor, BitVec.getLsbD_xor, getLsbD_rotr x 8 hb, getLsbD_rotr x 20 hb, getLsbD_rotr x 22 hb]

/-- Of the nine bits that the two layers XOR into bit b, the offsets 8, 10, 20 and 22 occur twice and cancel; bit b is left. -/
theorem lml_offsets_cancel (x : Block) {b : Nat} (hb : b < 24) :
    ((((x.getLsbD ((b + 8) % 24) ^^ x.getLsbD ((b + 10) % 24)) ^^ x.getLsbD ((b + 20) % 24)) ^^
      ((x.getLsbD ((b + 20) % 24) ^^ x.getLsbD ((b + 22) % 24)) ^^ x.getLsbD ((b + 32) % 24))) ^^
      ((x.getLsbD ((b + 22) % 24) ^^ x.getLsbD ((b + 24) % 24)) ^^ x.getLsbD ((b + 34) % 24))) = x.getLsbD b := by
  rw [show (b + 32) % 24 = (b + 8) % 24 by omega, show (b + 34) % 24 = (b + 10) % 24 by omega,
    show (b + 24) % 24 = b by omega]
  grind

/-- `LMLinv` undoes `LML` (43_tweak_cipher.md R150). -/
theorem lmlInv_lml (x : Block) : lmlInv (lml x) = x := by
  apply BitVec.eq_of_getLsbD_eq
  intro b hb
  have hmod (n : Nat) : n % 24 < 24 := Nat.mod_lt n (by decide)
  rw [getLsbD_lmlInv _ hb, getLsbD_lml _ (hmod _), getLsbD_lml _ (hmod _), getLsbD_lml _ (hmod _)]
  simp only [Nat.mod_add_mod, Nat.add_assoc, Nat.reduceAdd]
  exact lml_offsets_cancel x hb

/-- `LML` undoes `LMLinv`: a map of the finite set of blocks with a left inverse is a bijection. -/
theorem lml_lmlInv (x : Block) : lml (lmlInv x) = x := by
  obtain ⟨y, rfl⟩ := Finite.surjective_of_injective (Function.LeftInverse.injective lmlInv_lml) x
  rw [lmlInv_lml]

/-! ### The rounds -/

/-- Rounds 0 to 2 and 9 to 11 are simple (43_tweak_cipher.md R151). -/
theorem simpleRound_iff (r : Fin 12) : simpleRound r = true ↔ r.val < 3 ∨ 9 ≤ r.val := by
  rw [simpleRound, Bool.or_eq_true, decide_eq_true_eq, decide_eq_true_eq]

section
variable (c : TbcParams) {r : Fin 12} (x : Block)

theorem rnd_simple (h : simpleRound r = true) : rnd c r x = permBits c.p3.fwd (nibbles c.sbox x) :=
  if_pos h

theorem rnd_core (h : ¬simpleRound r = true) :
    rnd c r x = permBits c.p2.fwd (lml (permBits c.p1.fwd (nibbles c.sbox x))) :=
  if_neg h

theorem rndInv_simple (h : simpleRound r = true) : rndInv c r x = nibbles c.sboxInv (permBits c.p3.inv x) :=
  if_pos h

theorem rndInv_core (h : ¬simpleRound r = true) :
    rndInv c r x = nibbles c.sboxInv (permBits c.p1.inv (lmlInv (permBits c.p2.inv x))) :=
  if_neg h

/-- The inverse round undoes each layer of the round, the last one first (43_tweak_cipher.md R153). -/
theorem rndInv_rnd (r : Fin 12) : rndInv c r (rnd c r x) = x := by
  by_cases h : simpleRound r = true
  · rw [rnd_simple c x h, rndInv_simple c _ h, permBits_inv_fwd, nibbles_of_leftInverse c.sboxInv_sbox]
  · rw [rnd_core c x h, rndInv_core c _ h, permBits_inv_fwd, lmlInv_lml, permBits_inv_fwd,
      nibbles_of_leftInverse c.sboxInv_sbox]

theorem rnd_rndInv (r : Fin 12) : rnd c r (rndInv c r x) = x := by
  by_cases h : simpleRound r = true
  · rw [rndInv_simple c x h, rnd_simple c _ h, nibbles_of_leftInverse c.sbox_sboxInv, permBits_fwd_inv]
  · rw [rndInv_core c x h, rnd_core c _ h, nibbles_of_leftInverse c.sbox_sboxInv, permBits_fwd_inv, lml_lmlInv,
      permBits_fwd_inv]

end

/-- Settles O31: layer by layer, each undone by its inverse. -/
theorem roundsInvert : Obligations.RoundsInvert :=
  ⟨fun x => ⟨lmlInv_lml x, lml_lmlInv x⟩, fun c r x => ⟨rndInv_rnd c x r, rnd_rndInv c x r⟩⟩

/-! ### Sequences of rounds -/

section
variable {α : Type} {n : Nat}

/-- Rounds run from the first to the last go through a sequence of states. -/
theorem exists_states_foldl (f : α → Fin n → α) (x : α) :
    ∃ d : Nat → α, d 0 = x ∧ (∀ r : Fin n, d (r.val + 1) = f (d r.val) r) ∧ (List.finRange n).foldl f x = d n := by
  refine ⟨fun k => ((List.finRange n).take k).foldl f x, rfl, fun r => ?_, ?_⟩
  · have hr : r.val < (List.finRange n).length := by rw [List.length_finRange]; exact r.isLt
    dsimp only
    rw [← List.take_concat_get' _ _ hr, List.foldl_append, List.getElem_finRange]
    rfl
  · dsimp only
    rw [List.take_of_length_le (by rw [List.length_finRange])]

/-- Rounds run from the last to the first go through a sequence of states, numbered backward. -/
theorem exists_states_foldl_reverse (g : α → Fin n → α) (x : α) :
    ∃ e : Nat → α, e n = x ∧ (∀ r : Fin n, e r.val = g (e (r.val + 1)) r) ∧ (List.finRange n).reverse.foldl g x = e 0 := by
  refine ⟨fun k => ((List.finRange n).drop k).foldr (fun r y => g y r) x, ?_, fun r => ?_, List.foldl_reverse⟩
  · dsimp only
    rw [List.drop_of_length_le (by rw [List.length_finRange])]
    rfl
  · have hr : r.val < (List.finRange n).length := by rw [List.length_finRange]; exact r.isLt
    dsimp only
    rw [List.drop_eq_getElem_cons hr, List.foldr_cons, List.getElem_finRange]
    rfl

end

section
variable {α β : Type} {f g : α → β → α}

/-- Steps run forward after their inverses were run backward. -/
theorem foldl_foldl_reverse (h : ∀ x r, f (g x r) r = x) (l : List β) (x : α) : l.foldl f (l.reverse.foldl g x) = x := by
  rw [List.foldl_reverse]
  induction l with
  | nil => rfl
  | cons r l ih => rw [List.foldr_cons, List.foldl_cons, h, ih]

/-- Inverses run backward after the steps were run forward. -/
theorem foldl_reverse_foldl (h : ∀ x r, g (f x r) r = x) (l : List β) (x : α) : l.reverse.foldl g (l.foldl f x) = x := by
  rw [List.foldl_reverse]
  induction l generalizing x with
  | nil => rfl
  | cons r l ih => rw [List.foldl_cons, List.foldr_cons, ih, h]

end

/-- Settles O32: each layer bit by bit, and the states that Dec and Enc go through. -/
theorem cipherRoundOrder : Obligations.CipherRoundOrder := by
  intro c ks x t
  refine ⟨fun k hk => ⟨extractLsb'_nibbles _ x hk, extractLsb'_nibbles _ x hk⟩, fun v => ⟨c.sboxInv_sbox v, c.sbox_sboxInv v⟩,
    fun p _ b => ⟨getLsbD_permBits _ x b.isLt, getLsbD_permBits _ x b.isLt, p.inv_fwd b⟩,
    fun b hb => ⟨getLsbD_lml x hb, getLsbD_lmlInv x hb⟩, lmlInv_lml x,
    exists_states_foldl (fun y r => rnd c r (y ^^^ (twkSched c ks.trk (usedTweak t)).get r)) _, ?_, fun r y => ?_⟩
  · obtain ⟨e, hlast, hstep, hfirst⟩ := exists_states_foldl_reverse
      (fun y r => rndInv c r y ^^^ (twkSched c ks.trk (usedTweak t)).get r) x
    exact ⟨e, hlast, hstep, congrArg (· ^^^ ks.drk) hfirst⟩
  · split <;> rename_i hr <;> rw [← simpleRound_iff] at hr
    · exact ⟨rnd_simple c y hr, rndInv_simple c y hr⟩
    · exact ⟨rnd_core c y hr, rndInv_core c y hr⟩

/-! ### Enc and Dec undo each other -/

theorem decWith_encWith (c : TbcParams) (drk : Block) (rtk : Vector Block 12) (b : Block) :
    decWith c drk rtk (encWith c drk rtk b) = b := by
  rw [decWith, encWith, BitVec.xor_assoc, BitVec.xor_self, BitVec.xor_zero]
  exact foldl_foldl_reverse (fun x r => by rw [BitVec.xor_assoc, BitVec.xor_self, BitVec.xor_zero, rnd_rndInv]) _ b

theorem encWith_decWith (c : TbcParams) (drk : Block) (rtk : Vector Block 12) (b : Block) :
    encWith c drk rtk (decWith c drk rtk b) = b := by
  rw [decWith, encWith, foldl_reverse_foldl, BitVec.xor_assoc, BitVec.xor_self, BitVec.xor_zero]
  intro x r
  rw [rndInv_rnd, BitVec.xor_assoc, BitVec.xor_self, BitVec.xor_zero]

/-- The cipher uses bits 39:0 of a tweak (43_tweak_cipher.md R142). -/
theorem toNat_usedTweak (t : Word) : (usedTweak t).toNat = t.toNat % 2 ^ 40 := by
  rw [usedTweak, toNat_extractLsb, Nat.pow_zero, Nat.div_one]

/-- Settles O33: the rounds of Dec are those of Enc undone in the opposite order. -/
theorem cipherInvolution : Obligations.CipherInvolution := by
  intro c ks t
  have hdec (b : Block) : tbcDec c ks (tbcEnc c ks b t) t = b := decWith_encWith c _ _ b
  have henc (b : Block) : tbcEnc c ks (tbcDec c ks b t) t = b := encWith_decWith c _ _ b
  refine ⟨fun b => ⟨hdec b, henc b⟩,
    ⟨Function.LeftInverse.injective (g := (tbcDec c ks · t)) hdec, Function.RightInverse.surjective (g := (tbcDec c ks · t)) henc⟩,
    fun t' ht b => ?_⟩
  have hused : usedTweak t = usedTweak t' := BitVec.eq_of_toNat_eq (by rw [toNat_usedTweak, toNat_usedTweak, ht])
  rw [tbcEnc, tbcEnc, tbcDec, tbcDec, hused]
  exact ⟨rfl, rfl⟩

end Sys2Proof.Machine

/-! SUPPORT. The TweakCipher's key schedule and tweak schedule (43_tweak_cipher.md R140 to R147). -/

namespace Sys2Proof.Machine

/-! ### Key schedule -/

/-- The positions are the powers of 3 (43_tweak_cipher.md R141). -/
theorem ksPos_eq (n : Nat) : ksPos n = 3 ^ n % 256 := by
  induction n with
  | zero => rfl
  | succ n ih => rw [ksPos, ih, Nat.mod_mul_mod, Nat.pow_succ]

theorem ksSel_eq (key : AddrKey) (n : Nat) :
    ksSel key n = (key.get (Fin.ofNat 32 (3 ^ n % 256 / 8))).getLsbD (3 ^ n % 256 % 8) := by
  rw [ksSel, ksPos_eq, keyBit]

/-- A power of 3 is 1 or 3 modulo 8. -/
theorem ksPos_bit (n : Nat) : ksPos n % 8 = 1 ∨ ksPos n % 8 = 3 := by
  induction n with
  | zero => exact .inl rfl
  | succ n ih => rw [ksPos]; omega

theorem ksSel_congr {key key' : AddrKey}
    (h : ∀ b : Fin 32, (key.get b).getLsbD 1 = (key'.get b).getLsbD 1 ∧ (key.get b).getLsbD 3 = (key'.get b).getLsbD 3) :
    ksSel key = ksSel key' := by
  funext n
  obtain ⟨h1, h3⟩ := h (Fin.ofNat 32 (ksPos n / 8))
  rw [ksSel, ksSel, keyBit, keyBit]
  rcases ksPos_bit n with e | e <;> rw [e]
  · exact h1
  · exact h3

theorem getLsbD_keySched_drk (key : AddrKey) {j : Nat} (hj : j < 24) : (keySched key).drk.getLsbD j = ksSel key j := by
  rw [keySched, BitVec.getLsbD_ofFnLE, dif_pos hj]

theorem getLsbD_keySched_trk (key : AddrKey) (i : Fin 6) {j : Nat} (hj : j < 53) :
    ((keySched key).trk.get i).getLsbD j = ksSel key (24 + 53 * i.val + j) := by
  rw [keySched, Vector.get_ofFn, BitVec.getLsbD_ofFnLE, dif_pos hj]

/-- Settles O29: selection n is at a power of 3, so at bit 1 or bit 3 of a key byte. -/
theorem keyScheduleGathersKeyBits : Obligations.KeyScheduleGathersKeyBits := by
  intro key
  refine ⟨fun j hj => ?_, fun i j hj => ?_, fun key' h => ?_⟩
  · rw [getLsbD_keySched_drk key hj, ksSel_eq]
  · rw [getLsbD_keySched_trk key i hj, ksSel_eq]
  · rw [keySched, keySched, ksSel_congr h]

/-! ### Tweak schedule -/

theorem toNat_pt53 (t : Tweak) : (pt53 t).toNat = t.toNat * 2 + 1 := by
  have := t.isLt
  rw [pt53, BitVec.toNat_setWidth, BitVec.toNat_append, ← Nat.shiftLeft_add_eq_or_of_lt (BitVec.isLt 1#1),
    Nat.shiftLeft_eq, BitVec.toNat_one, Nat.mod_eq_of_lt] <;> omega

theorem getLsbD_chi53 (x : TweakWord) {i : Nat} (hi : i < 53) :
    (chi53 x).getLsbD i = (x.getLsbD i != (!x.getLsbD ((i + 1) % 53) && x.getLsbD ((i + 2) % 53))) := by
  rw [chi53, BitVec.getLsbD_xor, BitVec.getLsbD_and, BitVec.getLsbD_not, getLsbD_rotr x 1 hi, getLsbD_rotr x 2 hi,
    decide_eq_true hi, Bool.true_and, Bool.bne_eq_xor]

section
variable (c : TbcParams) (trk : Vector TweakWord 6) (t : Tweak) (i : Fin 6)

theorem twkState_succ : twkState c trk t (i.val + 1) = twkStage c i (trk.get i) (twkState c trk t i.val) := by
  rw [twkState, show Fin.ofNat 6 i.val = i from Fin.ofNat_val_eq_self i]

theorem twkStage_oneRound {k s : TweakWord} (h : c.stageRounds i = 1) : twkStage c i k s = gRound c (chi53 (s ^^^ k)) :=
  if_neg (by rw [h]; decide)

theorem twkStage_twoRounds {k s : TweakWord} (h : c.stageRounds i = 2) :
    twkStage c i k s = gpRound c (gRound c (chi53 (s ^^^ k))) :=
  if_pos h

theorem getLsbD_even24 (s : TweakWord) {j : Nat} (hj : j < 24) : (even24 s).getLsbD j = s.getLsbD (2 * j) := by
  rw [even24, BitVec.getLsbD_ofFnLE, dif_pos hj]

theorem getLsbD_odd24 (s : TweakWord) {j : Nat} (hj : j < 24) : (odd24 s).getLsbD j = s.getLsbD (2 * j + 1) := by
  rw [odd24, BitVec.getLsbD_ofFnLE, dif_pos hj]

/-- Sub-tweak 2i is the even half of the state after stage i (43_tweak_cipher.md R147). -/
theorem twkSched_even : (twkSched c trk t).get (Fin.ofNat 12 (2 * i.val)) = even24 (twkState c trk t (i.val + 1)) := by
  have hval : (Fin.ofNat 12 (2 * i.val)).val = 2 * i.val := Nat.mod_eq_of_lt (by omega)
  rw [twkSched, Vector.get_ofFn, hval, Nat.mul_div_cancel_left _ (by decide), if_pos (Nat.mul_mod_right 2 _)]

/-- Sub-tweak 2i + 1 is its odd half (43_tweak_cipher.md R147). -/
theorem twkSched_odd : (twkSched c trk t).get (Fin.ofNat 12 (2 * i.val + 1)) = odd24 (twkState c trk t (i.val + 1)) := by
  have hval : (Fin.ofNat 12 (2 * i.val + 1)).val = 2 * i.val + 1 := Nat.mod_eq_of_lt (by omega)
  rw [twkSched, Vector.get_ofFn, hval, show (2 * i.val + 1) / 2 = i.val by omega, if_neg (by omega)]

end

/-- Settles O30: the stages go through `twkState`, from the padded tweak on. -/
theorem tweakScheduleStages : Obligations.TweakScheduleStages := by
  refine ⟨fun t => by rw [toNat_pt53, toNat_usedTweak], fun x i hi => getLsbD_chi53 x hi,
    fun c trk t => ⟨twkState c trk t, rfl, fun i => ⟨⟨_, ⟨_, fun b => getLsbD_permBits _ _ b.isLt, rfl⟩, fun h => ?_, fun h => ?_⟩,
      fun j hj => ⟨?_, ?_⟩⟩⟩⟩
  · rw [twkState_succ, twkStage_oneRound c i h, gRound]
  · exact ⟨_, fun b => getLsbD_permBits _ _ b.isLt, by rw [twkState_succ, twkStage_twoRounds c i h, gpRound, gRound]⟩
  · rw [twkSched_even, getLsbD_even24 _ hj]
  · rw [twkSched_odd, getLsbD_odd24 _ hj]

end Sys2Proof.Machine

/-! SUPPORT. The commands of the TweakCipher under a coherent cache (43_tweak_cipher.md R157, R160, R161). -/

namespace Sys2Proof.Machine

/-- The block operand is A0 cut to 24 bits (30_encoding.md R84). -/
theorem blockOperand_eq (s : State) : blockOperand s = BitVec.ofNat 24 s.a0.toNat := by
  apply BitVec.eq_of_toNat_eq
  rw [blockOperand, toNat_extractLsb, BitVec.toNat_ofNat, Nat.pow_zero, Nat.div_one]

section
variable {s : State} (hc : CacheCoherent s) (b : Block) (t : Word)
include hc

/-- From a coherent cache the cached Enc is Enc, and the tweak's schedule is left in the cache (43_tweak_cipher.md R157). -/
theorem encCached_hw : encCached Config.hw.tbc s b t = (holdingSchedule s t, tbcEnc Config.hw.tbc s.ks b t) := by
  rw [encCached, fillCache_hw hc]
  rfl

/-- From a coherent cache the cached Dec is Dec, and the tweak's schedule is left in the cache (43_tweak_cipher.md R157). -/
theorem decCached_hw : decCached Config.hw.tbc s b t = (holdingSchedule s t, tbcDec Config.hw.tbc s.ks b t) := by
  rw [decCached, fillCache_hw hc]
  rfl

end

/-- Settles O34: neither check refuses, and the cached function is the uncached one. -/
theorem cipherCommandResults : Obligations.CipherCommandResults := by
  refine ⟨by decide, by decide, fun s hs hk hc => ⟨?_, ?_⟩⟩
  · rw [exec, execTbcEnc, tbcEncUnder, unlessHalted_running hs, needKey_valid (k := .addrKey) hk, encCached_hw hc, blockOperand_eq]
    exact congrArg Host.Outcome.next (complete_plain _ _ _)
  · rw [exec, execTbcDec, tbcDecUnder, unlessHalted_running hs, needKey_valid (k := .addrKey) hk, decCached_hw hc, blockOperand_eq]
    exact congrArg Host.Outcome.next (complete_plain _ _ _)

end Sys2Proof.Machine

/-! SUPPORT. The StreamPRF: the lanes after each layer of a round, the order of the rounds, the key lanes, and the command PRF_STREAM
(44_stream_prf.md R170 to R180). -/

namespace Sys2Proof.Machine

/-! ### Lanes -/

theorem lanes_ext {x y : Lanes} (h : ∀ i : Fin 5, x.get i = y.get i) : x = y :=
  Vector.ext fun i hi => h ⟨i, hi⟩

theorem get_setLane (x : Lanes) (i j : Fin 5) (v : Word) : (x.set i v).get j = if i = j then v else x.get j := by
  rw [Vector.get_eq_getElem, Vector.getElem_set, Vector.get_eq_getElem]
  simp only [Fin.ext_iff]

theorem get_xorLane (x : Lanes) (i j : Fin 5) (v : Word) :
    (xorLane x i v).get j = if i = j then x.get j ^^^ v else x.get j := by
  rw [xorLane, get_setLane]
  by_cases h : i = j
  · rw [h]
  · rw [if_neg h, if_neg h]

theorem mixLanes_cons (d e : Fin 5) (pairs : List (Fin 5 × Fin 5)) (x : Lanes) :
    mixLanes ((d, e) :: pairs) x = mixLanes pairs (xorLane x d (x.get e)) :=
  List.foldl_cons ..

theorem getLsbD_chiLanes (x : Lanes) (i : Fin 5) {b : Nat} (hb : b < 64) :
    ((chiLanes x).get i).getLsbD b =
      ((x.get i).getLsbD b != (!(x.get (i + 1)).getLsbD b && (x.get (i + 2)).getLsbD b)) := by
  rw [chiLanes, Vector.get_ofFn, BitVec.getLsbD_xor, BitVec.getLsbD_and, BitVec.getLsbD_not, decide_eq_true hb, Bool.true_and,
    Bool.bne_eq_xor]

/-- The lane after k in the 5-cycle of the non-linear layer. -/
theorem ofNat_val_add (i : Fin 5) (k : Nat) : Fin.ofNat 5 (i.val + k) = i + Fin.ofNat 5 k :=
  Fin.ext (Nat.add_mod_mod i.val k 5).symm

/-- The two-stage rotation of a lane is an XOR of three terms (44_stream_prf.md R175). -/
theorem twoStageRotation_eq {n : Nat} (v : BitVec n) (c1 c2 : Nat) :
    v ^^^ (v ^^^ v.rotateRight c1).rotateRight c2 = v ^^^ v.rotateRight c2 ^^^ v.rotateRight (c1 + c2) := by
  apply BitVec.eq_of_getLsbD_eq
  intro i hi
  have hmod : (i + c2) % n < n := Nat.mod_lt _ (by omega)
  have hsum : ((i + c2) % n + c1) % n = (i + (c1 + c2)) % n := by
    rw [Nat.mod_add_mod, Nat.add_assoc, Nat.add_comm c2]
  simp only [BitVec.getLsbD_xor, getLsbD_rotr _ _ hi, getLsbD_rotr _ _ hmod, hsum, Bool.xor_assoc]

theorem get_diffuseLanes (c : PrfParams) (x : Lanes) (i : Fin 5) :
    (diffuseLanes c x).get i =
      x.get i ^^^ (x.get i).rotateRight (c.rot i).2.val ^^^ (x.get i).rotateRight ((c.rot i).1.val + (c.rot i).2.val) := by
  rw [diffuseLanes, Vector.get_ofFn, twoStageRotation_eq]

/-- The complement at the end of a round is of lane 2 only (44_stream_prf.md R175). -/
theorem get_complementLane2 (y : Lanes) (i : Fin 5) : (y.set 2 (~~~(y.get 2))).get i = if i = 2 then ~~~(y.get i) else y.get i := by
  refine (get_setLane y 2 i _).trans ?_
  by_cases h : i = 2
  · rw [h]
  · rw [if_neg h, if_neg (Ne.symm h)]

/-- Settles O35: each layer lane by lane, and the states that P12 goes through. -/
theorem permutationLayers : Obligations.PermutationLayers := by
  intro c
  refine ⟨fun r x => ⟨_, rfl, fun i => ?_⟩, fun x i b hb => ?_, fun pairs d e x => ⟨rfl, mixLanes_cons d e pairs x⟩,
    fun x => exists_states_foldl (fun y r => prfRound c r y) x⟩
  · rw [prfRound, get_complementLane2, get_diffuseLanes]
    rfl
  · rw [getLsbD_chiLanes x i hb, ofNat_val_add, ofNat_val_add]
    rfl

/-! ### The key lanes and the function `stream` -/

/-- Lane 1 takes the first eight bytes of the key (44_stream_prf.md R176). -/
theorem byteOf_keyLow (key : DataKey) {j : Nat} (hj : j < 8) : byteOf j (keyLow key) = key.get ⟨j, by omega⟩ := by
  rw [keyLow, byteOf_le64 _ hj, List.getD_eq_getElem _ _ (by simp; omega), List.getElem_take, Vector.getElem_toList,
    Vector.get_eq_getElem]

/-- Lane 2 takes the last eight bytes of the key (44_stream_prf.md R176). -/
theorem byteOf_keyHigh (key : DataKey) {j : Nat} (hj : j < 8) : byteOf j (keyHigh key) = key.get ⟨j + 8, by omega⟩ := by
  rw [keyHigh, byteOf_le64 _ hj, List.getD_eq_getElem _ _ (by simp; omega), List.getElem_drop, Vector.getElem_toList,
    Vector.get_eq_getElem]
  simp only [Nat.add_comm]

/-- What enters the second permutation: the first one's result with lanes 0, 1 and 4 changed (44_stream_prf.md R178). -/
theorem xorLane_inputPadDsep (m : Lanes) (a p d : Word) :
    xorLane (xorLane (xorLane m 0 a) 1 p) 4 d = #v[m.get 0 ^^^ a, m.get 1 ^^^ p, m.get 2, m.get 3, m.get 4 ^^^ d] := by
  apply lanes_ext
  intro i
  simp only [get_xorLane]
  fin_cases i <;> rfl

theorem stream_eq (c : PrfParams) (a : Word) (key : DataKey) :
    let m := p12 c #v[c.iv, keyLow key, keyHigh key, 0, 0]
    stream c a key = (p12 c #v[m.get 0 ^^^ a, m.get 1 ^^^ c.pad, m.get 2, m.get 3, m.get 4 ^^^ c.dsep]).get 0 := by
  rw [stream, xorLane_inputPadDsep]

/-! ### PRF_STREAM -/

theorem exec_prfStream {s : State} {k : KeySlot} {key : DataKey} (hs : s.halted = false) (hkey : dataKey s k = some key)
    (hk : keyValid s k = true) :
    exec (.prfStream k) s = .next { s with r0 := stream Config.hw.prf s.a0 key, r1 := 0, status := 0 } := by
  rw [exec, execPrfStream, prfStreamUnder, unlessHalted_running hs, hkey]
  dsimp only
  rw [needKey_valid hk, complete_plain]

/-- Settles O36: neither check refuses, and the result is `stream` with its two permutations written out. -/
theorem prfStreamResult : Obligations.PrfStreamResult := by
  refine ⟨by decide, by decide, by decide, fun s k key hs hkey hk =>
    ⟨keyLow key, keyHigh key, _, fun j => ⟨?_, ?_⟩, rfl, ?_⟩⟩
  · rw [show Fin.ofNat 16 j.val = ⟨j.val, by omega⟩ from Fin.ext (Nat.mod_eq_of_lt (by omega))]
    exact byteOf_keyLow key j.isLt
  · rw [show Fin.ofNat 16 (j.val + 8) = ⟨j.val + 8, by omega⟩ from Fin.ext (Nat.mod_eq_of_lt (by omega))]
    exact byteOf_keyHigh key j.isLt
  · rw [exec_prfStream hs hkey hk, stream_eq]

end Sys2Proof.Machine

/-! SUPPORT. The fields of a word under `setf` and under an addition that carries out of none of them (41_bitfield_codec.md R118, R119). -/

namespace Sys2Proof.Machine

/-! ### Fields and setf -/

/-- A field is determined by its bits. -/
theorem extractLsb_congr {x y : Word} {hi lo : Nat} (hlo : lo ≤ hi) (h : ∀ b, lo ≤ b → b ≤ hi → x.getLsbD b = y.getLsbD b) :
    x.extractLsb hi lo = y.extractLsb hi lo := by
  apply BitVec.eq_of_getLsbD_eq
  intro i hi'
  rw [BitVec.getLsbD_extractLsb, BitVec.getLsbD_extractLsb, h (lo + i) (by omega) (by omega)]

/-- Setting a field leaves the fields beside it alone (41_bitfield_codec.md R119). -/
theorem extractLsb_setf_disjoint (x v : Word) {hi lo hi' lo' : Nat} (hlo : lo ≤ hi) (hhi : hi < 64) (hlo' : lo' ≤ hi')
    (hhi' : hi' < 64) (hdisj : hi' < lo ∨ hi < lo') : (setf x hi lo v).extractLsb hi' lo' = x.extractLsb hi' lo' :=
  extractLsb_congr hlo' fun b _ _ => by rw [getLsbD_setf hlo hhi (by omega), if_neg (by omega)]

/-- A field that was set is the value it was set to (41_bitfield_codec.md R119). -/
theorem extractLsb_setf_same (x : Word) {hi lo : Nat} (v : BitVec (hi - lo + 1)) (hlo : lo ≤ hi) (hhi : hi < 64) :
    (setf x hi lo (v.setWidth 64)).extractLsb hi lo = v := by
  apply BitVec.eq_of_getLsbD_eq
  intro i hi'
  rw [BitVec.getLsbD_extractLsb, getLsbD_setf hlo hhi (by omega), if_pos (by omega), Nat.add_sub_cancel_left, BitVec.getLsbD_setWidth,
    decide_eq_true (by omega), decide_eq_true (by omega), Bool.true_and, Bool.true_and]

/-- Setting a field forgets what was set inside it before. -/
theorem setf_setf_within (x u v : Word) {hi lo hi' lo' : Nat} (hlo : lo ≤ lo') (hlo' : lo' ≤ hi') (hhi' : hi' ≤ hi) (hhi : hi < 64) :
    setf (setf x hi' lo' u) hi lo v = setf x hi lo v := by
  apply BitVec.eq_of_getLsbD_eq
  intro b hb
  rw [getLsbD_setf (by omega) hhi hb, getLsbD_setf (by omega) hhi hb]
  by_cases hin : lo ≤ b ∧ b ≤ hi
  · rw [if_pos hin, if_pos hin]
  · rw [if_neg hin, if_neg hin, getLsbD_setf hlo' (by omega) hb, if_neg (by omega)]

/-- Setting a field to its own value, given as a field, changes nothing (41_bitfield_codec.md R119). -/
theorem setf_extractLsb_self (x : Word) {hi lo : Nat} (hlo : lo ≤ hi) (hhi : hi < 64) :
    setf x hi lo ((x.extractLsb hi lo).setWidth 64) = x := by
  apply BitVec.eq_of_getLsbD_eq
  intro b hb
  rw [getLsbD_setf hlo hhi hb]
  by_cases hin : lo ≤ b ∧ b ≤ hi
  · rw [if_pos hin, BitVec.getLsbD_setWidth, BitVec.getLsbD_extractLsb, decide_eq_true (by omega), decide_eq_true (by omega),
      Bool.true_and, Bool.true_and, Nat.add_sub_cancel' hin.1]
  · rw [if_neg hin]

/-! ### Adding inside the low bits -/

/-- An addition that does not carry out of the low n bits, bit by bit. -/
theorem getLsbD_add_low {x : Word} {k n b : Nat} (h : x.toNat % 2 ^ n + k < 2 ^ n) (hb : b < 64) :
    (x + BitVec.ofNat 64 k).getLsbD b = if b < n then (x.toNat % 2 ^ n + k).testBit b else x.getLsbD b := by
  have hsplit : x.toNat + k = 2 ^ n * (x.toNat / 2 ^ n) + (x.toNat % 2 ^ n + k) := by rw [← Nat.add_assoc, Nat.div_add_mod]
  rw [BitVec.getLsbD, BitVec.toNat_add, BitVec.toNat_ofNat, Nat.add_mod_mod, Nat.testBit_mod_two_pow, decide_eq_true hb, Bool.true_and,
    hsplit, Nat.testBit_two_pow_mul_add _ h]
  by_cases hbn : b < n
  · rw [if_pos hbn, if_pos hbn]
  · rw [if_neg hbn, if_neg hbn, Nat.testBit_div_two_pow, Nat.sub_add_cancel (Nat.le_of_not_lt hbn), BitVec.getLsbD]

/-- Two words that agree below bit n have the same low n bits as a number. -/
theorem toNat_mod_congr {x y : Word} {n : Nat} (h : ∀ b, b < n → x.getLsbD b = y.getLsbD b) : x.toNat % 2 ^ n = y.toNat % 2 ^ n := by
  simpa using field_eq_of_bits (a := 0) (b := 0) fun i hi => by simpa using h i hi

/-- A field is set above the bits that an addition without carry changes, before or after it. -/
theorem setf_add_low {x : Word} (v : Word) {k n hi lo : Nat} (hn : n ≤ lo) (hlo : lo ≤ hi) (hhi : hi < 64)
    (h : x.toNat % 2 ^ n + k < 2 ^ n) : setf (x + BitVec.ofNat 64 k) hi lo v = setf x hi lo v + BitVec.ofNat 64 k := by
  have hlow : (setf x hi lo v).toNat % 2 ^ n = x.toNat % 2 ^ n :=
    toNat_mod_congr fun b hb => by rw [getLsbD_setf hlo hhi (by omega), if_neg (by omega)]
  apply BitVec.eq_of_getLsbD_eq
  intro b hb
  rw [getLsbD_add_low (hlow ▸ h) hb, hlow, getLsbD_setf hlo hhi hb, getLsbD_setf hlo hhi hb, getLsbD_add_low h hb]
  by_cases hbn : b < n
  · rw [if_pos hbn, if_pos hbn, if_neg (by omega)]
  · rw [if_neg hbn, if_neg hbn]

end Sys2Proof.Machine

/-! SUPPORT. The pointer tweak: the bits of the slot's own address are masked out (45_pointer_codec.md R192). -/

namespace Sys2Proof.Machine

/-- The number of low address bits that the tweak of size z leaves out: those of the slot, or all 32 where z gives no slot of at most
4 GiB (45_pointer_codec.md R192). -/
def slotBits (mao : Nat) (z : BitVec 6) : Nat :=
  if 1 ≤ z.toNat + mao ∧ z.toNat + mao ≤ 33 then z.toNat + mao - 1 else 32

theorem slotBits_le (mao : Nat) (z : BitVec 6) : slotBits mao z ≤ 32 := by
  unfold slotBits
  split <;> omega

/-- Among the low 32 bits, `decode_size(z) - 1` has exactly the slot's own bits set (45_pointer_codec.md R192). -/
theorem getLsbD_sizeBytes_sub_one (mao : Nat) (z : BitVec 6) {b : Nat} (hb : b < 32) :
    (sizeBytes mao z - 1).getLsbD b = decide (b < slotBits mao z) := by
  rw [sizeBytes_eq]
  by_cases he : 1 ≤ z.toNat + mao ∧ z.toNat + mao ≤ 64
  · have hpow : 2 ^ (z.toNat + mao - 1) < 2 ^ 64 := Nat.pow_lt_pow_right (by decide) (by omega)
    have hsub : BitVec.ofNat 64 (2 ^ (z.toNat + mao - 1)) - 1 = BitVec.ofNat 64 (2 ^ (z.toNat + mao - 1) - 1) :=
      BitVec.ofNat_sub_ofNat_of_le _ 1 (by decide) (Nat.two_pow_pos _)
    rw [if_pos he, hsub, BitVec.getLsbD_ofNat, Nat.testBit_two_pow_sub_one, decide_eq_true (show b < 64 by omega), Bool.true_and,
      decide_eq_decide, slotBits]
    split <;> omega
  · have hall : (0 : Word) - 1 = BitVec.allOnes 64 := by decide
    rw [if_neg he, hall, BitVec.getLsbD_allOnes, decide_eq_decide, slotBits, if_neg (by omega)]
    omega

/-- The pointer tweak bit by bit: the address above the slot's own bits, then the size (45_pointer_codec.md R192). -/
theorem getLsbD_ptrTweak (mao : Nat) (x : Word) (z : BitVec 6) {b : Nat} (hb : b < 64) :
    (ptrTweak mao x z).getLsbD b = if b < 32 then decide (slotBits mao z ≤ b) && x.getLsbD b else z.getLsbD (b - 32) := by
  have hlow32 : (0xFFFFFFFF : Word).getLsbD b = decide (b < 32) := by
    rw [show (0xFFFFFFFF : Word) = BitVec.ofNat 64 (2 ^ 32 - 1) from rfl, BitVec.getLsbD_ofNat, Nat.testBit_two_pow_sub_one,
      decide_eq_true hb, Bool.true_and]
  simp only [ptrTweak, fixedMask32, BitVec.getLsbD_or, BitVec.getLsbD_and, BitVec.getLsbD_not, BitVec.getLsbD_shiftLeft,
    BitVec.getLsbD_setWidth, BitVec.getLsbD_extractLsb, hlow32, decide_eq_true hb]
  by_cases hb32 : b < 32
  · have hmask : (!decide (b < slotBits mao z)) = decide (slotBits mao z ≤ b) := by rw [← decide_not, decide_eq_decide, Nat.not_lt]
    rw [if_pos hb32, getLsbD_sizeBytes_sub_one mao z hb32, hmask]
    simp [hb32, Bool.and_comm]
  · simp [hb32, show b - 32 < 64 by omega]

/-- The tweak depends on the size and on the address bits above the slot's own (45_pointer_codec.md R192). -/
theorem ptrTweak_congr {mao : Nat} {x y : Word} {z : BitVec 6}
    (h : ∀ b, slotBits mao z ≤ b → b < 32 → x.getLsbD b = y.getLsbD b) : ptrTweak mao x z = ptrTweak mao y z := by
  apply BitVec.eq_of_getLsbD_eq
  intro b hb
  rw [getLsbD_ptrTweak mao x z hb, getLsbD_ptrTweak mao y z hb]
  by_cases hin : slotBits mao z ≤ b ∧ b < 32
  · rw [h b hin.1 hin.2]
  · by_cases hb32 : b < 32
    · rw [decide_eq_false (by omega), Bool.false_and, Bool.false_and]
    · rw [if_neg hb32, if_neg hb32]

/-- Fields set above bit 31 do not enter the tweak (45_pointer_codec.md R192). -/
theorem ptrTweak_setf (mao : Nat) (x v : Word) (z : BitVec 6) {hi lo : Nat} (h32 : 32 ≤ lo) (hlo : lo ≤ hi) (hhi : hi < 64) :
    ptrTweak mao (setf x hi lo v) z = ptrTweak mao x z :=
  ptrTweak_congr fun b _ hb => by rw [getLsbD_setf hlo hhi (by omega), if_neg (by omega)]

/-- The pointer tweak as a number (45_pointer_codec.md R192). -/
theorem toNat_ptrTweak (mao : Nat) (x : Word) (z : BitVec 6) :
    (ptrTweak mao x z).toNat = x.toNat % 2 ^ 32 / 2 ^ slotBits mao z * 2 ^ slotBits mao z + z.toNat * 2 ^ 32 := by
  have hz := z.isLt
  have hlow : x.toNat % 2 ^ 32 / 2 ^ slotBits mao z * 2 ^ slotBits mao z < 2 ^ 32 :=
    Nat.lt_of_le_of_lt (Nat.div_mul_le_self _ _) (Nat.mod_lt _ (by decide))
  apply Nat.eq_of_testBit_eq
  intro b
  rw [Nat.add_comm, Nat.mul_comm z.toNat, Nat.testBit_two_pow_mul_add _ hlow, Nat.testBit_mul_two_pow, Nat.testBit_div_two_pow,
    Nat.testBit_mod_two_pow]
  by_cases hb : b < 64
  · have hbit := getLsbD_ptrTweak mao x z hb
    rw [BitVec.getLsbD] at hbit
    rw [hbit]
    by_cases hb32 : b < 32
    · rw [if_pos hb32, if_pos hb32]
      by_cases hs : slotBits mao z ≤ b
      · simp [hs, hb32, Nat.sub_add_cancel hs, BitVec.getLsbD]
      · simp [hs]
    · rw [if_neg hb32, if_neg hb32, BitVec.getLsbD]
  · have hpow : (2 : Nat) ^ 64 ≤ 2 ^ b := Nat.pow_le_pow_right (by decide) (by omega)
    have hpow' : (2 : Nat) ^ 6 ≤ 2 ^ (b - 32) := Nat.pow_le_pow_right (by decide) (by omega)
    rw [if_neg (by omega), Nat.testBit_lt_two_pow (Nat.lt_of_lt_of_le (ptrTweak mao x z).isLt hpow),
      Nat.testBit_lt_two_pow (Nat.lt_of_lt_of_le hz hpow')]

/-- Settles O39: `toNat_ptrTweak`, where no bit of the address is left above 32. -/
theorem pointerTweakValue : Obligations.PointerTweakValue := by
  intro mao x z _
  dsimp only
  rw [toNat_ptrTweak, slotBits]
  by_cases he : 1 ≤ z.toNat + mao ∧ z.toNat + mao ≤ 32
  · rw [if_pos he, if_pos (by omega)]
  · have hbits : (if 1 ≤ z.toNat + mao ∧ z.toNat + mao ≤ 33 then z.toNat + mao - 1 else 32) = 32 := by split <;> omega
    rw [if_neg he, hbits, Nat.div_eq_of_lt (Nat.mod_lt _ (by decide)), Nat.zero_mul]

end Sys2Proof.Machine

/-! SUPPORT. The functions of the PointerCodec, field by field, and their laws (45_pointer_codec.md R191 to R199). -/

namespace Sys2Proof.Machine

/-! ### Metadata and decorated values -/

theorem toNat_mdSize (md : BitVec 16) : (mdSize md).toNat = md.toNat % 64 := by
  simp [mdSize]

theorem mdSize_packMd (adjust : Bool) (v : BitVec 9) (z : BitVec 6) : mdSize (packMd adjust v z) = z := by
  apply BitVec.eq_of_getLsbD_eq
  intro i hi
  rw [mdSize, packMd, BitVec.getLsbD_extractLsb, Nat.zero_add, decide_eq_true (by omega), Bool.true_and, BitVec.getLsbD_append,
    if_pos hi]

/-- `decorate` bit by bit (45_pointer_codec.md R191). -/
theorem getLsbD_decorate (a : Word) (md : BitVec 16) {b : Nat} (hb : b < 64) :
    (decorate a md).getLsbD b = if 56 ≤ b ∧ b ≤ 61 then md.getLsbD (b - 56)
      else if 47 ≤ b ∧ b ≤ 55 then md.getLsbD (b - 47 + 6) else a.getLsbD b := by
  rw [decorate, getLsbD_setf (by decide) (by decide) hb, getLsbD_setf (by decide) (by decide) hb]
  by_cases hsize : 56 ≤ b ∧ b ≤ 61
  · rw [if_neg (by omega), if_pos hsize, if_pos hsize]
    simp [mdSize, show b - 56 ≤ 5 by omega, show b - 56 < 64 by omega]
  · rw [if_neg hsize, if_neg hsize]
    by_cases hversion : 47 ≤ b ∧ b ≤ 55
    · rw [if_pos hversion, if_pos hversion]
      simp [mdVersion, show b - 47 ≤ 8 by omega, show b - 47 < 64 by omega, Nat.add_comm]
    · rw [if_neg hversion, if_neg hversion]

/-- A decorated value has the metadata's size as its enc_size (45_pointer_codec.md R191). -/
theorem encSize_decorate (a : Word) (md : BitVec 16) : (decorate a md).extractLsb 61 56 = mdSize md := by
  rw [decorate, extractLsb_setf_disjoint _ _ (by decide) (by decide) (by decide) (by decide) (by decide)]
  exact extractLsb_setf_same (hi := 61) (lo := 56) a (mdSize md) (by decide) (by decide)

theorem ptrTweak_decorate (mao : Nat) (a : Word) (md : BitVec 16) (z : BitVec 6) :
    ptrTweak mao (decorate a md) z = ptrTweak mao a z := by
  rw [decorate, ptrTweak_setf _ _ _ _ (by decide) (by decide) (by decide), ptrTweak_setf _ _ _ _ (by decide) (by decide) (by decide)]

/-! ### Plain addresses -/

/-- `undecorate` bit by bit (45_pointer_codec.md R194). -/
theorem getLsbD_undecorate (x : Word) {b : Nat} (hb : b < 64) :
    (undecorate x).getLsbD b = if 47 ≤ b then x.getLsbD 46 else x.getLsbD b := by
  have hrep : ∀ (s : Bool) (i : Fin 17), (rep17 s).getLsbD i.val = s := by decide
  rw [undecorate, getLsbD_setf (by decide) (by decide) hb]
  by_cases h : 47 ≤ b
  · rw [if_pos (by omega), if_pos h]
    exact hrep _ ⟨b - 47, by omega⟩
  · rw [if_neg (by omega), if_neg h]

/-- `undecorate` overwrites what `decorate` wrote (45_pointer_codec.md R194). -/
theorem undecorate_decorate (a : Word) (md : BitVec 16) : undecorate (decorate a md) = undecorate a := by
  apply BitVec.eq_of_getLsbD_eq
  intro b hb
  rw [getLsbD_undecorate _ hb, getLsbD_undecorate _ hb, getLsbD_decorate a md (by decide : 46 < 64), getLsbD_decorate a md hb]
  by_cases h : 47 ≤ b
  · rw [if_pos h, if_pos h, if_neg (by decide), if_neg (by decide)]
  · rw [if_neg h, if_neg h, if_neg (by omega), if_neg (by omega)]

/-- `undecorate` keeps exactly the addresses sign-extended from bit 46 (45_pointer_codec.md R199 (b)). -/
theorem undecorate_eq_self_iff (a : Word) : undecorate a = a ↔ ∀ b, 47 ≤ b → b < 64 → a.getLsbD b = a.getLsbD 46 := by
  constructor
  · intro h b hb hlt
    have hbit := getLsbD_undecorate a hlt
    rwa [h, if_pos hb] at hbit
  · intro h
    apply BitVec.eq_of_getLsbD_eq
    intro b hb
    rw [getLsbD_undecorate a hb]
    by_cases hb47 : 47 ≤ b
    · rw [if_pos hb47, h b hb47 hb]
    · rw [if_neg hb47]

/-- A field of the 17 bits that `undecorate` fills is a field of copies of bit 46 (45_pointer_codec.md R194). -/
theorem field_undecorate (x : Word) {lo n : Nat} (hlo : 47 ≤ lo) (hn : lo + n ≤ 64) :
    (undecorate x).toNat / 2 ^ lo % 2 ^ n = (rep17 (x.getLsbD 46)).toNat / 2 ^ (lo - 47) % 2 ^ n :=
  field_setf x _ hlo hn (by decide)

theorem isCanonical_undecorate (x : Word) : isCanonical (undecorate x) = true := by
  have hlt := (undecorate x).isLt
  have hfill : ∀ s : Bool, (rep17 s).toNat / 2 ^ 1 % 2 ^ 16 = 0 ∨ (rep17 s).toNat / 2 ^ 1 % 2 ^ 16 = 0xFFFF := by decide
  have htop := hfill (x.getLsbD 46)
  rw [← field_undecorate x (show 47 ≤ 48 by decide) (by decide), Nat.mod_eq_of_lt (by omega)] at htop
  rw [isCanonical_eq, decide_eq_true htop]

/-- A canonical address has enc_size 0 or 63 (41_bitfield_codec.md R117, 10_state.md R25). -/
theorem isCa_of_isCanonical {x : Word} (h : isCanonical x = true) : isCa x = false := by
  rw [isCanonical_eq, decide_eq_true_eq] at h
  rw [isCa_eq, decide_eq_false_iff_not]
  omega

theorem isCa_undecorate (x : Word) : isCa (undecorate x) = false :=
  isCa_of_isCanonical (isCanonical_undecorate x)

/-! ### The ciphertext field -/

theorem ctField_withCtField (x : Word) (b : Block) : ctField (withCtField x b) = b :=
  extractLsb_setf_same (hi := 55) (lo := 32) x b (by decide) (by decide)

theorem withCtField_withCtField (x : Word) (b b' : Block) : withCtField (withCtField x b) b' = withCtField x b' :=
  setf_setf_within x _ _ (by decide) (by decide) (by decide) (by decide)

theorem withCtField_ctField (x : Word) : withCtField x (ctField x) = x :=
  setf_extractLsb_self x (by decide) (by decide)

theorem encSize_withCtField (x : Word) (b : Block) : (withCtField x b).extractLsb 61 56 = x.extractLsb 61 56 :=
  extractLsb_setf_disjoint x _ (by decide) (by decide) (by decide) (by decide) (by decide)

theorem ptrTweak_withCtField (mao : Nat) (x : Word) (b : Block) (z : BitVec 6) :
    ptrTweak mao (withCtField x b) z = ptrTweak mao x z :=
  ptrTweak_setf mao x _ z (by decide) (by decide) (by decide)

/-! ### Encoding and decoding -/

section
variable (c : Config) (ks : KeySchedule)

/-- Decryption computes the tweak of the encryption again, and Dec undoes Enc (45_pointer_codec.md R199 (a)). -/
theorem decryptPtr_encryptPtr {x : Word} {md : BitVec 16} (h : mdSize md = x.extractLsb 61 56) :
    decryptPtr c ks (encryptPtr c ks x md) = x := by
  have hdec (b : Block) (t : Word) : tbcDec c.tbc ks (tbcEnc c.tbc ks b t) t = b := decWith_encWith c.tbc _ _ b
  rw [decryptPtr, encryptPtr, h, ctField_withCtField, encSize_withCtField, ptrTweak_withCtField, hdec, withCtField_withCtField,
    withCtField_ctField]

/-- What decoding recovers of an encoded address, for every size and version (45_pointer_codec.md R199 (b), (c)). -/
theorem decodePointer_encodePointer (a : Word) (md : BitVec 16) : decodePointer c ks (encodePointer c ks a md) = undecorate a := by
  rw [decodePointer, encodePointer, decryptPtr_encryptPtr c ks (encSize_decorate a md).symm, undecorate_decorate]

theorem encSize_encodePointer (a : Word) (md : BitVec 16) : (encodePointer c ks a md).extractLsb 61 56 = mdSize md := by
  rw [encodePointer, encryptPtr, encSize_withCtField, encSize_decorate]

/-- An encoded address is a CA exactly when its metadata's size is neither 0 nor 63 (10_state.md R25). -/
theorem isCa_encodePointer (a : Word) (md : BitVec 16) :
    isCa (encodePointer c ks a md) = true ↔ 1 ≤ (mdSize md).toNat ∧ (mdSize md).toNat ≤ 62 := by
  have hsize : (encodePointer c ks a md).toNat / 2 ^ 56 % 2 ^ 6 = (mdSize md).toNat := by
    rw [← encSize_encodePointer c ks a md, toNat_extractLsb]
  rw [isCa_eq, decide_eq_true_eq]
  omega

/-- The plaintext bits of an encoded address are the address's own (45_pointer_codec.md R193). -/
theorem encodePointer_mod (a : Word) (md : BitVec 16) {n : Nat} (hn : n ≤ 32) :
    (encodePointer c ks a md).toNat % 2 ^ n = a.toNat % 2 ^ n :=
  toNat_mod_congr fun b hb => by
    rw [encodePointer, encryptPtr, withCtField, getLsbD_setf (by decide) (by decide) (by omega), if_neg (by omega),
      getLsbD_decorate a md (by omega), if_neg (by omega), if_neg (by omega)]

/-- Adding inside the slot, before or after the decryption: the tweak and the ciphertext field stay (45_pointer_codec.md R199 (d)). -/
theorem decryptPtr_add {x : Word} {k : Nat}
    (h : x.toNat % 2 ^ slotBits c.mao (x.extractLsb 61 56) + k < 2 ^ slotBits c.mao (x.extractLsb 61 56)) :
    decryptPtr c ks (x + BitVec.ofNat 64 k) = decryptPtr c ks x + BitVec.ofNat 64 k := by
  have hle := slotBits_le c.mao (x.extractLsb 61 56)
  have hbit : ∀ b, slotBits c.mao (x.extractLsb 61 56) ≤ b → b < 64 → (x + BitVec.ofNat 64 k).getLsbD b = x.getLsbD b :=
    fun b hb hlt => by rw [getLsbD_add_low h hlt, if_neg (Nat.not_lt.mpr hb)]
  have hsize : (x + BitVec.ofNat 64 k).extractLsb 61 56 = x.extractLsb 61 56 :=
    extractLsb_congr (by decide) fun b _ _ => hbit b (by omega) (by omega)
  have hct : ctField (x + BitVec.ofNat 64 k) = ctField x :=
    extractLsb_congr (by decide) fun b _ _ => hbit b (by omega) (by omega)
  rw [decryptPtr, decryptPtr, hsize, hct, ptrTweak_congr fun b hb hlt => hbit b hb (by omega)]
  exact setf_add_low _ hle (by decide) (by decide) h

/-- Pointer arithmetic inside the slot (45_pointer_codec.md R199 (d)). -/
theorem decodePointer_add {x : Word} {k : Nat}
    (h : x.toNat % 2 ^ slotBits c.mao (x.extractLsb 61 56) + k < 2 ^ slotBits c.mao (x.extractLsb 61 56)) :
    decodePointer c ks (x + BitVec.ofNat 64 k) = decodePointer c ks x + BitVec.ofNat 64 k := by
  have hle := slotBits_le c.mao (x.extractLsb 61 56)
  have hmod : (decryptPtr c ks x).toNat % 2 ^ slotBits c.mao (x.extractLsb 61 56) =
      x.toNat % 2 ^ slotBits c.mao (x.extractLsb 61 56) :=
    toNat_mod_congr fun b hb => by
      rw [decryptPtr, withCtField, getLsbD_setf (by decide) (by decide) (by omega), if_neg (by omega)]
  have hd := hmod ▸ h
  rw [decodePointer, decodePointer, decryptPtr_add c ks h, undecorate, undecorate, getLsbD_add_low hd (by decide), if_neg (by omega)]
  exact setf_add_low _ (by omega) (by decide) (by decide) hd

end

/-- Settles O43: decoding an encoded address gives `undecorate` of the address; the size field tells a CA from a canonical address. -/
theorem pointerCodecLaws : Obligations.PointerCodecLaws := by
  intro c ks a md
  refine ⟨fun h => ?_, ?_, fun md' _ => ?_, fun k => ?_, fun h1 h62 hcanon heq => ?_⟩
  · refine decryptPtr_encryptPtr c ks (BitVec.eq_of_toNat_eq ?_)
    rw [toNat_mdSize, toNat_extractLsb]
    exact h
  · rw [decodePointer_encodePointer, undecorate_eq_self_iff]
  · rw [decodePointer_encodePointer, decodePointer_encodePointer]
  · dsimp only
    intro hk
    rw [← toNat_mdSize] at hk
    apply decodePointer_add
    rw [encSize_encodePointer, encodePointer_mod c ks a md (slotBits_le c.mao _)]
    exact hk
  · have hca : isCa a = true := heq ▸ (isCa_encodePointer c ks a md).mpr (toNat_mdSize md ▸ ⟨h1, h62⟩)
    rw [isCa_of_isCanonical ((isCanonical_eq a).trans (decide_eq_true hcanon))] at hca
    exact absurd hca (by decide)

/-- Settles O44: bits 63:47 of a decoded value are alike; a size class is 1 to 33. -/
theorem decodedIsPlainEncodedIsCa : Obligations.DecodedIsPlainEncodedIsCa := by
  refine ⟨fun x => ⟨isCanonical_undecorate x, isCa_undecorate x⟩, fun c ks a len sc v hsc => ?_⟩
  obtain ⟨b, hb, rfl, _⟩ := exists_slotExponent hsc
  have hz : (BitVec.ofNat 6 (b - c.mao + 1)).toNat = b - c.mao + 1 := Nat.mod_eq_of_lt (by omega)
  rw [isCa_encodePointer, mdSize_packMd, hz]
  omega

end Sys2Proof.Machine

/-! SUPPORT. The commands of the PointerCodec (45_pointer_codec.md R200 to R206). -/

namespace Sys2Proof.Machine

theorem exec_ptrDecorate {s : State} (hs : s.halted = false) :
    exec .ptrDecorate s = .next { s with r0 := decorate s.a0 (mdOperand s), r1 := 0, status := 0 } := by
  rw [exec, execPtrDecorate, unlessHalted_running hs, complete_plain]

theorem exec_ptrUndecorate {s : State} (hs : s.halted = false) :
    exec .ptrUndecorate s = .next { s with r0 := undecorate s.a0, r1 := 0, status := 0 } := by
  rw [exec, execPtrUndecorate, unlessHalted_running hs, complete_plain]

/-- Settles O40: the two functions bit by bit, the metadata being the low 16 bits of A1. -/
theorem decorateResults : Obligations.DecorateResults := by
  refine ⟨decode_encode .ptrDecorate, decode_encode .ptrUndecorate, fun s hs =>
    ⟨⟨_, exec_ptrDecorate hs, fun b hb => ?_⟩, _, exec_ptrUndecorate hs, fun b hb => getLsbD_undecorate s.a0 hb⟩⟩
  have hmd : ∀ i, i < 16 → (mdOperand s).getLsbD i = s.a1.getLsbD i := fun i hi => by
    rw [mdOperand_eq, BitVec.getLsbD_setWidth, decide_eq_true hi, Bool.true_and]
  rw [getLsbD_decorate _ _ hb]
  by_cases hsize : 56 ≤ b ∧ b ≤ 61
  · rw [if_pos hsize, if_pos hsize, hmd _ (by omega)]
  · by_cases hversion : 47 ≤ b ∧ b ≤ 55
    · rw [if_neg hsize, if_neg hsize, if_pos hversion, if_pos hversion, hmd _ (by omega)]
    · rw [if_neg hsize, if_neg hsize, if_neg hversion, if_neg hversion]

/-! ### The commands that run the cipher -/

theorem decryptPtrCached_halted (c : Config) (s : State) (x : Word) : (decryptPtrCached c s x).1.halted = s.halted :=
  fillCache_halted _ _ _

section
variable {s : State} (hc : CacheCoherent s)
include hc

/-- From a coherent cache the cached function is the uncached one, and the tweak's schedule is left in the cache
(43_tweak_cipher.md R157). -/
theorem encryptPtrCached_hw (x : Word) (md : BitVec 16) :
    encryptPtrCached Config.hw s x md =
      (holdingSchedule s (ptrTweak Config.hw.mao x (mdSize md)), encryptPtr Config.hw s.ks x md) := by
  rw [encryptPtrCached, encCached_hw hc, encryptPtr]

theorem decryptPtrCached_hw (x : Word) :
    decryptPtrCached Config.hw s x =
      (holdingSchedule s (ptrTweak Config.hw.mao x (x.extractLsb 61 56)), decryptPtr Config.hw s.ks x) := by
  rw [decryptPtrCached, decCached_hw hc, decryptPtr]

end

section
variable {s : State} (hs : s.halted = false) (hk : s.validAddr = true) (hc : CacheCoherent s)
include hs hk hc

theorem exec_ptrEncrypt :
    exec .ptrEncrypt s = .next (complete (holdingSchedule s (ptrTweak Config.hw.mao s.a0 (mdSize (mdOperand s))))
      (encryptPtr Config.hw s.ks s.a0 (mdOperand s)) 0) := by
  rw [exec, execPtrEncrypt, ptrEncryptUnder, unlessHalted_running hs, needKey_valid (k := .addrKey) hk, encryptPtrCached_hw hc]

theorem exec_ptrDecrypt :
    exec .ptrDecrypt s = .next (complete (holdingSchedule s (ptrTweak Config.hw.mao s.a0 (s.a0.extractLsb 61 56)))
      (decryptPtr Config.hw s.ks s.a0) 0) := by
  rw [exec, execPtrDecrypt, ptrDecryptUnder, unlessHalted_running hs, needKey_valid (k := .addrKey) hk, decryptPtrCached_hw hc]

theorem exec_ptrDecode :
    exec .ptrDecode s = .next (complete (holdingSchedule s (ptrTweak Config.hw.mao s.a0 (s.a0.extractLsb 61 56)))
      (decodePointer Config.hw s.ks s.a0) 0) := by
  rw [exec, execPtrDecode, ptrDecodeUnder, unlessHalted_running hs, needKey_valid (k := .addrKey) hk, decryptPtrCached_hw hc,
    decodePointer]

end

/-- The metadata operand as a number cut to its width (30_encoding.md R84). -/
theorem mdOperand_eq_ofNat (s : State) : mdOperand s = BitVec.ofNat 16 s.a1.toNat := by
  rw [mdOperand_eq, BitVec.ofNat_toNat]

/-- The size of the metadata operand is the low 6 bits of A1 (10_state.md R26). -/
theorem mdSize_mdOperand (s : State) : mdSize (mdOperand s) = BitVec.ofNat 6 s.a1.toNat := by
  apply BitVec.eq_of_toNat_eq
  rw [toNat_mdSize, mdOperand_eq_ofNat, BitVec.toNat_ofNat, BitVec.toNat_ofNat]
  omega

/-- The enc_size field as a number cut to its width (10_state.md R24). -/
theorem encSize_eq_ofNat (x : Word) : x.extractLsb 61 56 = BitVec.ofNat 6 (x.toNat / 2 ^ 56) := by
  apply BitVec.eq_of_toNat_eq
  rw [toNat_extractLsb, BitVec.toNat_ofNat]

/-- Settles O41: neither check refuses, and the cached functions are the uncached ones. -/
theorem pointerCommandResults : Obligations.PointerCommandResults := by
  refine ⟨decode_encode .ptrEncrypt, decode_encode .ptrDecrypt, decode_encode .ptrEncode, decode_encode .ptrDecode,
    fun s hs hk hc => ?_⟩
  dsimp only
  rw [← mdOperand_eq_ofNat, ← mdSize_mdOperand, ← encSize_eq_ofNat]
  refine ⟨?_, ?_, ?_, ?_⟩
  · rw [exec_ptrEncrypt hs hk hc, complete_plain]
  · rw [exec_ptrDecrypt hs hk hc, complete_plain]
  · rw [exec_ptrEncode hs hk hc, ptrTweak_decorate, complete_plain]
  · rw [exec_ptrDecode hs hk hc, complete_plain]

/-! ### PTR_DECODE_IF -/

section
variable {s : State} (hs : s.halted = false)
include hs

/-- PTR_DECODE_IF of a plain address (45_pointer_codec.md R206). -/
theorem exec_ptrDecodeIf_plain (hplain : isCa s.a0 = false) :
    exec .ptrDecodeIf s = .next { s with r0 := s.a0, r1 := 0, status := 0 } := by
  rw [exec, execPtrDecodeIf, ptrDecodeIfUnder, unlessHalted_running hs, hplain, if_neg Bool.false_ne_true, complete_plain]

/-- PTR_DECODE_IF of a CA with a valid key, whatever the cache holds (45_pointer_codec.md R206). -/
theorem exec_ptrDecodeIf_keyed (hca : isCa s.a0 = true) (hk : s.validAddr = true) :
    exec .ptrDecodeIf s = .next { (decryptPtrCached Config.hw s s.a0).1 with
      r0 := undecorate (decryptPtrCached Config.hw s s.a0).2, r1 := 1, status := 0 } := by
  rw [exec, execPtrDecodeIf, ptrDecodeIfUnder, unlessHalted_running hs, if_pos hca, needKey_valid (k := .addrKey) hk]
  exact congrArg Host.Outcome.next (complete_plain _ _ _)

/-- Where PTR_DECODE_IF completes, R0 is a plain address, and the engine is not halted (45_pointer_codec.md R198, R206). -/
theorem ptrDecodeIf_leaves_plain {t : State} (hexec : exec .ptrDecodeIf s = .next t) (hok : t.status.toNat % 256 = 0) :
    t.halted = false ∧ isCa t.r0 = false := by
  cases hca : isCa s.a0
  · rw [exec_ptrDecodeIf_plain hs hca] at hexec
    obtain rfl := Host.Outcome.next.inj hexec
    exact ⟨hs, hca⟩
  · cases hk : s.validAddr
    · rw [refused_of_missing_key (k := .addrKey) hs hk (exec_ptrDecodeIf_ca hca)] at hexec
      obtain rfl := Host.Outcome.next.inj hexec
      exact absurd (show (4 : BitVec 63).toNat % 256 = 0 from hok) (by decide)
    · rw [exec_ptrDecodeIf_keyed hs hca hk] at hexec
      obtain rfl := Host.Outcome.next.inj hexec
      exact ⟨(decryptPtrCached_halted Config.hw s s.a0).trans hs, isCa_undecorate _⟩

end

/-- Settles O42: a CA by its enc_size; what a completed run leaves in R0 is a plain address again. -/
theorem decodeIfResult : Obligations.DecodeIfResult := by
  refine ⟨decode_encode .ptrDecodeIf, fun s hs => ⟨fun hplain => ?_, fun h0 h63 hk hc => ?_⟩, fun s t hs hexec hok => ?_⟩
  · exact exec_ptrDecodeIf_plain hs (by rw [isCa_eq, decide_eq_false_iff_not]; omega)
  · have hsize : BitVec.ofNat 6 (s.a0.toNat / 2 ^ 56 % 64) = s.a0.extractLsb 61 56 :=
      BitVec.eq_of_toNat_eq (((BitVec.toNat_ofNat _ 6).trans (Nat.mod_mod _ 64)).trans (toNat_extractLsb s.a0 61 56).symm)
    rw [exec_ptrDecodeIf_keyed hs (by rw [isCa_eq, decide_eq_true_eq]; exact ⟨h0, h63⟩) hk, decryptPtrCached_hw hc, hsize, decodePointer]
  · obtain ⟨hrun, hplain⟩ := ptrDecodeIf_leaves_plain hs hexec hok
    exact exec_ptrDecodeIf_plain (s := { t with a0 := t.r0 }) hrun hplain

end Sys2Proof.Machine

/-! SUPPORT. The DataCipher: the keystream byte of an address, the mask byte by byte, and the command DATA_MASK (46_data_cipher.md R210
to R213). -/

namespace Sys2Proof.Machine

/-! ### The keystream -/

theorem toNat_and_seven (a : Word) : (a &&& 7).toNat = a.toNat % 8 := by
  rw [BitVec.toNat_and]
  exact Nat.and_two_pow_sub_one_eq_mod a.toNat 3

/-- An address without its low three bits is the address of its 8-byte word. -/
theorem and_wordMask (a : Word) : a &&& 0xFFFFFFFFFFFFFFF8 = BitVec.ofNat 64 (a.toNat / 8 * 8) := by
  have hmask : ∀ i < 64, (0xFFFFFFFFFFFFFFF8 : Word).getLsbD i = decide (3 ≤ i) := by decide
  have hshift : a &&& (0xFFFFFFFFFFFFFFF8 : Word) = a >>> 3 <<< 3 := by
    apply BitVec.eq_of_getLsbD_eq
    intro i hi
    rw [BitVec.getLsbD_and, hmask i hi, BitVec.getLsbD_shiftLeft, BitVec.getLsbD_ushiftRight]
    by_cases h : 3 ≤ i
    · simp [h, hi, Nat.add_sub_cancel' h]
    · simp [h, Nat.lt_of_not_le h]
  apply BitVec.eq_of_toNat_eq
  rw [hshift, BitVec.toNat_shiftLeft, BitVec.toNat_ushiftRight, Nat.shiftRight_eq_div_pow, Nat.shiftLeft_eq, BitVec.toNat_ofNat]

/-- The keystream byte with the address as a number (46_data_cipher.md R211). -/
theorem keystreamByte_eq (c : PrfParams) (key : DataKey) (ba : Word) :
    keystreamByte c key ba = (stream c (BitVec.ofNat 64 (ba.toNat / 8 * 8)) key).extractLsb' (8 * (ba.toNat % 8)) 8 := by
  rw [keystreamByte, byteOf, toNat_and_seven, and_wordMask]

/-! ### The mask -/

theorem add_one_add_ofNat (a : Word) (n : Nat) : a + 1 + BitVec.ofNat 64 n = a + BitVec.ofNat 64 (n + 1) := by
  rw [BitVec.add_assoc, BitVec.add_comm 1]
  exact congrArg (a + ·) (BitVec.ofNat_add n 1).symm

/-- Byte i of a masked sequence depends on byte i and on its address alone (46_data_cipher.md R211). -/
theorem getD_maskBytes (c : PrfParams) (key : DataKey) (a : Word) {d : List Byte} {i : Nat} (hi : i < d.length) :
    (maskBytes c key a d).getD i 0 = d.getD i 0 ^^^ keystreamByte c key (a + BitVec.ofNat 64 i) := by
  induction d generalizing a i with
  | nil => exact absurd hi (Nat.not_lt_zero i)
  | cons b d ih =>
    cases i with
    | zero => simp [maskBytes]
    | succ i =>
      rw [maskBytes, List.getD_cons_succ, List.getD_cons_succ, ih (a + 1) (Nat.lt_of_succ_lt_succ hi), add_one_add_ofNat]

/-- Masking twice from one address restores the bytes (46_data_cipher.md R213). -/
theorem maskBytes_maskBytes (c : PrfParams) (key : DataKey) (a : Word) (d : List Byte) :
    maskBytes c key a (maskBytes c key a d) = d := by
  induction d generalizing a with
  | nil => rfl
  | cons b d ih => rw [maskBytes, maskBytes, ih, BitVec.xor_assoc, BitVec.xor_self, BitVec.xor_zero]

/-- A range is masked in one call as in two (46_data_cipher.md R213). -/
theorem maskBytes_append (c : PrfParams) (key : DataKey) (a : Word) (d e : List Byte) :
    maskBytes c key a (d ++ e) = maskBytes c key a d ++ maskBytes c key (a + BitVec.ofNat 64 d.length) e := by
  induction d generalizing a with
  | nil => simp [maskBytes]
  | cons b d ih => rw [List.cons_append, maskBytes, maskBytes, ih, List.length_cons, add_one_add_ofNat, List.cons_append]

/-- Byte i of a masked sequence, with the wrapping address as a number (46_data_cipher.md R210, R211). -/
theorem getD_maskBytes_stream (c : PrfParams) (key : DataKey) (a : Word) {d : List Byte} {i : Nat} (hi : i < d.length) :
    let ba := (a.toNat + i) % 2 ^ 64
    (maskBytes c key a d).getD i 0 =
      d.getD i 0 ^^^ (stream c (BitVec.ofNat 64 (ba / 8 * 8)) key).extractLsb' (8 * (ba % 8)) 8 := by
  have haddr : (a + BitVec.ofNat 64 i).toNat = (a.toNat + i) % 2 ^ 64 := by
    rw [BitVec.toNat_add, BitVec.toNat_ofNat, Nat.add_mod_mod]
  rw [getD_maskBytes c key a hi, keystreamByte_eq, haddr]

/-- Settles O37: the mask is a recursion on the bytes, so each law is an induction on them. -/
theorem dataMaskLaws : Obligations.DataMaskLaws := fun c key a d e =>
  ⟨maskBytes_length c key a d, fun _ hi => getD_maskBytes_stream c key a hi, maskBytes_maskBytes c key a d,
    maskBytes_append c key a d e⟩

/-! ### DATA_MASK -/

theorem memRead_length (s : State) (off n : Nat) : (memRead s off n).length = n := by
  rw [memRead, List.length_map, List.length_range]

theorem getD_memRead (s : State) (off : Nat) {n i : Nat} (hi : i < n) : (memRead s off n).getD i 0 = cellsRead s.dbuf (off + i) := by
  simp [memRead, hi]

/-- DBUF with its first A1 bytes masked (46_data_cipher.md R212). -/
def maskedDbuf (key : DataKey) (s : State) : Memory :=
  writeBytes s.dbuf 0 (maskBytes Config.hw.prf key s.a0 (memRead s 0 s.a1.toNat))

/-- DATA_MASK of at most 128 bytes under a valid key (46_data_cipher.md R212). -/
theorem exec_dataMask {s : State} {k : KeySlot} {key : DataKey} (hs : s.halted = false) (hlen : s.a1.toNat ≤ 128)
    (hkey : dataKey s k = some key) (hk : keyValid s k = true) :
    exec (.dataMask k) s = .next { s with dbuf := maskedDbuf key s, r0 := s.a1, r1 := 0, status := 0 } := by
  rw [exec, execDataMask, dataMaskUnder, unlessHalted_running hs, hkey]
  dsimp only
  rw [if_neg (Nat.not_lt.mpr hlen), needKey_valid hk, complete_plain]
  rfl

section
variable {s : State} (key : DataKey) (hwf : Memory.wf s.dbuf = true) (hlen : s.a1.toNat ≤ 128)
include hwf hlen

theorem maskedDbuf_wf : Memory.wf (maskedDbuf key s) = true :=
  cellsWf_writeBytes _ hwf (by rw [maskBytes_length, memRead_length]; omega)

/-- The bytes below A1 are masked by their addresses from A0 on, the others stay (46_data_cipher.md R211, R212). -/
theorem cellsRead_maskedDbuf (i : Nat) :
    cellsRead (maskedDbuf key s) i = if i < s.a1.toNat then
        let ba := (s.a0.toNat + i) % 2 ^ 64
        cellsRead s.dbuf i ^^^ (stream Config.hw.prf (BitVec.ofNat 64 (ba / 8 * 8)) key).extractLsb' (8 * (ba % 8)) 8
      else cellsRead s.dbuf i := by
  have hbytes : (maskBytes Config.hw.prf key s.a0 (memRead s 0 s.a1.toNat)).length = s.a1.toNat := by
    rw [maskBytes_length, memRead_length]
  rw [maskedDbuf, cellsRead_writeBytes (n := 128) _ hwf (by omega), hbytes, Nat.zero_add, Nat.sub_zero]
  by_cases hi : i < s.a1.toNat
  · rw [if_pos ⟨Nat.zero_le i, hi⟩, if_pos hi, getD_maskBytes_stream _ _ _ (by rwa [memRead_length]), getD_memRead s 0 hi, Nat.zero_add]
  · rw [if_neg fun h => hi h.2, if_neg hi]

end

/-- Settles O38: no check refuses, and the bytes written back are the masked bytes read. -/
theorem dataMaskResult : Obligations.DataMaskResult :=
  ⟨decode_encode (.dataMask .sharedKey), decode_encode (.dataMask .privateKey), decode_encode (.dataMask .codeKey),
    fun s _ key hs hwf hlen hkey hk =>
      ⟨maskedDbuf key s, maskedDbuf_wf key hwf hlen, cellsRead_maskedDbuf key hwf hlen, exec_dataMask hs hlen hkey hk⟩⟩

end Sys2Proof.Machine

/-! SUPPORT. Fingerprint, match and refresh of an entry as numbers and bit by bit (47_integrity_map.md R224 to R227). -/

namespace Sys2Proof.Machine

/-! ### The fingerprint -/

/-- A CA is a value whose enc_size is neither 0 nor 63, as a proposition (10_state.md R25). -/
theorem isCa_iff (x : Word) : isCa x = true ↔ ¬(x.toNat / 2 ^ 56 % 64 = 0 ∨ x.toNat / 2 ^ 56 % 64 = 63) := by
  rw [isCa_eq, decide_eq_true_eq, not_or]

/-- The fingerprint as a number: a CA without its low three bits, 0 for every other pointer (47_integrity_map.md R224). -/
theorem toNat_fingerprint (x : Word) :
    (fingerprint x).toNat = if x.toNat / 2 ^ 56 % 64 = 0 ∨ x.toNat / 2 ^ 56 % 64 = 63 then 0 else x.toNat / 8 * 8 := by
  rw [fingerprint]
  by_cases h : isCa x = true
  · rw [if_pos h, if_neg ((isCa_iff x).mp h), addrMask, and_wordMask, BitVec.toNat_ofNat]
    omega
  · rw [if_neg h, if_pos (not_not.mp (mt (isCa_iff x).mpr h))]
    rfl

theorem getLsbD_addrMask {b : Nat} (hb : b < 64) : addrMask.getLsbD b = decide (3 ≤ b) := by
  revert b
  decide

theorem getLsbD_fingerprint (x : Word) {b : Nat} (hb : b < 64) :
    (fingerprint x).getLsbD b = (x.getLsbD b && decide (3 ≤ b) && isCa x) := by
  rw [fingerprint]
  cases isCa x <;> simp [getLsbD_addrMask hb]

/-! ### The match rule -/

/-- A pointer matches an entry exactly when bits 63:3 of the entry are its fingerprint's (47_integrity_map.md R226). -/
theorem ptrMatches_iff (x old : Word) :
    ptrMatches x old = true ↔
      old.toNat / 8 = if x.toNat / 2 ^ 56 % 64 = 0 ∨ x.toNat / 2 ^ 56 % 64 = 63 then 0 else x.toNat / 8 := by
  have hold := old.isLt
  rw [ptrMatches, beq_iff_eq, ← BitVec.toNat_inj, toNat_fingerprint, addrMask, and_wordMask, BitVec.toNat_ofNat]
  split <;> omega

/-- Settles O45: with bits 63:3 compared as numbers, an absent entry has enc_size 0 and the sentinel has enc_size 63, so no CA has their
bits, and the sentinel's bits are not zero. -/
theorem matchRule : Obligations.MatchRule := by
  intro x old size
  refine ⟨ptrMatches_iff x old, fun hplain => ?_, fun h0 h63 => ?_, ?_⟩
  · rw [ptrMatches_iff, if_pos hplain]
    omega
  · rw [Bool.eq_false_iff, ne_eq, ptrMatches_iff, if_neg (not_or.mpr ⟨h0, h63⟩), show (0 : Word).toNat = 0 from rfl]
    omega
  · have hones : (0xFFFFFFFFFFFFFFFF : Word).toNat = 2 ^ 64 - 1 := rfl
    rw [Bool.eq_false_iff, ne_eq, ptrMatches_iff, hones]
    split <;> omega

/-! ### The refresh rule -/

/-- The flag bits that a refresh stores: the old ones, but a write under PREINIT clears INIT_N (47_integrity_map.md R227). -/
theorem getLsbD_refresh (old x : Word) (kind : AccessKind) {b : Nat} (hb : b < 64) :
    (refresh old x kind).getLsbD b =
      if 3 ≤ b then x.getLsbD b && isCa x
      else if b = 1 ∧ kind = .write ∧ old.getLsbD 2 = true then false
      else old.getLsbD b := by
  have hmask : ∀ b < 64, (0b101 : Word).getLsbD b = (decide (b = 0) || decide (b = 2)) := by decide
  have hflags : ((old.extractLsb 2 0).setWidth 64 : Word).getLsbD b = (old.getLsbD b && decide (b < 3)) := by
    rw [BitVec.getLsbD_setWidth, BitVec.getLsbD_extractLsb]
    simp [hb, Bool.and_comm, Nat.lt_succ_iff]
  rw [refresh, BitVec.getLsbD_or, getLsbD_fingerprint x hb, entryPreinit]
  by_cases hpre : kind = .write ∧ old.getLsbD 2 = true
  · rw [if_pos hpre, BitVec.getLsbD_and, hflags, hmask b hb]
    obtain rfl | rfl | rfl | h3 : b = 0 ∨ b = 1 ∨ b = 2 ∨ 3 ≤ b := by omega
    · simp
    · simp [hpre]
    · simp
    · simp [h3, show ¬b < 3 by omega]
  · rw [if_neg hpre, hflags, if_neg (c := b = 1 ∧ _) (fun h => hpre h.2)]
    by_cases h3 : 3 ≤ b
    · simp [h3, show ¬b < 3 by omega]
    · simp [h3, show b < 3 by omega]

/-- Settles O46. -/
theorem refreshRule : Obligations.RefreshRule := by
  intro old x kind b hb
  rw [getLsbD_refresh old x kind hb, isCa_eq]

/-- What an access stored matches its pointer (47_integrity_map.md R226, R227). -/
theorem ptrMatches_refresh (old x : Word) (kind : AccessKind) : ptrMatches x (refresh old x kind) = true := by
  rw [ptrMatches, beq_iff_eq]
  apply BitVec.eq_of_getLsbD_eq
  intro b hb
  rw [BitVec.getLsbD_and, getLsbD_addrMask hb, getLsbD_refresh old x kind hb, getLsbD_fingerprint x hb]
  by_cases h3 : 3 ≤ b <;> simp [h3]

end Sys2Proof.Machine

/-! SUPPORT. The commands that store, read or correct one entry (47_integrity_map.md R230 to R236). -/

namespace Sys2Proof.Machine

/-! ### Operands -/

theorem granuleIndex_eq (a : Word) : granuleIndex a = a.toNat / 8 := by
  rw [granuleIndex, BitVec.toNat_ushiftRight, Nat.shiftRight_eq_div_pow]

theorem indexOperand_eq (s : State) : indexOperand s = s.a0.toNat % 2 ^ 61 := by
  rw [indexOperand, toNat_extractLsb, Nat.pow_zero, Nat.div_one]

/-- Address bits and flag bits share no bit, so a word made of them is their sum. -/
theorem or_low_bits (a : Nat) {k : Nat} (hk : k < 8) :
    BitVec.ofNat 64 (a * 8) ||| BitVec.ofNat 64 k = BitVec.ofNat 64 (a * 8 + k) := by
  rw [← BitVec.ofNat_or, Nat.mul_comm, Nat.two_pow_add_eq_or_of_lt (i := 3) hk a]

/-! ### Storing one entry -/

/-- A command that stores one entry, while the engine is not halted (47_integrity_map.md R223, R230). -/
theorem storeEntry_running {s : State} (hs : s.halted = false) (i : Nat) (v : Word) :
    storeEntry Config.hw s i v = underCapacity s { s with icv := cellsWrite s.icv i v, r0 := 0, r1 := 0, status := 0 } := by
  rw [storeEntry, unlessHalted_running hs, ifIcvFits_hw, complete_plain]
  rfl

/-- A command whose meaning is `storeEntry`, with the map it leaves given entry by entry. -/
theorem exists_map_of_storeEntry {c : Instr} {s : State} {i : Nat} {v : Word} (hs : s.halted = false) (hw : icvWf s.icv = true)
    (hi : i < 2 ^ 61) (hc : exec c s = .next (storeEntry Config.hw s i v)) :
    ∃ m : IcvMap, icvWf m = true ∧ (∀ j, cellsRead m j = if j = i then v else cellsRead s.icv j) ∧
      exec c s = .next (underCapacity s { s with icv := m, r0 := 0, r1 := 0, status := 0 }) :=
  ⟨cellsWrite s.icv i v, cellsWf_write v hw hi, fun _ => cellsRead_write v hw, by rw [hc, storeEntry_running hs]⟩

/-- The fingerprint as ICV_INIT stores it (47_integrity_map.md R234). -/
theorem fingerprint_eq (x : Word) :
    fingerprint x =
      BitVec.ofNat 64 (if x.toNat / 2 ^ 56 % 64 = 0 ∨ x.toNat / 2 ^ 56 % 64 = 63 then 0 else x.toNat / 8 * 8) := by
  rw [← toNat_fingerprint, BitVec.ofNat_toNat, BitVec.setWidth_eq]

/-- The fingerprint with PREINIT and INIT_N set, as ICV_PREINIT stores it (47_integrity_map.md R235). -/
theorem fingerprint_or_six (x : Word) :
    fingerprint x ||| 0b110 =
      BitVec.ofNat 64 ((if x.toNat / 2 ^ 56 % 64 = 0 ∨ x.toNat / 2 ^ 56 % 64 = 63 then 0 else x.toNat / 8 * 8) + 6) := by
  rw [fingerprint_eq]
  split
  · rfl
  · exact or_low_bits _ (by decide)

/-- Settles O48: the four commands are one store with four indices and values. -/
theorem entryStoreResults : Obligations.EntryStoreResults := by
  refine ⟨decode_encode .icvSet, decode_encode .icvInit, decode_encode .icvPreinit, decode_encode .icvInvalidate,
    fun s hs hw => ?_⟩
  intro size fp row hrow
  have hgranule := granuleIndex_lt s.a0
  rw [granuleIndex_eq] at hgranule
  simp only [List.mem_cons, List.not_mem_nil, or_false] at hrow
  rcases hrow with rfl | rfl | rfl | rfl
  · refine exists_map_of_storeEntry hs hw (Nat.mod_lt _ (Nat.two_pow_pos 61)) ?_
    rw [← indexOperand_eq]
    rfl
  · refine exists_map_of_storeEntry hs hw hgranule ?_
    rw [← granuleIndex_eq, ← fingerprint_eq]
    rfl
  · refine exists_map_of_storeEntry hs hw hgranule ?_
    rw [← granuleIndex_eq, ← fingerprint_or_six]
    rfl
  · refine exists_map_of_storeEntry hs hw hgranule ?_
    rw [← granuleIndex_eq]
    rfl

/-- STATUS of a command that completes: its flags alone (10_state.md R28). -/
theorem statusWord_ok_flags (f : StatusFlags) : statusWord .ok f = BitVec.ofNat 63
    ((if f.notBoxable = true then 2 ^ 8 else 0) + (if f.mismatch = true then 2 ^ 9 else 0) + (if f.uninitRead = true then 2 ^ 10 else 0) +
      (if f.mixed = true then 2 ^ 11 else 0) + (if f.corrected = true then 2 ^ 12 else 0)) := by
  rw [statusWord_eq, show (codeBits .ok).toNat = 0 from rfl, Nat.zero_add]

/-! ### Reading and correcting one entry -/

/-- Settles O50. -/
theorem entryGetResult : Obligations.EntryGetResult := by
  refine ⟨decode_encode .icvGet, fun s hs => ?_⟩
  rw [exec, execIcvGet, unlessHalted_running hs, complete_plain, indexOperand_eq, icvRead]

/-- The corrected pointer: bits 63:3 of the entry with the pointer's low three bits (47_integrity_map.md R236). -/
theorem corrected_eq (x old : Word) :
    (old &&& addrMask) ||| (x &&& 7) = BitVec.ofNat 64 (old.toNat / 8 * 8 + x.toNat % 8) := by
  have hlow : x &&& 7 = BitVec.ofNat 64 (x.toNat % 8) := by
    rw [← toNat_and_seven, BitVec.ofNat_toNat, BitVec.setWidth_eq]
  rw [addrMask, and_wordMask, hlow, or_low_bits _ (Nat.mod_lt _ (by decide))]

/-- The corrected pointer passes a retry when the stored bits are a CA's or zero (47_integrity_map.md R236). -/
theorem ptrMatches_corrected {x old : Word} (h : isCa old = true ∨ old.toNat / 8 = 0) :
    ptrMatches (BitVec.ofNat 64 (old.toNat / 8 * 8 + x.toNat % 8)) old = true := by
  have hold := old.isLt
  rw [ptrMatches_iff, BitVec.toNat_ofNat]
  rw [isCa_iff] at h
  split <;> omega

/-- ICV_CORRECT while the engine is not halted (47_integrity_map.md R236). -/
theorem exec_icvCorrect {s : State} (hs : s.halted = false) :
    let old := cellsRead s.icv (s.a1.toNat / 8)
    let fix := !ptrMatches s.a0 old && correctOnFail s
    exec .icvCorrect s = .next (complete s (if fix = true then (old &&& addrMask) ||| (s.a0 &&& 7) else s.a0) old
      { mismatch := !ptrMatches s.a0 old, corrected := fix }) := by
  rw [exec, execIcvCorrect, unlessHalted_running hs, granuleIndex_eq]
  rfl

/-- Settles O52: the two flags decide the result, and the sentinel matches nothing. -/
theorem correctResult : Obligations.CorrectResult := by
  refine ⟨decode_encode .icvCorrect, fun s hs => ?_, fun x old => ⟨ptrMatches_corrected, ?_⟩⟩
  · intro old mis fixed
    have hmis : (!ptrMatches s.a0 old) = decide mis := by simp [mis]
    have hfix : ((!ptrMatches s.a0 old) && correctOnFail s) = decide fixed := by simp [fixed, mis, correctOnFail]
    have hstatus : statusWord .ok { mismatch := decide mis, corrected := decide fixed } =
        BitVec.ofNat 63 ((if mis then 2 ^ 9 else 0) + (if fixed then 2 ^ 12 else 0)) := by
      simp [statusWord_ok_flags]
    rw [exec_icvCorrect hs, hfix, hmis, complete, hstatus, corrected_eq]
    simp only [decide_eq_true_eq, old]
  · rintro rfl
    exact (matchRule _ 0).2.2.2

end Sys2Proof.Machine

/-! SUPPORT. The checking commands: their reports, bitmaps and flags, and the end of a command that reported under Break
(47_integrity_map.md R228, R232, R240 to R243, 60_exceptions.md R285, R286). -/

namespace Sys2Proof.Machine

/-! ### The end of a checking command -/

theorem granuleAddress_eq (i : Nat) : granuleAddress i = BitVec.ofNat 64 (8 * i) := by
  apply BitVec.eq_of_toNat_eq
  rw [granuleAddress, BitVec.toNat_shiftLeft, BitVec.toNat_ofNat, BitVec.toNat_ofNat, Nat.shiftLeft_eq]
  omega

theorem reportAll_halted (s : State) (rs : List Report) : (reportAll s rs).halted = s.halted := by
  rw [reportAll_frame]

/-- The last act of a command that ran: HALTED is what the command asked for (60_exceptions.md R285). -/
theorem haltIf_complete {s : State} (hs : s.halted = false) (b : Bool) (r0 r1 : Word) (f : StatusFlags) :
    haltIf b (complete s r0 r1 f) = { s with r0 := r0, r1 := r1, status := statusWord .ok f, halted := b } := by
  cases b
  · simp [haltIf, complete, hs]
  · rfl

/-! ### ICV_CHECK_OR_SET -/

/-- The reports of one granule made one after the other, the second on the state the first left (47_integrity_map.md R228). -/
theorem reportAll_granule (s : State) (i : Nat) (x : Word) (mis uni : Bool) :
    let rs : List Report := (if mis = true then [⟨.mismatch, i, x⟩] else []) ++ (if uni = true then [⟨.uninit, i, x⟩] else [])
    let afterMis := if mis = true then report s .mismatch (BitVec.ofNat 64 (8 * i)) x else (s, false)
    let afterUni := if uni = true then report afterMis.1 .uninit (BitVec.ofNat 64 (8 * i)) x else (afterMis.1, false)
    reportAll s rs = afterUni.1 ∧ (rs.any fun r => decide (policyFor s r.kind = .brk)) = (afterMis.2 || afterUni.2) := by
  cases mis <;> cases uni <;> simp [reportAll, granuleAddress_eq, report_break, policyFor_report]

/-- A granule step's state: its reports, and the map with the granule refreshed where the step stores (47_integrity_map.md R228). -/
theorem granuleStep_st (s : State) (i : Nat) (x : Word) (kind : AccessKind) :
    (granuleStep s i x kind).st = { reportAll s (reportsAt s i x kind) with
      icv := if stores s kind = true then cellsWrite s.icv i (refresh (icvRead s i) x kind) else s.icv } := by
  rw [granuleStep_eq]
  dsimp only
  split
  · rw [icvWrite, reportAll_icv]
  · rw [← reportAll_icv s (reportsAt s i x kind)]

theorem granuleStep_brk (s : State) (i : Nat) (x : Word) (kind : AccessKind) :
    (granuleStep s i x kind).brk = (reportsAt s i x kind).any fun r => decide (policyFor s r.kind = .brk) := by
  rw [granuleStep_eq]

theorem granuleStep_mismatch (s : State) (i : Nat) (x : Word) (kind : AccessKind) :
    (granuleStep s i x kind).mismatch = missAt s i x := by
  rw [granuleStep_eq]

theorem granuleStep_uninit (s : State) (i : Nat) (x : Word) (kind : AccessKind) :
    (granuleStep s i x kind).uninit = uninitAt s i kind := by
  rw [granuleStep_eq]

/-- The outcome bits of ICV_CHECK_OR_SET as the number in R0 (47_integrity_map.md R232). -/
theorem outcomeWord_eq (uni mis : Bool) :
    (BitVec.ofBool uni ++ BitVec.ofBool mis).setWidth 64 =
      BitVec.ofNat 64 ((if mis = true then 1 else 0) + (if uni = true then 2 else 0)) := by
  cases uni <;> cases mis <;> rfl

theorem stores_iff (s : State) (kind : AccessKind) : stores s kind = true ↔ s.icvCtrl.getLsbD 0 = false ∨ kind = .write := by
  simp [stores, lockEnabled]

/-- ICV_CHECK_OR_SET while the engine is not halted (47_integrity_map.md R232, 60_exceptions.md R285). -/
theorem exec_icvCheckOrSet {s : State} (hs : s.halted = false) (kind : AccessKind) :
    let i := s.a0.toNat / 8
    let mis := missAt s i s.a1
    let uni := uninitAt s i kind
    exec (.icvCheckOrSet kind) s = .next (underCapacity s { reportAll s (reportsAt s i s.a1 kind) with
      icv := if stores s kind = true then cellsWrite s.icv i (refresh (icvRead s i) s.a1 kind) else s.icv
      r0 := BitVec.ofNat 64 ((if mis = true then 1 else 0) + (if uni = true then 2 else 0))
      r1 := icvRead s i
      status := BitVec.ofNat 63 ((if mis = true then 2 ^ 9 else 0) + (if uni = true then 2 ^ 10 else 0))
      halted := (reportsAt s i s.a1 kind).any fun r => decide (policyFor s r.kind = .brk) }) := by
  have hhalted : (granuleStep s (s.a0.toNat / 8) s.a1 kind).st.halted = false := by
    rw [granuleStep_st]
    exact (reportAll_halted _ _).trans hs
  rw [exec, execIcvCheckOrSet, icvCheckOrSetUnder, unlessHalted_running hs, granuleIndex_eq]
  simp only [haltIf_complete hhalted, ifIcvFits_hw]
  simp only [granuleStep_st, granuleStep_brk, granuleStep_mismatch, granuleStep_uninit, outcomeWord_eq, statusWord_ok_flags,
    Bool.false_eq_true, if_false, Nat.zero_add, Nat.add_zero]

/-- Settles O51: one granule step, its reports and its store, then the end of the command. -/
theorem checkOrSetResult : Obligations.CheckOrSetResult := by
  refine ⟨decode_encode (.icvCheckOrSet .read), decode_encode (.icvCheckOrSet .write), fun s kind hs hw => ?_⟩
  intro i old lock mis uni afterMis afterUni
  have hi : i < 2 ^ 61 := (granuleIndex_eq s.a0).symm.trans_lt (granuleIndex_lt s.a0)
  have hreports : reportAll s (reportsAt s i s.a1 kind) = afterUni.1 := (reportAll_granule s i s.a1 mis uni).1
  have hbreak : ((reportsAt s i s.a1 kind).any fun r => decide (policyFor s r.kind = .brk)) = (afterMis.2 || afterUni.2) :=
    (reportAll_granule s i s.a1 mis uni).2
  refine ⟨if stores s kind = true then cellsWrite s.icv i (refresh old s.a1 kind) else s.icv, ?_, fun j => ?_, ?_⟩
  · split
    · exact cellsWf_write _ hw hi
    · exact hw
  · simp only [show (lock = false ∨ kind = .write) ↔ stores s kind = true from (stores_iff s kind).symm]
    by_cases hst : stores s kind = true
    · simp only [hst, if_true, and_true]
      exact cellsRead_write _ hw
    · simp only [hst, if_false, and_false, Bool.false_eq_true]
  · rw [exec_icvCheckOrSet hs, ← hreports, ← hbreak]
    rfl

/-! ### The bitmaps and flags of ICV_ACCESS -/

/-- Bit k of a bitmap is element k of its list (47_integrity_map.md R242). -/
theorem getLsbD_bitmap (l : List Bool) {k : Nat} (hk : k < 64) : (bitmap l).getLsbD k = l.getD k false := by
  induction l generalizing k with
  | nil => simp [bitmap]
  | cons b l ih =>
    rw [bitmap, BitVec.getLsbD_or, BitVec.getLsbD_shiftLeft]
    cases k with
    | zero => cases b <;> simp [flagWord]
    | succ k =>
      have hflag : (flagWord b).getLsbD (k + 1) = false := by cases b <;> simp [flagWord, BitVec.getLsbD_one]
      rw [hflag, List.getD_cons_succ, ← ih (by omega)]
      simp [hk]

theorem getLsbD_bitmap_range (f : Nat → Bool) (n : Nat) {k : Nat} (hk : k < 64) :
    (bitmap ((List.range n).map f)).getLsbD k = (decide (k < n) && f k) := by
  rw [getLsbD_bitmap _ hk, List.getD_eq_getElem?_getD, List.getElem?_map]
  by_cases h : k < n <;> simp [h]

/-- A list on which a test holds at one place and fails at another has two elements. -/
theorem two_le_length_of_any {α : Type} {l : List α} {f : α → Bool} (h : l.any f = true) (h' : (l.any fun a => !f a) = true) :
    2 ≤ l.length := by
  match l with
  | [] => simp at h
  | [a] =>
    simp at h h'
    simp [h] at h'
  | _ :: _ :: _ => simp

/-- The mixed outcome of mismatch bits, which only the lock allows: one granule mismatches and one does not (47_integrity_map.md R243). -/
theorem mixedOutcome_map {lock : Bool} {f : Nat → Bool} (l : List Nat) (hlock : ∀ k, f k = true → lock = true) :
    mixedOutcome lock (l.map f) = (l.any f && l.any fun k => !f k) := by
  rw [mixedOutcome, List.length_map, List.any_map, List.any_map, Bool.and_assoc]
  change (lock && decide (2 ≤ l.length) && (l.any f && l.any fun k => !f k)) = _
  cases hany : l.any f && l.any fun k => !f k
  · rw [Bool.and_false]
  · obtain ⟨hf, hnot⟩ := (Bool.and_eq_true _ _).mp hany
    obtain ⟨k, _, hk⟩ := List.any_eq_true.mp hf
    rw [hlock k hk, decide_eq_true (two_le_length_of_any hf hnot)]
    rfl

/-! ### The granules of ICV_ACCESS -/

theorem accessRefused_eq_false_iff (la len : Word) :
    accessRefused la len = false ↔ len.toNat ≤ 128 ∧ (0 < len.toNat → la.toNat + (len.toNat - 1) < 2 ^ 64) := by
  simp only [accessRefused, Bool.or_eq_false_iff, Bool.and_eq_false_iff, decide_eq_false_iff_not]
  omega

/-- The number of granules from the first byte's to the last byte's (47_integrity_map.md R241). -/
theorem granuleCount_eq {la len : Word} (hrange : 0 < len.toNat → la.toNat + (len.toNat - 1) < 2 ^ 64) :
    granuleCount la len = if len.toNat = 0 then 0 else (la.toNat + (len.toNat - 1)) / 8 - la.toNat / 8 + 1 := by
  have h0 : len = 0 ↔ len.toNat = 0 := BitVec.toNat_inj.symm
  rw [granuleCount, granuleIndex_eq, granuleIndex_eq]
  by_cases hz : len.toNat = 0
  · rw [if_pos (h0.mpr hz), if_pos hz]
  · have hlast : (la + len - 1).toNat = la.toNat + (len.toNat - 1) := by
      have := len.isLt
      have := hrange (Nat.pos_of_ne_zero hz)
      have hone : (1 : Word).toNat = 1 := rfl
      rw [BitVec.toNat_sub, BitVec.toNat_add, hone]
      omega
    rw [if_neg (mt h0.mp hz), if_neg hz, hlast]

/-- The violations of a run of n granules, each with its granule counted from the first, the mismatch first (60_exceptions.md R286). -/
def violationsOf (s : State) (i : Nat) (p : Word) (kind : AccessKind) (n : Nat) : List (Violation × Nat) :=
  (List.range n).flatMap fun k =>
    (if missAt s (i + k) (p + BitVec.ofNat 64 (8 * k)) = true then [(Violation.mismatch, k)] else []) ++
      (if uninitAt s (i + k) kind = true then [(Violation.uninit, k)] else [])

/-- The report of a violation at granule k of a run. -/
def reportOf (i : Nat) (p : Word) (v : Violation × Nat) : Report :=
  ⟨v.1, i + v.2, p + BitVec.ofNat 64 (8 * v.2)⟩

theorem reportsOf_eq_map (s : State) (i : Nat) (p : Word) (kind : AccessKind) (n : Nat) :
    reportsOf s i p kind n = (violationsOf s i p kind n).map (reportOf i p) := by
  rw [reportsOf, violationsOf, List.map_flatMap]
  refine congrArg (List.flatMap · (List.range n)) (funext fun k => ?_)
  rw [reportsAt, List.map_append]
  congr 1 <;> split <;> rfl

theorem reportAll_map_reportOf (s : State) (i : Nat) (p : Word) (vs : List (Violation × Nat)) :
    reportAll s (vs.map (reportOf i p)) =
      vs.foldl (fun u v => (report u v.1 (BitVec.ofNat 64 (8 * (i + v.2))) (p + BitVec.ofNat 64 (8 * v.2))).1) s := by
  rw [reportAll, List.foldl_map]
  simp only [reportOf, granuleAddress_eq]

/-- ICV_ACCESS of an accepted range, from what its granules leave (47_integrity_map.md R242, R243, 60_exceptions.md R285). -/
theorem exec_icvAccess {s u : State} {kind : AccessKind} {n : Nat} {brk : Bool} {mis uni : Nat → Bool} (hs : s.halted = false)
    (hu : u.halted = false) (ha : accessRefused s.a0 s.a2 = false) (hlock : ∀ k, mis k = true → lockEnabled s = true)
    (hsteps : granuleSteps s (granuleIndex s.a0) s.a1 kind (granuleCount s.a0 s.a2) =
      { st := u, brk := brk, bits := (List.range n).map fun k => (mis k, uni k) }) :
    let anyMis := (List.range n).any mis
    let anyUni := (List.range n).any uni
    let mixed := anyMis && (List.range n).any fun k => !mis k
    exec (.icvAccess kind) s = .next (underCapacity s { u with
      r0 := bitmap ((List.range n).map mis), r1 := bitmap ((List.range n).map uni)
      status := BitVec.ofNat 63 ((if anyMis = true then 2 ^ 9 else 0) + (if anyUni = true then 2 ^ 10 else 0) +
        (if mixed = true then 2 ^ 11 else 0))
      events := u.events ||| (if mixed = true then 4 else 0)
      halted := brk }) := by
  intro anyMis anyUni mixed
  have hms : ((List.range n).map fun k => (mis k, uni k)).map Prod.fst = (List.range n).map mis := List.map_map
  have hus : ((List.range n).map fun k => (mis k, uni k)).map Prod.snd = (List.range n).map uni := List.map_map
  have hanyMis : ((List.range n).map mis).any id = anyMis := List.any_map
  have hanyUni : ((List.range n).map uni).any id = anyUni := List.any_map
  have hmixed : mixedOutcome (lockEnabled s) ((List.range n).map mis) = mixed := mixedOutcome_map _ hlock
  rw [exec, execIcvAccess, icvAccessUnder, unlessHalted_running hs, ha, hsteps]
  simp only [hms, hus, hanyMis, hanyUni, hmixed, Bool.false_eq_true, if_false]
  cases mixed
  · simp [haltIf_complete hu, ifIcvFits_hw, statusWord_ok_flags]
  · simp [haltIf_complete (s := setEvent u 2) hu, ifIcvFits_hw, statusWord_ok_flags]

/-- Settles O53: a run of granule steps, then the bitmaps, EV_MIXED and the end of the command. -/
theorem accessResult : Obligations.AccessResult := by
  refine ⟨decode_encode (.icvAccess .read), decode_encode (.icvAccess .write), fun s kind hs hw hlen hrange => ?_⟩
  intro first n ptr old lock mis uni reports t anyMis anyUni mixed
  have hrefuse := (accessRefused_eq_false_iff s.a0 s.a2).mpr ⟨hlen, hrange⟩
  have hfirst : granuleIndex s.a0 = first := granuleIndex_eq s.a0
  have hcount : granuleCount s.a0 s.a2 = n := granuleCount_eq hrange
  have hin : first + n ≤ 2 ^ 61 := hfirst ▸ hcount ▸ access_in_range hrefuse
  obtain ⟨m, hm, hread, hsteps⟩ := granuleSteps_eq s first s.a1 kind n hw hin
  have ht : reportAll s (reportsOf s first s.a1 kind n) = t := by
    rw [reportsOf_eq_map, reportAll_map_reportOf]
    rfl
  have hbreak : ((reportsOf s first s.a1 kind n).any fun r => decide (policyFor s r.kind = .brk)) =
      reports.any fun v => decide (policyFor s v.1 = .brk) := by
    rw [reportsOf_eq_map, List.any_map]
    rfl
  refine ⟨m, bitmap ((List.range n).map mis), bitmap ((List.range n).map uni), hm, fun j => ?_, fun k hk => ?_, ?_⟩
  · rw [hread]
    simp only [show (lock = false ∨ kind = .write) ↔ stores s kind = true from (stores_iff s kind).symm]
    split
    · rename_i hj
      obtain ⟨k, rfl⟩ := Nat.exists_eq_add_of_le hj.1
      simp only [Nat.add_sub_cancel_left, old, ptr]
      rfl
    · rfl
  · exact ⟨getLsbD_bitmap_range mis n hk, getLsbD_bitmap_range uni n hk⟩
  · have hhalted : t.halted = false := ht ▸ (reportAll_halted _ _).trans hs
    have hlock : ∀ k, mis k = true → lockEnabled s = true := fun k hk => ((Bool.and_eq_true _ _).mp hk).1
    refine exec_icvAccess (u := { t with icv := m }) (uni := uni) hs hhalted hrefuse hlock ?_
    rw [hfirst, hcount, hsteps, ht]
    exact congrArg (AccessOutcome.mk _ · _) hbreak

end Sys2Proof.Machine

/-! SUPPORT. What a command can leave of the ICV map, said once for all commands, and the laws of the map that follow from it
(47_integrity_map.md R244). -/

namespace Sys2Proof.Machine

/-! ### Sparsity -/

section
variable {w n : Nat} {m : Cells w}

/-- An array in canonical form lists each index once. -/
theorem nodup_indices {lo : Nat} (h : cellsWfFrom n lo m = true) : (m.map Prod.fst).Nodup := by
  induction m generalizing lo with
  | nil => exact List.nodup_nil
  | cons c m ih =>
    obtain ⟨_, _, _, hm⟩ := cellsWfFrom_cons.mp h
    refine List.nodup_cons.mpr ⟨fun hc => ?_, ih hm⟩
    obtain ⟨e, he, hec⟩ := List.mem_map.mp hc
    exact (cellsRead_ne_zero_iff hm c.1).mpr ⟨e, he, hec⟩ (cellsRead_of_lt hm (Nat.lt_succ_self c.1))

/-- The length of an array in canonical form is the number of its non-zero entries (10_state.md R35). -/
theorem length_eq_ncard (h : cellsWf n m = true) : m.length = Set.ncard { j : Nat | j < n ∧ cellsRead m j ≠ 0 } := by
  have hset : { j : Nat | j < n ∧ cellsRead m j ≠ 0 } = ↑(m.map Prod.fst).toFinset := by
    ext j
    have hlt : cellsRead m j ≠ 0 → j < n := fun hj => Nat.lt_of_not_le fun hn => hj (cellsRead_of_ge h hn)
    rw [Set.mem_ofPred_eq, and_iff_right_of_imp hlt, cellsRead_ne_zero_iff h, Finset.mem_coe, List.mem_toFinset, List.mem_map]
  rw [hset, Set.ncard_coe_finset, List.toFinset_card_of_nodup (nodup_indices h), List.length_map]

theorem length_le (h : cellsWf n m = true) : m.length ≤ n := by
  rw [length_eq_ncard h]
  calc Set.ncard { j : Nat | j < n ∧ cellsRead m j ≠ 0 }
    _ ≤ Set.ncard (↑(Finset.range n) : Set Nat) :=
        Set.ncard_le_ncard (fun j hj => Finset.mem_coe.mpr (Finset.mem_range.mpr hj.1)) (Finset.finite_toSet _)
    _ = n := by rw [Set.ncard_coe_finset, Finset.card_range]

end

/-- ICV_COUNT counts the non-zero entries; 2^61 of them still fit its 64 bits (10_state.md R35). -/
theorem toNat_icvCount {t : State} (h : icvWf t.icv = true) :
    (icvCount t).toNat = Set.ncard { j : Nat | j < 2 ^ 61 ∧ cellsRead t.icv j ≠ 0 } := by
  have hle : t.icv.length ≤ 2 ^ 61 := length_le h
  rw [icvCount, BitVec.toNat_ofNat, Nat.mod_eq_of_lt (by omega)]
  exact length_eq_ncard h

/-! ### What a command leaves of the map -/

/-- The number of granules that a checking command of a kind processes from A0 on (47_integrity_map.md R232, R241). -/
inductive Processes (i : Instr) (s : State) (kind : AccessKind) : Nat → Prop
  | one (hi : i = .icvCheckOrSet kind) : Processes i s kind 1
  | range (hi : i = .icvAccess kind) (ha : accessRefused s.a0 s.a2 = false) : Processes i s kind (granuleCount s.a0 s.a2)

/-- What the command i, run in s, leaves of the map: all of it, which a checking command does only when it is refused; one entry
stored; the granules of an access refreshed. -/
inductive MapAfter (i : Instr) (s t : State) : Prop
  | kept (hm : t.icv = s.icv)
      (hr : ∀ kind, i = .icvCheckOrSet kind ∨ i = .icvAccess kind → t.status.toNat % 256 ≠ 0)
  | entry (hi : storesEntry i) (j : Nat) (hj : j < 2 ^ 61) (v : Word) (hm : t.icv = cellsWrite s.icv j v)
      (hv : i = .icvPreinit ∨ i = .icvInvalidate → v.getLsbD 1 = true ∧ v.getLsbD 2 = true)
  | granules (kind : AccessKind) (n : Nat) (hn : Processes i s kind n) (hwf : icvWf t.icv = true)
      (hread : ∀ j, cellsRead t.icv j =
        if s.a0.toNat / 8 ≤ j ∧ j < s.a0.toNat / 8 + n ∧ stores s kind = true then
          refresh (cellsRead s.icv j) (s.a1 + BitVec.ofNat 64 (8 * (j - s.a0.toNat / 8))) kind
        else cellsRead s.icv j)

theorem Processes.in_range {i : Instr} {s : State} {kind : AccessKind} {n : Nat} (h : Processes i s kind n) :
    granuleIndex s.a0 + n ≤ 2 ^ 61 := by
  cases h with
  | one => exact granuleIndex_lt s.a0
  | range _ ha => exact access_in_range ha

theorem Processes.command {i : Instr} {s : State} {kind : AccessKind} {n : Nat} (h : Processes i s kind n) :
    i = .icvCheckOrSet kind ∨ i = .icvAccess kind := by
  cases h with
  | one hi => exact .inl hi
  | range hi => exact .inr hi

theorem Processes.kind_eq {i : Instr} {s : State} {kind kind' : AccessKind} {n : Nat} (h : Processes i s kind n)
    (hi : i = .icvCheckOrSet kind' ∨ i = .icvAccess kind') : kind = kind' := by
  rcases h.command with rfl | rfl <;> simpa using hi

theorem mapAfter_of_granuleSteps {i : Instr} {s t : State} {kind : AccessKind} {n : Nat} (hw : icvWf s.icv = true)
    (hn : Processes i s kind n) (ht : t.icv = (granuleSteps s (granuleIndex s.a0) s.a1 kind n).st.icv) : MapAfter i s t := by
  obtain ⟨m, hm, hread, hsteps⟩ := granuleSteps_eq s (granuleIndex s.a0) s.a1 kind n hw hn.in_range
  have htm : t.icv = m := by rw [ht, hsteps]
  rw [granuleIndex_eq] at hread
  exact .granules kind n hn (htm ▸ hm) (htm ▸ hread)

theorem MapAfter.of_not_checking {i : Instr} {s t : State} (hm : t.icv = s.icv)
    (hi : ∀ kind, i ≠ .icvCheckOrSet kind ∧ i ≠ .icvAccess kind) : MapAfter i s t :=
  .kept hm fun kind h => absurd h (not_or.mpr (hi kind))

theorem loadKeySlot_icv (s : State) (k : KeySlot) : (loadKeySlot s k).icv = s.icv := by
  cases k <;> simp only [loadKeySlot, loadAddrKey]

/-- Whatever a command answers, it leaves one of the cases of `MapAfter`. -/
theorem exec_mapAfter {i : Instr} {s t : State} (hw : icvWf s.icv = true) (h : exec i s = .next t) : MapAfter i s t := by
  cases exec_leaves h with
  | refused c hc =>
    refine .kept rfl fun _ _ => ?_
    rw [refuse_status, statusWord_code]
    cases c with
    | ok => exact absurd rfl hc
    | _ => decide
  | stored hi _ j hj v _ hv => exact .entry hi j hj v rfl hv
  | checked kind hi => exact mapAfter_of_granuleSteps hw (.one hi) (by simp)
  | accessed kind hi _ _ _ _ mixed ha => exact mapAfter_of_granuleSteps hw (.range hi ha) (by cases mixed <;> simp)
  | results hi =>
    refine .of_not_checking rfl fun kind => ?_
    constructor <;> rintro rfl <;> simp [writesResultsOnly] at hi
  | cipher hi =>
    refine .of_not_checking (by simp) fun kind => ?_
    constructor <;> rintro rfl <;> simp [usesCipher] at hi
  | keyed k hi =>
    subst hi
    exact .of_not_checking (loadKeySlot_icv s k) (by simp)
  | masked _ hi | saved hi | loaded hi | resumed hi =>
    subst hi
    exact .of_not_checking rfl (by simp)

/-! ### The laws -/

/-- A refresh keeps PREINIT (47_integrity_map.md R227). -/
theorem refresh_preinit (old x : Word) (kind : AccessKind) : (refresh old x kind).getLsbD 2 = old.getLsbD 2 := by
  rw [getLsbD_refresh old x kind (by decide), if_neg (by decide), if_neg fun h => absurd h.1 (by decide)]

/-- A refresh keeps INIT_N, but a write under PREINIT clears it (47_integrity_map.md R227). -/
theorem refresh_initN (old x : Word) (kind : AccessKind) :
    (refresh old x kind).getLsbD 1 = if kind = .write ∧ old.getLsbD 2 = true then false else old.getLsbD 1 := by
  rw [getLsbD_refresh old x kind (by decide), if_neg (by decide)]
  simp only [true_and]

section
variable {i : Instr} {s t : State} (hw : icvWf s.icv = true) (h : MapAfter i s t)
include hw h

/-- (a) No command leaves a zero entry behind (47_integrity_map.md R244). -/
theorem MapAfter.wf : icvWf t.icv = true := by
  cases h with
  | kept hm => exact hm ▸ hw
  | entry _ j hj v hm => exact hm ▸ cellsWf_write v hw hj
  | granules _ _ _ hwf => exact hwf

/-- (b) A read access under the lock leaves the map (47_integrity_map.md R244). -/
theorem MapAfter.locked_read (hlock : s.icvCtrl.getLsbD 0 = true) (hi : i = .icvCheckOrSet .read ∨ i = .icvAccess .read) :
    t.icv = s.icv := by
  cases h with
  | kept hm => exact hm
  | entry he => rcases hi with rfl | rfl <;> simp [storesEntry] at he
  | granules kind n hn hwf hread =>
    have hkind : kind = .read := hn.kind_eq hi
    have hstores : ¬stores s kind = true := by
      rw [stores_iff, hlock, hkind]
      decide
    refine cells_ext hwf hw fun j _ => ?_
    rw [hread, if_neg fun hj => hstores hj.2.2]

/-- (d) Who may clear PREINIT and INIT_N (47_integrity_map.md R244). -/
theorem MapAfter.flags (j : Nat) :
    ((cellsRead s.icv j).getLsbD 2 = true → (cellsRead t.icv j).getLsbD 2 = false → i = .icvInit ∨ i = .icvSet) ∧
      ((cellsRead s.icv j).getLsbD 1 = true → (cellsRead t.icv j).getLsbD 1 = false →
        i = .icvInit ∨ i = .icvSet ∨
          ((i = .icvCheckOrSet .write ∨ i = .icvAccess .write) ∧ (cellsRead s.icv j).getLsbD 2 = true)) := by
  have hsame : ∀ {b : Bool} {p : Prop}, b = true → b = false → p := fun h1 h0 => Bool.noConfusion (h1.symm.trans h0)
  cases h with
  | kept hm =>
    rw [hm]
    exact ⟨hsame, hsame⟩
  | entry hi k _ v hm hv =>
    simp only [storesEntry, List.mem_cons, List.not_mem_nil, or_false] at hi
    rcases hi with rfl | rfl | hi
    · exact ⟨fun _ _ => .inr rfl, fun _ _ => .inr (.inl rfl)⟩
    · exact ⟨fun _ _ => .inl rfl, fun _ _ => .inl rfl⟩
    · obtain ⟨hinit, hpre⟩ := hv hi
      rw [hm, cellsRead_write v hw]
      split
      · exact ⟨fun _ => hsame hpre, fun _ => hsame hinit⟩
      · exact ⟨hsame, hsame⟩
  | granules kind n hn hwf hread =>
    rw [hread]
    split
    · rw [refresh_preinit, refresh_initN]
      refine ⟨hsame, fun hset => ?_⟩
      split
      · rename_i hclears
        obtain ⟨rfl, hpre⟩ := hclears
        exact fun _ => .inr (.inr ⟨hn.command, hpre⟩)
      · exact hsame hset
    · exact ⟨hsame, hsame⟩

end

/-- (c) After a write access under the lock that completed, each granule it processed matches its pointer (47_integrity_map.md R244). -/
theorem MapAfter.written {i : Instr} {s t : State} (h : MapAfter i s t) (hok : t.status.toNat % 256 = 0)
    (hi : i = .icvCheckOrSet .write ∨ i = .icvAccess .write) :
    ∃ n, Processes i s .write n ∧ ∀ k, k < n →
      ptrMatches (s.a1 + BitVec.ofNat 64 (8 * k)) (cellsRead t.icv (s.a0.toNat / 8 + k)) = true := by
  cases h with
  | kept _ hr => exact absurd hok (hr .write hi)
  | entry he => rcases hi with rfl | rfl <;> simp [storesEntry] at he
  | granules kind n hn _ hread =>
    obtain rfl : kind = .write := hn.kind_eq hi
    refine ⟨n, hn, fun k hk => ?_⟩
    rw [hread, if_pos ⟨Nat.le_add_right _ _, Nat.add_lt_add_left hk _, (stores_iff s .write).mpr (.inr rfl)⟩,
      Nat.add_sub_cancel_left]
    exact ptrMatches_refresh _ _ _

/-- Settles O54: one lemma about `MapAfter` for each of the first four laws; the key and context commands write no entry. -/
theorem integrityMapLaws : Obligations.IntegrityMapLaws := by
  intro i s t hw ht
  have h := exec_mapAfter hw ht
  have hwf := h.wf hw
  refine ⟨⟨hwf, toNat_icvCount hwf⟩, h.locked_read hw, fun _ _ hok => ⟨fun hi => ?_, fun hi k hk hlen => ?_⟩,
    h.flags hw, fun hi => ?_⟩
  · obtain ⟨n, hn, hmatch⟩ := h.written hok (.inl hi)
    cases hn with
    | one => simpa using hmatch 0 Nat.one_pos
    | range hi' => simp [hi] at hi'
  · obtain ⟨n, hn, hmatch⟩ := h.written hok (.inr hi)
    cases hn with
    | one hi' => simp [hi] at hi'
    | range _ ha =>
      refine hmatch k ?_
      rw [granuleCount_eq ((accessRefused_eq_false_iff _ _).mp ha).2, if_neg (Nat.pos_iff_ne_zero.mp hlen)]
      omega
  · refine (exec_leaves ht).changes.keeps_icv (fun kind => ?_) ?_ <;>
      rcases hi with ⟨k, rfl⟩ | rfl | rfl <;> simp [storesEntry]

end Sys2Proof.Machine

/-! SUPPORT. The keys and the context record: DBUF holds the record exactly when each word and each key stands at its offset, and the
commands KEY_SET, CTX_SAVE and CTX_LOAD (48_context_keys.md R260 to R267). -/

namespace Sys2Proof.Machine

/-! ### Bytes of DBUF in sequence -/

theorem memRead_add (s : State) (off m n : Nat) : memRead s off (m + n) = memRead s off m ++ memRead s (off + m) n := by
  simp [memRead, List.range_add, Nat.add_assoc]

/-- Two sequences stand one behind the other exactly when each stands at its own offset. -/
theorem memRead_eq_append_iff {s : State} {off m n : Nat} {l l' : List Byte} (hl' : l'.length = n) :
    memRead s off (m + n) = l ++ l' ↔ memRead s off m = l ∧ memRead s (off + m) n = l' := by
  rw [memRead_add]
  exact ⟨fun h => List.append_inj' h (by rw [memRead_length, hl']), fun ⟨h, h'⟩ => by rw [h, h']⟩

theorem memRead_eq_iff {s : State} {off n : Nat} {l : List Byte} (hl : l.length = n) :
    memRead s off n = l ↔ ∀ j, j < n → cellsRead s.dbuf (off + j) = l.getD j 0 := by
  constructor
  · rintro rfl j hj
    rw [getD_memRead s off hj]
  · intro h
    refine List.ext_getElem (by rw [memRead_length, hl]) fun j hj hj' => ?_
    rw [← List.getD_eq_getElem _ 0 hj, ← List.getD_eq_getElem _ 0 hj', getD_memRead s off (by omega), h j (by omega)]

/-- Storing the bytes that stand there leaves DBUF as it is. -/
theorem writeBytes_memRead {s : State} {off n : Nat} (h : Memory.wf s.dbuf = true) (hn : off + n ≤ 128) :
    writeBytes s.dbuf off (memRead s off n) = s.dbuf := by
  have hlen := memRead_length s off n
  refine cells_ext (cellsWf_writeBytes _ h (by omega)) h fun a _ => ?_
  rw [cellsRead_writeBytes _ h (by omega)]
  split
  · rw [getD_memRead s off (by omega), Nat.add_sub_cancel' (by omega)]
  · rfl

/-! ### Words and keys of DBUF -/

/-- The bytes of a word stand in DBUF exactly when DBUF[k] reads as that word (00_scope.md R7). -/
theorem memRead_eq_leBytes_iff {s : State} {k : Nat} {v : Word} : memRead s (8 * k) 8 = leBytes v ↔ dbufWord s k = v := by
  constructor
  · intro h
    rw [dbufWord, h, le64_leBytes]
  · rintro rfl
    refine (memRead_eq_iff (leBytes_length _)).mpr fun j hj => ?_
    rw [getD_leBytes _ hj, byteOf_dbufWord s k hj]

/-- The bytes of a key stand in DBUF exactly when that key is read there. -/
theorem memRead_eq_toList_iff {s : State} {off n : Nat} {v : Vector Byte n} :
    memRead s off n = v.toList ↔ (Vector.ofFn fun j : Fin n => cellsRead s.dbuf (off + j)) = v := by
  rw [memRead_eq_iff v.length_toList]
  constructor
  · intro h
    ext j hj
    simp [h j hj, hj]
  · rintro rfl j hj
    simp [hj]

theorem byteOf_dbufWord_zero (s : State) {j : Nat} (hj : j < 8) : byteOf j (dbufWord s 0) = cellsRead s.dbuf j := by
  rw [byteOf_dbufWord s 0 hj, Nat.mul_zero, Nat.zero_add]

theorem get_dataKeyAt (s : State) (off : Nat) (j : Fin 16) : (dataKeyAt s off).get j = cellsRead s.dbuf (off + j.val) := by
  rw [Vector.get_eq_getElem, dataKeyAt, Vector.getElem_ofFn]

theorem get_addrKeyAt (s : State) (off : Nat) (j : Fin 32) : (addrKeyAt s off).get j = cellsRead s.dbuf (off + j.val) := by
  rw [Vector.get_eq_getElem, addrKeyAt, Vector.getElem_ofFn]

theorem dataKeyAt_zero (s : State) : dataKeyAt s 0 = .ofFn fun j => cellsRead s.dbuf j.val := by
  simp only [dataKeyAt, Nat.zero_add]

theorem addrKeyAt_zero (s : State) : addrKeyAt s 0 = .ofFn fun j => cellsRead s.dbuf j.val := by
  simp only [addrKeyAt, Nat.zero_add]

/-! ### The context record -/

/-- DBUF of d holds the context record of s: each word and each key at its offset (48_context_keys.md R264). -/
structure HoldsRecord (d s : State) : Prop where
  flags : dbufWord d 0 = s.ctxFlags
  shadow : dbufWord d 1 = s.ctxShadow
  rsvd : dbufWord d 2 = s.ctxRsvd
  sharedKey : dataKeyAt d 24 = s.kShared
  privateKey : dataKeyAt d 40 = s.kPrivate
  codeKey : dataKeyAt d 56 = s.kCode
  addrKey : addrKeyAt d 72 = s.kAddr

/-- The record as one sequence of 104 bytes, cut at the offsets of its parts. -/
theorem memRead_eq_contextRecord_iff {d s : State} : memRead d 0 104 = contextRecord s ↔ HoldsRecord d s := by
  rw [contextRecord, memRead_eq_append_iff (m := 72) s.kAddr.length_toList, memRead_eq_append_iff (m := 56) s.kCode.length_toList,
    memRead_eq_append_iff (m := 40) s.kPrivate.length_toList, memRead_eq_append_iff (m := 24) s.kShared.length_toList,
    memRead_eq_append_iff (m := 16) (leBytes_length _), memRead_eq_append_iff (m := 8) (leBytes_length _),
    memRead_eq_leBytes_iff (k := 0), memRead_eq_leBytes_iff (k := 1), memRead_eq_leBytes_iff (k := 2),
    memRead_eq_toList_iff, memRead_eq_toList_iff, memRead_eq_toList_iff, memRead_eq_toList_iff]
  exact ⟨fun ⟨⟨⟨⟨⟨⟨hf, hh⟩, hr⟩, h0⟩, h1⟩, h2⟩, h3⟩ => ⟨hf, hh, hr, h0, h1, h2, h3⟩,
    fun ⟨hf, hh, hr, h0, h1, h2, h3⟩ => ⟨⟨⟨⟨⟨⟨hf, hh⟩, hr⟩, h0⟩, h1⟩, h2⟩, h3⟩⟩

/-- What CTX_SAVE stores is the record (48_context_keys.md R266). -/
theorem holdsRecord_of_stored {d s : State} (h : Memory.wf s.dbuf = true) (hd : d.dbuf = writeBytes s.dbuf 0 (contextRecord s)) :
    HoldsRecord d s := by
  have hlen := contextRecord_length s
  rw [← memRead_eq_contextRecord_iff, memRead_eq_iff hlen]
  intro j hj
  rw [hd, cellsRead_writeBytes _ h (by omega), if_pos (by omega), Nat.add_sub_cancel_left]

/-- What CTX_LOAD takes is the record, whatever results it writes (48_context_keys.md R267). -/
theorem holdsRecord_loadRecord (s : State) (r0 r1 : Word) (c : BitVec 63) :
    HoldsRecord s { loadRecord s with r0 := r0, r1 := r1, status := c } :=
  ⟨rfl, rfl, rfl, rfl, rfl, rfl, rfl⟩

/-- CTX_LOAD from a DBUF that holds the record of s, with s's own fields for the bytes it reads (48_context_keys.md R267). -/
theorem HoldsRecord.loadRecord_eq {d s : State} (h : HoldsRecord d s) :
    loadRecord d = { d with
      ctxFlags := s.ctxFlags, ctxShadow := s.ctxShadow, ctxRsvd := s.ctxRsvd
      kShared := s.kShared, kPrivate := s.kPrivate, kCode := s.kCode, kAddr := s.kAddr
      validShared := true, validPrivate := true, validCode := true, validAddr := true
      ks := keySched s.kAddr, tcValid := false } := by
  rw [← h.flags, ← h.shadow, ← h.rsvd, ← h.sharedKey, ← h.privateKey, ← h.codeKey, ← h.addrKey]
  rfl

/-! ### The commands -/

section
variable {s : State} (hs : s.halted = false)
include hs

/-- KEY_SET of any slot where it is not refused (48_context_keys.md R260). -/
theorem exec_keySet (k : KeySlot) :
    exec (.keySet k) s = .next { loadKeySlot s k with r0 := 0, r1 := 0, status := 0 } := by
  rw [exec, execKeySet, unlessHalted_running hs, complete_plain]

/-- CTX_SAVE where it is not refused (48_context_keys.md R266). -/
theorem exec_ctxSave :
    exec .ctxSave s = .next { s with dbuf := (memWrite s 0 (contextRecord s)).dbuf, r0 := 0, r1 := 0, status := 0 } := by
  rw [exec, execCtxSave, unlessHalted_running hs, complete_plain]
  rfl

/-- CTX_LOAD where it is not refused (48_context_keys.md R267). -/
theorem exec_ctxLoad : exec .ctxLoad s = .next { loadRecord s with r0 := 0, r1 := 0, status := 0 } := by
  rw [exec, execCtxLoad, unlessHalted_running hs, complete_plain]

end

/-- Settles O55: KEY_SET is not refused, and each slot takes the bytes from offset 0 on. -/
theorem keySetResults : Obligations.KeySetResults := by
  refine ⟨decode_encode (.keySet .sharedKey), decode_encode (.keySet .privateKey), decode_encode (.keySet .codeKey),
    decode_encode (.keySet .addrKey), fun s hs => ?_⟩
  simp only [exec_keySet hs, loadKeySlot, loadAddrKey, dataKeyAt_zero, addrKeyAt_zero, and_self]

/-- Settles O56: DBUF holds the record part by part, and the bytes behind the 104 stored ones stay. -/
theorem contextSaveResult : Obligations.ContextSaveResult := by
  refine ⟨decode_encode .ctxSave, fun s hs hwf => ?_⟩
  have hlen := contextRecord_length s
  have hold : HoldsRecord (memWrite s 0 (contextRecord s)) s := holdsRecord_of_stored hwf (memWrite_dbuf ..)
  refine ⟨(memWrite s 0 (contextRecord s)).dbuf, memWrite_wf _ hwf (by omega), fun j hj => ⟨?_, ?_, ?_⟩,
    fun j => ⟨?_, ?_, ?_⟩, fun j => ?_, fun a ha => ?_, exec_ctxSave hs⟩
  · rw [← hold.flags]
    exact (byteOf_dbufWord_zero _ hj).symm
  · rw [← hold.shadow]
    exact (byteOf_dbufWord _ 1 hj).symm
  · rw [← hold.rsvd]
    exact (byteOf_dbufWord _ 2 hj).symm
  · rw [← hold.sharedKey, get_dataKeyAt]
  · rw [← hold.privateKey, get_dataKeyAt]
  · rw [← hold.codeKey, get_dataKeyAt]
  · rw [← hold.addrKey, get_addrKeyAt]
  · rw [memWrite_dbuf, cellsRead_writeBytes _ hwf (by omega), if_neg (by omega)]

/-- Settles O57: the context words are DBUF[0], DBUF[1] and DBUF[2], byte by byte. -/
theorem contextLoadResult : Obligations.ContextLoadResult :=
  ⟨decode_encode .ctxLoad, fun s hs => ⟨dbufWord s 0, dbufWord s 1, dbufWord s 2,
    fun _ hj => ⟨byteOf_dbufWord_zero s hj, byteOf_dbufWord s 1 hj, byteOf_dbufWord s 2 hj⟩, exec_ctxLoad hs⟩⟩

/-- Settles O58: DBUF holds the record both after it was stored and where it was taken from. -/
theorem contextSaveLoadLaws : Obligations.ContextSaveLoadLaws := by
  intro s t u hs hwf
  constructor
  · intro hsched hsave hload
    have ht := Host.Outcome.next.inj (hsave.symm.trans (exec_ctxSave hs))
    have hhalted : t.halted = false := by rw [ht, hs]
    have hold : HoldsRecord t s := holdsRecord_of_stored hwf (by rw [ht, memWrite_dbuf])
    rw [exec_ctxLoad hhalted, hold.loadRecord_eq, ← hsched, ht] at hload
    rw [ht, ← Host.Outcome.next.inj hload]
  · intro hload hsave
    have ht := Host.Outcome.next.inj (hload.symm.trans (exec_ctxLoad hs))
    have hhalted : t.halted = false := by rw [ht]; exact hs
    have hdbuf : t.dbuf = s.dbuf := by rw [ht]; rfl
    have hold : HoldsRecord s t := by rw [ht]; exact holdsRecord_loadRecord ..
    have hu := Host.Outcome.next.inj (hsave.symm.trans (exec_ctxSave hhalted))
    rw [hu, memWrite_dbuf, hdbuf, ← memRead_eq_contextRecord_iff.mpr hold, writeBytes_memRead hwf (by decide)]

end Sys2Proof.Machine

/-! SUPPORT. Every step answers, what each refusal leaves behind, the four policies of a report, and several engines side by side
(60_exceptions.md R280 to R283, R303). -/

namespace Sys2Proof.Machine

/-! ### Every step and every command answers a next state -/

/-- RESUME always runs; any other command either is refused while HALTED or runs, and both are next states. -/
theorem exec_answers (i : Instr) (s : State) : ∃ t, exec i s = .next t := by
  by_cases hi : i = .resume
  · exact ⟨complete (leaveHalt s) 0 0, hi ▸ rfl⟩
  · obtain ⟨t, e⟩ := exec_eq_unlessHalted hi s
    exact ⟨_, e⟩

/-- A write of CMD with a word the decoder rejects is refused with the rejection's code (30_encoding.md R81, R87). -/
theorem hostWrite_rejected {w : Word} {r : Reject} (h : decode w = .error r) (s : State) :
    hostWrite s 0x000 w = .next (refuse s (rejectCode r)) := by
  have hissue : hostWrite s 0x000 w = issueCommand s w := rfl
  rw [hissue, issueCommand, h]

theorem hostWrite_command_answers (s : State) (w : Word) : ∃ t, hostWrite s 0x000 w = .next t := by
  cases h : decode w with
  | error r => exact ⟨_, hostWrite_rejected h s⟩
  | ok i => rw [hostWrite_command h]; exact exec_answers i s

theorem hostWrite_answers (s : State) (off : Nat) (v : Word) : ∃ t, hostWrite s off v = .next t := by
  by_cases hm : malformedOffset off = true
  · exact ⟨_, hostWrite_malformed hm s v⟩
  · by_cases h0 : off = 0
    · exact h0 ▸ hostWrite_command_answers s v
    · obtain ⟨h8, hlt⟩ := not_or.mp (malformedOffset_iff.not.mp hm)
      exact ⟨_, hostWrite_window (not_not.mp h8) (not_le.mp hlt) h0 s v⟩

theorem takeInput_answers (s : State) (t : Input) : ∃ u, takeInput s t = .next u := by
  cases t with
  | hread off => exact ⟨_, rfl⟩
  | hwrite off v => exact hostWrite_answers s off v
  | reset => exact ⟨_, rfl⟩

theorem step_answers (s : State) : ∃ t, step s = .next t := by
  cases h : s.port with
  | nil => exact ⟨s, step_idle h⟩
  | cons t rest =>
    obtain ⟨u, hu⟩ := takeInput_answers { s with port := rest } t
    refine ⟨u, ?_⟩
    rw [← hu, ← step_port_cons, ← h]

/-- Settles O5, by the kinds of input and the commands. -/
theorem engineNeverStops : Obligations.EngineNeverStops := ⟨step_answers, exec_answers⟩

/-! ### Refusals -/

/-- Settles O6: the decoder's rejections do not look at HALTED, and a decoded command other than RESUME looks at it first. -/
theorem refusalsInDecodeOrder : Obligations.RefusalsInDecodeOrder := by
  refine ⟨fun s w => ⟨fun h => ?_, fun h => ?_, fun i h hi hs => ?_⟩, rfl, rfl, rfl⟩
  · rw [hostWrite_rejected h, refuse_eq]
    rfl
  · rw [hostWrite_rejected h, refuse_eq]
    rfl
  · rw [hostWrite_command h, haltedEngineRefuses i s hi hs]

/-- Slot 3 holds no data key: PRF_STREAM refuses it before it looks at KEY_VALID (44_stream_prf.md R180). -/
theorem exec_prfStream_addrKey (s : State) : exec (.prfStream .addrKey) s = .next (unlessHalted s (refuse s .errOperand)) := rfl

/-- DATA_MASK refuses slot 3 and a length above 128 before it looks at KEY_VALID (46_data_cipher.md R212). -/
theorem exec_dataMask_refused {s : State} {k : KeySlot} (h : k = .addrKey ∨ 128 < s.a1.toNat) :
    exec (.dataMask k) s = .next (unlessHalted s (refuse s .errOperand)) := by
  by_cases hk : k = .addrKey
  · exact hk ▸ rfl
  · obtain ⟨key, hkey⟩ := exists_dataKey hk s
    rw [exec, execDataMask, dataMaskUnder, hkey]
    dsimp only
    rw [if_pos (h.resolve_left hk)]

/-- ICV_ACCESS refuses a length above 128 and a non-empty range past the last address (47_integrity_map.md R240). -/
theorem exec_icvAccess_refused {s : State} (kind : AccessKind) (h : accessRefused s.a0 s.a2 = true) :
    exec (.icvAccess kind) s = .next (unlessHalted s (refuse s .errOperand)) := by
  rw [exec, execIcvAccess, icvAccessUnder, if_pos h]

theorem accessRefused_iff (la len : Word) :
    accessRefused la len = true ↔ 128 < len.toNat ∨ (0 < len.toNat ∧ 2 ^ 64 ≤ la.toNat + (len.toNat - 1)) := by
  rw [← Bool.not_eq_false, accessRefused_eq_false_iff]
  omega

/-- Settles O8: with HALTED clear the operand check is the next one, before the key check. -/
theorem operandRefusals : Obligations.OperandRefusals := by
  intro s hs
  have hrefuse : unlessHalted s (refuse s .errOperand) = { s with status := 3 } := by
    rw [unlessHalted_running hs, refuse_eq]
    rfl
  rw [← hrefuse]
  exact ⟨exec_prfStream_addrKey s, exec_dataMask_refused (.inl rfl), fun k hlen => exec_dataMask_refused (.inr hlen),
    fun kind h => exec_icvAccess_refused kind ((accessRefused_iff s.a0 s.a2).mpr h)⟩

/-- A command either is refused or writes STATUS with CODE OK (60_exceptions.md R281, 10_state.md R28). -/
theorem Leaves.refused_or_completed {i : Instr} {s t : State} (h : Leaves i s t) :
    (∃ c, t = refuse s c) ∨ ∃ f, t.status = statusWord .ok f := by
  cases h with
  | refused c => exact .inl ⟨c, rfl⟩
  | checked | accessed => exact .inr ⟨_, (haltIf_status _ _).trans (complete_status _ _ _ _)⟩
  | _ => exact .inr ⟨_, complete_status _ _ _ _⟩

/-- A write of CMD that leaves a code other than OK is a refusal. -/
theorem refused_of_code_ne_zero {s t : State} {w : Word} (h : hostWrite s 0x000 w = .next t) (hcode : t.status.toNat % 256 ≠ 0) :
    ∃ c, t = refuse s c := by
  cases hw : decode w with
  | error r => exact ⟨_, Host.Outcome.next.inj (h.symm.trans (hostWrite_rejected hw s))⟩
  | ok i =>
    rw [hostWrite_command hw] at h
    refine (exec_leaves h).refused_or_completed.resolve_right ?_
    rintro ⟨f, hf⟩
    rw [hf, statusWord_code] at hcode
    exact hcode rfl

/-- A refusal's STATUS[62:0] is its code, at most 6 (60_exceptions.md R280). -/
theorem refuse_status_le (s : State) (c : Code) : (refuse s c).status.toNat ≤ 6 := by
  rw [refuse_status]
  cases c <;> decide

/-- Settles O10: what a completed command leaves has code 0, so a code other than 0 is a refusal's. -/
theorem refusedCommandChangesOnlyStatus : Obligations.RefusedCommandChangesOnlyStatus := by
  intro s t w h hcode
  obtain ⟨c, rfl⟩ := refused_of_code_ne_zero h hcode
  exact ⟨rfl, refuse_status_le s c⟩

/-! ### Reporting a violation -/

/-- A policy as the number in its field of ICV_CTRL (10_state.md R31). -/
def policyNumber (p : Policy) : Nat :=
  match p with
  | .ignore => 0
  | .warn => 1
  | .fault => 2
  | .brk => 3

theorem policyNumber_policyOfBits (b : BitVec 2) : policyNumber (policyOfBits b) = b.toNat := by
  revert b
  decide

/-- The policy of a class is the number in its field of ICV_CTRL: bits 3:2 and 5:4 (10_state.md R31). -/
theorem policyNumber_policyFor (s : State) (v : Violation) :
    policyNumber (policyFor s v) = if v = .mismatch then s.icvCtrl.toNat / 4 % 4 else s.icvCtrl.toNat / 16 % 4 := by
  cases v <;> rw [policyFor, policyNumber_policyOfBits, toNat_extractLsb] <;> rfl

theorem violationClass_eq (v : Violation) : violationClass v = if v = .mismatch then 1 else 2 := by
  cases v <;> rfl

/-- EVENTS after a report: the class's bit from Warn on, EV_FAULT from Fault on, EV_BREAK under Break (60_exceptions.md R283). -/
theorem getLsbD_report_events (s : State) (v : Violation) (g x : Word) (b : Nat) :
    (report s v g x).1.events.getLsbD b =
      (s.events.getLsbD b || decide ((1 ≤ policyNumber (policyFor s v) ∧ b = violationClass v - 1) ∨
        (2 ≤ policyNumber (policyFor s v) ∧ b = 3) ∨ (policyNumber (policyFor s v) = 3 ∧ b = 4))) := by
  have hclass : violationClass v - 1 < 64 := by have := violationClass_bounds v; omega
  rcases report_cases s v g x with ⟨hp, e⟩ | ⟨hp, e⟩ | ⟨hp, e⟩ | ⟨hp, e⟩ <;> rw [e, hp] <;>
    simp [getLsbD_setEvent, hclass, policyNumber, Bool.or_assoc, -setEvent_events]

/-- Recording a violation does not look at EVENTS. -/
theorem latchFault_setEvent (s : State) (k : Nat) (v : Violation) (g x : Word) :
    latchFault (setEvent s k) v g x = setEvent (latchFault s v g x) k := by
  by_cases hc : s.faultCause = 0
  · rw [latchFault_unrecorded hc, latchFault_unrecorded (s := setEvent s k) hc]
    rfl
  · rw [latchFault_recorded hc, latchFault_recorded (s := setEvent s k) hc]

/-- Under Ignore and Warn a report changes EVENTS only (60_exceptions.md R283). -/
theorem report_of_lt_two {s : State} {v : Violation} (hp : policyNumber (policyFor s v) < 2) (g x : Word) :
    (report s v g x).1 = { s with events := (report s v g x).1.events } := by
  rcases report_cases s v g x with ⟨_, e⟩ | ⟨_, e⟩ | ⟨hfault, _⟩ | ⟨hbrk, _⟩
  · rw [e]
  · rw [e]
    rfl
  · exact absurd (hfault ▸ hp) (by decide)
  · exact absurd (hbrk ▸ hp) (by decide)

/-- Under Fault and Break a report also records the violation (60_exceptions.md R283). -/
theorem report_of_two_le {s : State} {v : Violation} (hp : 2 ≤ policyNumber (policyFor s v)) (g x : Word) :
    (report s v g x).1 = { latchFault s v g x with events := (report s v g x).1.events } := by
  rcases report_cases s v g x with ⟨hignore, _⟩ | ⟨hwarn, _⟩ | ⟨_, e⟩ | ⟨_, e⟩
  · exact absurd (hignore ▸ hp) (by decide)
  · exact absurd (hwarn ▸ hp) (by decide)
  · rw [e, latchFault_setEvent, latchFault_setEvent]
    rfl
  · rw [e, latchFault_setEvent, latchFault_setEvent]
    rfl

/-- Beside EVENTS a report writes the FAULT registers, from Fault on and while no cause is recorded (60_exceptions.md R283, R284). -/
theorem report_eq (s : State) (v : Violation) (g x : Word) :
    (report s v g x).1 =
      if 2 ≤ policyNumber (policyFor s v) ∧ s.faultCause = 0 then
        { s with
          events := (report s v g x).1.events, faultCause := BitVec.ofNat 64 (violationClass v), faultGaddr := g, faultPtr := x }
      else { s with events := (report s v g x).1.events } := by
  by_cases hp : 2 ≤ policyNumber (policyFor s v)
  · refine (report_of_two_le hp g x).trans ?_
    by_cases hc : s.faultCause = 0
    · rw [if_pos ⟨hp, hc⟩, latchFault_unrecorded hc]
    · rw [if_neg fun h => hc h.2, latchFault_recorded hc]
  · rw [if_neg fun h => hp h.1]
    exact report_of_lt_two (not_le.mp hp) g x

/-- Settles O47: the policy's number decides EVENTS, the FAULT registers and the halt. -/
theorem reportByPolicy : Obligations.ReportByPolicy := by
  intro s v g x
  dsimp only
  rw [← policyNumber_policyFor, ← violationClass_eq]
  refine ⟨fun b _ => getLsbD_report_events s v g x b, ?_, report_eq s v g x⟩
  rw [report_break]
  cases policyFor s v <;> rfl

/-! ### Several engines side by side -/

/-- The state an engine is in after its step; `step_eq` says that there always is one. -/
def stateAfter (s : State) : State :=
  match step s with
  | .next t => t
  | .fault _ | .refused _ => s

theorem step_eq (s : State) : step s = .next (stateAfter s) := by
  obtain ⟨t, ht⟩ := step_answers s
  rw [stateAfter, ht]

/-- A step of engine k replaces the state at position k and no other (60_exceptions.md R303). -/
theorem stepContext_eq (x : Contexts) (k : Nat) : stepContext x k = .next { engines := x.engines.modify k stateAfter } := by
  rw [stepContext, List.modify_eq_set_getElem?]
  cases x.engines[k]? with
  | none => rfl
  | some s => dsimp only; rw [step_eq]; rfl

/-- Settles O21: replacing the states at two different positions commutes. -/
theorem contextsAreIndependent : Obligations.ContextsAreIndependent := by
  refine ⟨fun x z k h => ?_, fun x y z j k hjk hy hz => ?_⟩
  · rw [stepContext_eq] at h
    obtain rfl := Host.Outcome.next.inj h
    refine ⟨fun j hj => List.getElem?_modify_ne _ _ hj.symm, fun s hs => ⟨_, step_eq s, ?_⟩⟩
    rw [List.getElem?_modify_eq, hs]
    rfl
  · rw [stepContext_eq] at hy hz
    obtain rfl := Host.Outcome.next.inj hy
    obtain rfl := Host.Outcome.next.inj hz
    refine ⟨_, stepContext_eq _ k, ?_⟩
    rw [stepContext_eq, List.modify_modify_ne _ _ _ hjk]

end Sys2Proof.Machine
